-- ==== Sys2Proof/Word.lean ====
section
/-! DEFINITION. Word.lean: the widths the spec uses (R7 `CSR_WIDTH`, R8, R42). -/

namespace Sys2Proof

/-- A byte: "an unsigned integer in [0, 255]" (R8). -/
abbrev Byte := BitVec 8

/-- One host-visible location: `CSR_WIDTH` = 16 bits (R7, R61). -/
abbrev Word := BitVec 16

/-- A host address: 11 bits, `0x000` to `0x7FF` (R42, R60). -/
abbrev HostAddr := BitVec 11

end Sys2Proof
end

