-- ==== Sys2Proof/Config.lean ====
section
/-! DEFINITION. Config.lean: the fixed numbers of the block, the implementation parameters of R7 as plain data,
which of their values a model refuses (R7, R32), and the two free values. -/

namespace Sys2Proof

/-- `HDR0` and `HDR1`, the two fixed header bytes (R7, R80). -/
def hdr : Byte := 0xFF
/-- `OP_READ`, the READ instruction byte (R7, R85). -/
def opRead : Byte := 0x02
/-- `MAX_DLEN`, the largest WRITE data length (R7, R28). -/
def maxDlen : Nat := 252
/-- `MAX_FRAME`, the largest command frame in bytes (R7, R81). -/
def maxFrame : Nat := 259
/-- `MAX_RESP`, the largest response length the block can be asked to collect (R7, R84). -/
def maxResp : Nat := 261
/-- `ACK_LEN_DEFAULT`, the reset value of `ACKLEN` (R7, R29). -/
def ackLenDefault : Nat := 6

/-- The implementation parameters of R7. No step writes them (R234: "They do not change while the block runs").
`wrTimeoutMs` and `baud` are the transport's: no rule of the block reads them. -/
structure Config where
  pollMs        : Nat
  respTimeoutMs : Nat
  rdTimeoutMs   : Nat
  wrTimeoutMs   : Nat
  baud          : Nat
  rxqCap        : Nat
  opWrite       : Byte
  opAction      : Byte
deriving DecidableEq, Repr

namespace Config

/-- The values R7 lists. `rxqCap` is the OPEN parameter of D9 at its suggested value (DESIGN CHOICE, log 3);
`opWrite` and `opAction` are D4's. -/
def standard : Config where
  pollMs        := 1
  respTimeoutMs := 1000
  rdTimeoutMs   := 2000
  wrTimeoutMs   := 2000
  baud          := 1000000
  rxqCap        := 4096
  opWrite       := 0x03
  opAction      := 0x05

/-- `RESP_TIMEOUT_TICKS` = `RESP_TIMEOUT_MS / POLL_MS` (R7). -/
def respTicks (c : Config) : Nat := c.respTimeoutMs / c.pollMs

/-- `RD_TIMEOUT_TICKS` = `RD_TIMEOUT_MS / POLL_MS` (R7). -/
def rdTicks (c : Config) : Nat := c.rdTimeoutMs / c.pollMs

/-- The configurations a model does not refuse: whole tick counts, each at least 1 (R7), neither above 65535 (R32). -/
def accepted (c : Config) : Bool :=
  c.pollMs != 0 && c.respTimeoutMs % c.pollMs == 0 && c.rdTimeoutMs % c.pollMs == 0 &&
    decide (1 ≤ c.respTicks) && decide (1 ≤ c.rdTicks) && decide (max c.respTicks c.rdTicks ≤ 65535)

end Config

/-- The transport's answer to `emit` (R44, R133). -/
inductive Verdict where
  | ok
  | ioError
deriving DecidableEq, Repr, Inhabited

/-- FREE VALUE (log 2): the transport's answer to the `n`-th emit when nothing in the state fixes it.
R133: "a model admits either answer (an oracle choice)". No body: nothing can be proved of its value. -/
opaque Config.freeVerdict : Nat → Verdict

/-- FREE VALUE (log 15): what `trunc` gives for a binary64 NaN, on which R176 and R177 are silent. -/
opaque Config.truncOfNaN : Int

end Sys2Proof
end

