-- ==== Sys2Proof/Syntax.lean ====
section
/-! DEFINITION. Syntax.lean: the two levels of instructions (R2), the command frame as data (R80, R82),
and what the outside world can do to the block (R11, R230): host accesses and events. -/

namespace Sys2Proof

/-- The protocol instruction of a frame (R2) and the `OP` field of a host command (R23). -/
inductive Op where
  | read
  | write
  | action
deriving DecidableEq, Repr

/-- The `OP` field's two bits (R23, R88). -/
def Op.code : Op → BitVec 2
  | .read   => 1
  | .write  => 2
  | .action => 3

/-- One constructor per row of `opcode_table.json`. No row has an operand field: every operand is a CSR (R90).
The first three are the wire instructions (R103 to R105), the others the host commands (R135 to R140). -/
inductive Instr where
  | read
  | write
  | action
  | cmdRead
  | cmdWrite
  | cmdAction
  | cmdBuildRead
  | cmdBuildWrite
  | cmdBuildAction
deriving DecidableEq, Repr

/-- One unit of code as it reaches the block: the INSTR byte of a command frame (R85), or the 16-bit value
written to `CMD` (R88). -/
inductive CodeWord where
  | wire (b : Byte)
  | host (v : Word)
deriving DecidableEq, Repr

/-- The parameters of a command frame, per instruction (R82). -/
inductive FrameBody where
  | read (addr count : Byte)
  | write (addr : Byte) (data : List Byte)
  | action
deriving DecidableEq, Repr

/-- A command frame as data: what its bytes say beside header, length and checksum (R80). -/
structure CommandFrame where
  id   : Byte
  body : FrameBody
deriving DecidableEq, Repr

/-- The instruction a frame body belongs to. -/
def FrameBody.op : FrameBody → Op
  | .read _ _  => .read
  | .write _ _ => .write
  | .action    => .action

/-- `PARAM[0..P-1]` (R82). -/
def FrameBody.params : FrameBody → List Byte
  | .read addr count => [addr, count]
  | .write addr data => addr :: data
  | .action          => []

/-- One operation of the host at its port: a read, a write (R42), or the pseudo-instruction `WAITDONE` (R92). -/
inductive HostOp where
  | read (a : HostAddr)
  | write (a : HostAddr) (v : Word)
  | waitDone
deriving DecidableEq, Repr

/-- What can happen next (R11, R230), and nothing else. `host`: the host makes its next access. `verdict` fixes the
answer of the next emit (R91 `@verdict`) and touches no state of the block. -/
inductive Event where
  | host
  | rx (b : Byte)
  | rxError
  | tick
  | reset
  | verdict (v : Verdict)
deriving DecidableEq, Repr

end Sys2Proof
end

