-- ==== Sys2Proof/Machine/State.lean ====
section
/-! DEFINITION. State.lean: every piece of state the spec gives the block (R22 to R38), the model's own fields for the
outside world, and the state after reset (R45). Plain data throughout. -/

namespace Sys2Proof.Machine

/-- `phase`, the engine's control state (R22): "The value 3 is never reached". -/
inductive Phase where
  | idle
  | wait
  | collect
deriving DecidableEq, Repr

/-- `STATUS.ERR` (R24, R201): "6 and 7 are never produced". -/
inductive ErrCode where
  | ok
  | timeout
  | checksum
  | io
  | short
  | arg
deriving DecidableEq, Repr

/-- A byte store, keyed by index: addresses strictly rising, no entry 0. An unlisted index reads as 0, the value
R45 gives every byte of `TXDATA`, `TXFRAME` and `RXBUF` at reset. -/
abbrev Memory := List Host.Cell

/-- Why the machine stops with a fault. -/
inductive Fault where
  /-- Raised by `enter_collect()`, `rx` in `COLLECT` and `Validate()` when they would use an `RXBUF` index that R37
  does not give (above 260, or `L_N - 1` with `L_N` < 6). No state of a run gets there (R152). Safe. -/
  | rxbufIndex
deriving DecidableEq, Repr

/-- Why the machine gives an instruction no meaning. -/
inductive Refusal where
  /-- Raised by an arm of `exec` whose instruction has no meaning yet. Safe. -/
  | notModelled (mnemonic : String)
  /-- Raised by `step` on a configuration "a model refuses" (R7) or that "is refused" (R32). Safe. -/
  | badConfiguration
deriving DecidableEq, Repr

/-- The block's state, then (from `cfg` on) the model's own fields. `STATUS.BUSY` and `STATUS.PHASE` are views of
`phase` (R24), `PAYLOAD` is a view of `RXBUF` (R35) and `CMD` holds no state (R23), so none of them is a field. -/
structure State where
  /-- `phase` (R22). -/
  phase     : Phase
  /-- `STATUS.DONE` (R24). -/
  done      : Bool
  /-- `STATUS.ERR` (R24). -/
  err       : ErrCode
  /-- `STATUS.PVALID` (R24). -/
  pvalid    : Bool
  /-- `ID[7:0]` (R25). -/
  id        : Byte
  /-- `ADDR[7:0]` (R26). -/
  addr      : Byte
  /-- `COUNT[7:0]` (R27). -/
  count     : Byte
  /-- `DLEN[7:0]` (R28). -/
  dlen      : Byte
  /-- `ACKLEN[8:0]` (R29). -/
  acklen    : BitVec 9
  /-- `RXCNT[8:0]` (R30). -/
  rxcnt     : BitVec 9
  /-- `TXLEN[8:0]` (R31). -/
  txlen     : BitVec 9
  /-- `ELAPSED[15:0]` (R32). -/
  elapsed   : BitVec 16
  /-- `TXDATA[0..251]` (R33). -/
  txdata    : Memory
  /-- `TXFRAME[0..258]` (R34). -/
  txframe   : Memory
  /-- `RXBUF[0..260]` (R37). -/
  rxbuf     : Memory
  /-- `L_OP`, 2 bits (R36). -/
  lOp       : BitVec 2
  /-- `L_VALIDATE`, 1 bit (R36). -/
  lValidate : Bool
  /-- `L_N`, 9 bits (R36). -/
  lN        : BitVec 9
  /-- `L_COUNT`, 8 bits (R36). -/
  lCount    : Byte
  /-- `RXQ`, oldest byte first (R38). -/
  rxq       : List Byte
  /-- The implementation parameters (R7); no step writes them. -/
  cfg       : Config
  /-- The host's operations still to come, in order. -/
  host      : List HostOp
  /-- The events still to come, in order (R11, R70). -/
  events    : List Event
  /-- The transport's answer to the next emit, where it is fixed (R44, R91). -/
  verdict   : Option Verdict
  /-- The values the host's reads returned, oldest first (R62). -/
  reads     : List Word
  /-- The frames handed to the transport, oldest first (R133). -/
  emitted   : List (List Byte)
deriving DecidableEq, Repr

/-- The state after reset (R45), with the parameters R7 lists and nothing coming from outside. -/
def State.reset : State where
  phase     := .idle
  done      := false
  err       := .ok
  pvalid    := false
  id        := 0
  addr      := 0
  count     := 0
  dlen      := 0
  acklen    := 6
  rxcnt     := 0
  txlen     := 0
  elapsed   := 0
  txdata    := []
  txframe   := []
  rxbuf     := []
  lOp       := 0
  lValidate := false
  lN        := 0
  lCount    := 0
  rxq       := []
  cfg       := Config.standard
  host      := []
  events    := []
  verdict   := none
  reads     := []
  emitted   := []

/-- The outcomes of the block's steps. -/
abbrev Outcome := Host.Outcome State Fault Refusal

end Sys2Proof.Machine
end

