-- ==== Sys2Proof/Machine/Flags.lean ====
section
/-! DEFINITION. Flags.lean: the `STATUS` word (R24) and its fields. The block has no other flags (R40). -/

namespace Sys2Proof.Machine

/-- `STATUS.PHASE` (R22). -/
def Phase.code : Phase → BitVec 2
  | .idle    => 0
  | .wait    => 1
  | .collect => 2

/-- `STATUS.ERR` (R201). -/
def ErrCode.code : ErrCode → BitVec 3
  | .ok       => 0
  | .timeout  => 1
  | .checksum => 2
  | .io       => 3
  | .short    => 4
  | .arg      => 5

/-- `STATUS.BUSY`: "1 exactly when `phase` ≠ `IDLE`" (R24). -/
def State.busy (s : State) : Bool := s.phase != .idle

/-- The `STATUS` word: bits 15:8 zero, `PHASE` 7:6, `PVALID` 5, `ERR` 4:2, `DONE` 1, `BUSY` 0 (R24). -/
def statusWord (s : State) : Word :=
  (0 : BitVec 8) ++ s.phase.code ++ BitVec.ofBool s.pvalid ++ s.err.code ++ BitVec.ofBool s.done ++
    BitVec.ofBool s.busy

/-- Acceptance clears the outcome of the command before: `DONE`, `ERR` and `PVALID` (R131, R206). -/
def clearOutcome (s : State) : State := { s with done := false, err := .ok, pvalid := false }

end Sys2Proof.Machine
end

