-- ==== Sys2Proof/WellFormed.lean ====
section
/-! DEFINITION. WellFormed.lean: which frames and configurations the spec admits. An `Instr` carries no operand,
so every `Instr` is well formed: its operands are CSRs, judged when a command is accepted (R132). -/

namespace Sys2Proof

/-- The caller's guarantee on WRITE data, "[0,252]" (R7 `MAX_DLEN`, R81). -/
def FrameBody.wellFormed : FrameBody → Bool
  | .read _ _     => true
  | .write _ data => decide (data.length ≤ maxDlen)
  | .action       => true

def CommandFrame.wellFormed (f : CommandFrame) : Bool := f.body.wellFormed

/-- The three instruction bytes differ, so that a frame's byte 4 names one instruction (R85; DEDUCED, log 8). -/
def Config.codesDistinct (c : Config) : Bool :=
  c.opWrite != opRead && c.opAction != opRead && c.opAction != c.opWrite

/-- A configuration of R7 with D9's bound on the receive queue ("at least 261"). -/
def Config.wellFormed (c : Config) : Bool :=
  c.accepted && c.codesDistinct && decide (maxResp ≤ c.rxqCap)

end Sys2Proof
end

