-- ==== Sys2Proof/Decode.lean ====
section
/-! DEFINITION. Decode.lean: the checksum (R100), the decoders of both opcode maps (R85, R88) and of whole command
frames (R80 to R82, R86), each rejecting by name, then the encoders, written from the same tables of the spec. -/

namespace Sys2Proof

/-- Why a code word or a frame is no instruction of the block. -/
inductive Reject where
  | reservedBits     -- `v[15:3]` is not 0 (R88, R89)
  | opZero           -- `OP` = `00` (R89)
  | unknownInstr     -- byte 4 is not READ, WRITE or ACTION (R87)
  | truncated        -- fewer bytes than byte 3 promises (R86)
  | badHeader        -- bytes 0 and 1 are not `FF FF` (R80)
  | badLength        -- the length byte does not fit the instruction (R82)
  | badChecksum      -- the last byte is not `CK` of the body (R100)
deriving DecidableEq, Repr

/-- `sum(s)`: the integer sum of the bytes (R9). -/
def byteSum : List Byte → Nat
  | []      => 0
  | b :: bs => b.toNat + byteSum bs

/-- `CK(s) = 255 - (sum(s) mod 256)` (R100). -/
def ck (s : List Byte) : Byte := BitVec.ofNat 8 (255 - byteSum s % 256)

/-! ### The two opcode maps -/

/-- R88: "`OP = v[1:0]`, `NOSEND = v[2]`, and `v[15:3]` must be 0"; the tests stand in R132's order. -/
def decodeHost (v : Word) : Except Reject Instr :=
  if v.extractLsb 15 3 ≠ 0 then .error .reservedBits
  else
    match v.getLsbD 2, v.extractLsb 1 0 with
    | false, 1 => .ok .cmdRead
    | false, 2 => .ok .cmdWrite
    | false, 3 => .ok .cmdAction
    | true,  1 => .ok .cmdBuildRead
    | true,  2 => .ok .cmdBuildWrite
    | true,  3 => .ok .cmdBuildAction
    | _,     _ => .error .opZero

/-- The instruction a wire byte names (R85), with `OP_WRITE` and `OP_ACTION` as parameters (R7). -/
def opOfByte (c : Config) (b : Byte) : Option Op :=
  if b = opRead then some .read
  else if b = c.opWrite then some .write
  else if b = c.opAction then some .action
  else none

/-- R85, R87: byte 4 of a command frame. -/
def decodeWire (c : Config) (b : Byte) : Except Reject Instr :=
  match opOfByte c b with
  | some .read   => .ok .read
  | some .write  => .ok .write
  | some .action => .ok .action
  | none         => .error .unknownInstr

def decode (c : Config) : CodeWord → Except Reject Instr
  | .wire b => decodeWire c b
  | .host v => decodeHost v

/-- The code word of a table row: an 8-bit row is an INSTR byte, a 16-bit row a value for `CMD`. -/
def tableCodeWord (nbits w : Nat) : Option CodeWord :=
  if nbits = 8 then some (.wire (BitVec.ofNat 8 w))
  else if nbits = 16 then some (.host (BitVec.ofNat 16 w))
  else none

/-- The host's fixed name: what the decoder reads from a table row's word, with the table's own OP codes. -/
def decodeTableWord (nbits w : Nat) : Option Instr :=
  match tableCodeWord nbits w with
  | none    => none
  | some cw =>
    match decode Config.standard cw with
    | .ok i    => some i
    | .error _ => none

/-! ### Whole command frames -/

/-- The parameters of a frame read back per instruction (R82): READ has two, ACTION none, WRITE an address and data. -/
def decodeBody : Op → List Byte → Except Reject FrameBody
  | .read,   [addr, count] => .ok (.read addr count)
  | .write,  addr :: data  => .ok (.write addr data)
  | .action, []            => .ok .action
  | _,       _             => .error .badLength

/-- A frame's body after the header: `id`, `LEN` and then `LEN` bytes, the last of them the checksum (R80, R86).
Answers the frame and the bytes that follow it. -/
def decodeAfterHeader (c : Config) (id len : Byte) (rest : List Byte) : Except Reject (CommandFrame × List Byte) :=
  if len.toNat < 2 then .error .badLength
  else if rest.length < len.toNat then .error .truncated
  else
    match rest.take (len.toNat - 1), rest.drop (len.toNat - 1) with
    | instr :: params, chk :: tail =>
      if chk ≠ ck (id :: len :: instr :: params) then .error .badChecksum
      else
        match opOfByte c instr with
        | none    => .error .unknownInstr
        | some op => (decodeBody op params).map fun body => (⟨id, body⟩, tail)
    | _, _ => .error .truncated

/-- A command frame from the front of a byte sequence (R80; R86: "the frame is `frame[3] + 4` bytes"). -/
def decodeFrame (c : Config) : List Byte → Except Reject (CommandFrame × List Byte)
  | h0 :: h1 :: id :: len :: rest =>
    if h0 ≠ hdr ∨ h1 ≠ hdr then .error .badHeader else decodeAfterHeader c id len rest
  | _ => .error .truncated

/-! ### Encoders -/

/-- The instruction byte of a frame (R85). -/
def opByte (c : Config) : Op → Byte
  | .read   => opRead
  | .write  => c.opWrite
  | .action => c.opAction

/-- The code word of an instruction, from the tables of R85 and R88. -/
def encode (c : Config) : Instr → CodeWord
  | .read           => .wire (opByte c .read)
  | .write          => .wire (opByte c .write)
  | .action         => .wire (opByte c .action)
  | .cmdRead        => .host 0x0001
  | .cmdWrite       => .host 0x0002
  | .cmdAction      => .host 0x0003
  | .cmdBuildRead   => .host 0x0005
  | .cmdBuildWrite  => .host 0x0006
  | .cmdBuildAction => .host 0x0007

/-- `body` of R102: the bytes the checksum covers, with `LEN = 2 + P` (R81). -/
def frameBodyBytes (c : Config) (f : CommandFrame) : List Byte :=
  f.id :: BitVec.ofNat 8 (2 + f.body.params.length) :: opByte c f.body.op :: f.body.params

/-- The bytes of a command frame: `[0xFF, 0xFF] ++ body ++ [CK(body)]` (R80, R102). -/
def encodeFrame (c : Config) (f : CommandFrame) : List Byte :=
  hdr :: hdr :: (frameBodyBytes c f ++ [ck (frameBodyBytes c f)])

end Sys2Proof
end

