-- ==== Sys2Proof/Machine/Memory.lean ====
section
/-! DEFINITION. Memory.lean: reading and writing one byte of a byte store, runs of bytes, and the canonical form. -/

namespace Sys2Proof.Machine

/-- The byte at index `a`; an unlisted index reads 0 (R33, R34, R37, R45). -/
def Memory.read : Memory → Nat → Byte
  | [],          _ => 0
  | (k, v) :: m, a => if k = a then v else Memory.read m a

/-- Puts a nonzero byte at its place in the rising order. -/
def Memory.insert : Memory → Nat → Byte → Memory
  | [],          a, b => [(a, b)]
  | (k, v) :: m, a, b =>
    if a < k then (a, b) :: (k, v) :: m
    else if a = k then (a, b) :: m
    else (k, v) :: Memory.insert m a b

/-- Writes one byte; writing 0 removes the entry. -/
def Memory.write (m : Memory) (a : Nat) (b : Byte) : Memory :=
  if b = 0 then m.filter (fun c => c.1 != a) else Memory.insert m a b

/-- Writes a run of bytes from index `a` on. -/
def Memory.writeBytes (m : Memory) (a : Nat) : List Byte → Memory
  | []      => m
  | b :: bs => Memory.writeBytes (Memory.write m a b) (a + 1) bs

/-- The store that holds a run of bytes from index `a` on and 0 everywhere else. -/
def Memory.ofBytes (a : Nat) : List Byte → Memory
  | []      => []
  | b :: bs => if b = 0 then Memory.ofBytes (a + 1) bs else (a, b) :: Memory.ofBytes (a + 1) bs

/-- The `n` bytes from index `a` on: `s[a ..< a+n]` (R9). -/
def Memory.slice (m : Memory) (a : Nat) : Nat → List Byte
  | 0     => []
  | n + 1 => Memory.read m a :: Memory.slice m (a + 1) n

/-- The canonical form: indexes strictly rising, no entry equal to what an unlisted index reads. -/
def Memory.wf (m : Memory) : Bool :=
  decide (m.Pairwise fun x y => x.1 < y.1) && m.all (fun c => c.2 != 0)

/-- Every entry lies below `cap`. -/
def Memory.below (m : Memory) (cap : Nat) : Bool := m.all fun c => decide (c.1 < cap)

end Sys2Proof.Machine
end

