-- ==== Sys2Proof/Machine/Operands.lean ====
section
/-! DEFINITION. Operands.lean: where a command's operands come from (R90, R102), the response length it fixes (R84)
and which operands are illegal (R132). -/

namespace Sys2Proof.Machine

/-- The frame of an instruction from the current CSRs (R82, R102: "here they come from the CSRs"). -/
def frameOf (op : Op) (s : State) : CommandFrame where
  id   := s.id
  body :=
    match op with
    | .read   => .read s.addr s.count
    | .write  => .write s.addr (s.txdata.slice 0 s.dlen.toNat)
    | .action => .action

/-- `BuildFrame(op)` (R102). -/
def buildFrame (op : Op) (s : State) : List Byte := encodeFrame s.cfg (frameOf op s)

/-- `L_N` at acceptance: `6 + COUNT` for READ, `ACKLEN` for WRITE and ACTION (R36, R84). -/
def responseLen (op : Op) (s : State) : BitVec 9 :=
  match op with
  | .read   => 6 + s.count.setWidth 9
  | .write  => s.acklen
  | .action => s.acklen

/-- `L_COUNT` at acceptance (R36). -/
def payloadLen (op : Op) (s : State) : Byte :=
  match op with
  | .read   => s.count
  | .write  => 0
  | .action => 0

/-- Condition 2 of R132: WRITE, sending or build-only, with `DLEN` > 252. -/
def dataTooLong (op : Op) (s : State) : Bool :=
  match op with
  | .read   => false
  | .write  => decide (maxDlen < s.dlen.toNat)
  | .action => false

/-- Condition 3 of R132: a sending WRITE or ACTION with `ACKLEN` > 261. -/
def ackTooLong (op : Op) (s : State) : Bool :=
  match op with
  | .read   => false
  | .write  => decide (maxResp < s.acklen.toNat)
  | .action => decide (maxResp < s.acklen.toNat)

/-- Conditions 2 and 3 of R132 for the command of `op` and `NOSEND`. Condition 1 is the decoder's (R89). -/
def illegalOperands (op : Op) (nosend : Bool) (s : State) : Bool :=
  dataTooLong op s || (!nosend && ackTooLong op s)

end Sys2Proof.Machine
end

