-- ==== Sys2Proof/Machine/Ops.lean ====
section
/-! DEFINITION. Ops.lean: the named operations every command and every engine step is made of. `finish` (R205) stands
where taking an exception would: errors are outcomes of a command, and there is no return instruction (R206). -/

namespace Sys2Proof.Machine

/-- `flush()`: `RXQ <- []` (R134). -/
def flush (s : State) : State := { s with rxq := [] }

/-- `finish(code)` (R205): flush, `ERR`, `PVALID` 0, `DONE` 1, `phase` `IDLE`. -/
def finish (code : ErrCode) (s : State) : State :=
  { flush s with err := code, pvalid := false, done := true, phase := .idle }

/-- The built frame is stored: `TXFRAME`, the rest of it 0, and `TXLEN` (R106). -/
def storeFrame (f : List Byte) (s : State) : State :=
  { s with txframe := Memory.ofBytes 0 f, txlen := BitVec.ofNat 9 f.length }

/-- The framer inside an acceptance step (R102, R106): the frame of `op` from the current CSRs, built and stored. -/
def framer (op : Op) (s : State) : State := storeFrame (buildFrame op s) s

/-- The latched transaction (R36) and `RXCNT <- 0`, written when a sending command is accepted (R131). -/
def latch (op : Op) (s : State) : State :=
  { s with
    lOp       := op.code
    lValidate := decide (op = .read)
    lN        := responseLen op s
    lCount    := payloadLen op s
    rxcnt     := 0 }

/-- The transport's answer to the next emit (R133: an oracle choice): the one the state fixes, else a free value. -/
def nextVerdict (s : State) : Verdict := s.verdict.getD (Config.freeVerdict s.emitted.length)

/-- `emit(f)` hands the whole frame to the transport (R133), which has then given its answer. -/
def emit (f : List Byte) (s : State) : State := { s with emitted := s.emitted ++ [f], verdict := none }

/-- Acceptance of a legal build-only command (R131): build, store, `ERR` `OK`, `DONE` 1; no flush (R134). -/
def acceptBuild (op : Op) (s : State) : State :=
  { framer op s with err := .ok, done := true }

/-- Acceptance of a legal sending command up to its emit (R131): build, store, latch, flush, emit. -/
def sendFrame (op : Op) (s : State) : State :=
  emit (buildFrame op s) (flush (latch op (framer op s)))

/-- Acceptance of a legal sending command (R131), ended by the transport's answer. -/
def acceptSend (op : Op) (s : State) : State :=
  match nextVerdict s with
  | .ioError => finish .io (sendFrame op s)
  | .ok      => { sendFrame op s with elapsed := 0, phase := .wait }

/-- `command(v)` for a legal `CMD` value (R130, R131): ignored while busy, else accepted. -/
def command (op : Op) (nosend : Bool) (s : State) : State :=
  if s.busy then s
  else if illegalOperands op nosend (clearOutcome s) then finish .arg (clearOutcome s)
  else if nosend then acceptBuild op (clearOutcome s)
  else acceptSend op (clearOutcome s)

/-- `command(v)` for an illegal `CMD` value (R89, R130, R132). -/
def illegalCommand (s : State) : State := if s.busy then s else finish .arg (clearOutcome s)

/-- A wire instruction in the block (R102 to R106): the framer builds and stores its frame and writes no flag. It is
called from an acceptance step only (R102), so in `IDLE`: in flight the frame is immutable (R106). Data longer than a
frame holds is refused before the build (R104, R132). Log 4, log 5. -/
def wireInstruction (op : Op) (s : State) : State :=
  if s.busy then s
  else if dataTooLong op s then finish .arg s
  else framer op s

/-! ### Collecting and checking a response -/

/-- `Validate()` (R110): the checksum of `RXBUF[2 .. L_N-2]` against `RXBUF[L_N-1]`, and nothing else (R111). -/
def validate (s : State) : Bool :=
  ck (s.rxbuf.slice 2 (s.lN.toNat - 3)) == s.rxbuf.read (s.lN.toNat - 1)

/-- `check()` (R112). `Validate()` is called only with 6 ≤ `L_N` (R110) ≤ 261 (R84): elsewhere it has no such bytes. -/
def check (s : State) : Outcome :=
  if s.lValidate then
    if 6 ≤ s.lN.toNat ∧ s.lN.toNat ≤ maxResp then
      if validate s then .next { finish .ok s with pvalid := true } else .next (finish .checksum s)
    else .fault .rxbufIndex
  else .next (finish .ok s)

/-- The last line of R144 and R145: `if csr.RXCNT == L_N: check()`. -/
def checkIfComplete (s : State) : Outcome := if s.rxcnt = s.lN then check s else .next s

/-- `enqueue(b)`: at capacity the byte is dropped and no flag records it (R141). -/
def enqueue (b : Byte) (s : State) : State :=
  if s.rxq.length < s.cfg.rxqCap then { s with rxq := s.rxq ++ [b] } else s

/-- How many bytes `enter_collect()` takes from `RXQ`: `min(|RXQ|, L_N)` (R144). -/
def collectLen (s : State) : Nat := min s.rxq.length s.lN.toNat

/-- `enter_collect()` (R144). -/
def enterCollect (s : State) : Outcome :=
  if collectLen s ≤ maxResp then
    checkIfComplete
      { s with
        phase   := .collect
        elapsed := 0
        rxbuf   := s.rxbuf.writeBytes 0 (s.rxq.take (collectLen s))
        rxq     := s.rxq.drop (collectLen s)
        rxcnt   := BitVec.ofNat 9 (collectLen s) }
  else .fault .rxbufIndex

/-- `rx(b)` in `COLLECT` (R145). -/
def collectByte (b : Byte) (s : State) : Outcome :=
  if s.rxcnt.toNat < maxResp then
    checkIfComplete { s with rxbuf := s.rxbuf.write s.rxcnt.toNat b, rxcnt := s.rxcnt + 1 }
  else .fault .rxbufIndex

end Sys2Proof.Machine
end

