-- ==== Sys2Proof/Machine/Commands.lean ====
section
/-! DEFINITION. Commands.lean: the host commands, each the acceptance of its `CMD` value (R130, R131). -/

namespace Sys2Proof.Machine

/-- CMD_READ (R135). -/
def execCmdRead (s : State) : Outcome := .next (command .read false s)

/-- CMD_WRITE (R136). -/
def execCmdWrite (s : State) : Outcome := .next (command .write false s)

/-- CMD_ACTION (R137). -/
def execCmdAction (s : State) : Outcome := .next (command .action false s)

/-- CMD_BUILD_READ (R138). -/
def execCmdBuildRead (s : State) : Outcome := .next (command .read true s)

/-- CMD_BUILD_WRITE (R139). -/
def execCmdBuildWrite (s : State) : Outcome := .next (command .write true s)

/-- CMD_BUILD_ACTION (R140). -/
def execCmdBuildAction (s : State) : Outcome := .next (command .action true s)

end Sys2Proof.Machine
end

