-- ==== Sys2Proof/Machine/Wire.lean ====
section
/-! DEFINITION. Wire.lean: the wire instructions. What READ, WRITE and ACTION do in the block is to be framed:
`BuildFrame` from the CSRs (R102) and the store of the frame (R106). No event runs one alone: it runs inside the
acceptance step of its command (R102, R131; log 4). -/

namespace Sys2Proof.Machine

/-- READ (R103). -/
def execRead (s : State) : Outcome := .next (wireInstruction .read s)

/-- WRITE (R104). -/
def execWrite (s : State) : Outcome := .next (wireInstruction .write s)

/-- ACTION (R105). -/
def execAction (s : State) : Outcome := .next (wireInstruction .action s)

end Sys2Proof.Machine
end

