-- ==== Sys2Proof/Machine/Dispatch.lean ====
section
/-! DEFINITION. Dispatch.lean: one arm per instruction. -/

namespace Sys2Proof.Machine

def exec (i : Instr) (s : State) : Host.Outcome State Fault Refusal :=
  match i with
  | .read => Sys2Proof.Machine.execRead s
  | .write => Sys2Proof.Machine.execWrite s
  | .action => Sys2Proof.Machine.execAction s
  | .cmdRead => Sys2Proof.Machine.execCmdRead s
  | .cmdWrite => Sys2Proof.Machine.execCmdWrite s
  | .cmdAction => Sys2Proof.Machine.execCmdAction s
  | .cmdBuildRead => Sys2Proof.Machine.execCmdBuildRead s
  | .cmdBuildWrite => Sys2Proof.Machine.execCmdBuildWrite s
  | .cmdBuildAction => Sys2Proof.Machine.execCmdBuildAction s

end Sys2Proof.Machine
end

