-- ==== Sys2Proof/Machine/Engine.lean ====
section
/-! DEFINITION. Engine.lean: the transaction engine's steps on `rx`, `rx_error` and `tick` (R142 to R148), and the
reset event (R230, R231). -/

namespace Sys2Proof.Machine

/-- `rx(b)`: enqueued in `IDLE` and `WAIT` (R142), collected in `COLLECT` (R145). -/
def rxStep (b : Byte) (s : State) : Outcome :=
  match s.phase with
  | .idle    => .next (enqueue b s)
  | .wait    => .next (enqueue b s)
  | .collect => collectByte b s

/-- `csr.ELAPSED <- csr.ELAPSED + 1` (R143, R146). -/
def countTick (s : State) : State := { s with elapsed := s.elapsed + 1 }

/-- `tick` in `WAIT` (R143): bytes before the deadline (R204). -/
def waitTick (s : State) : Outcome :=
  if 1 ≤ s.rxq.length then enterCollect (countTick s)
  else if s.cfg.respTicks ≤ (countTick s).elapsed.toNat then .next (finish .timeout (countTick s))
  else .next (countTick s)

/-- `tick` in `COLLECT` (R146). -/
def collectTick (s : State) : Outcome :=
  if s.cfg.rdTicks ≤ (countTick s).elapsed.toNat then
    if s.lValidate then .next (finish .short (countTick s)) else check (countTick s)
  else .next (countTick s)

/-- `tick` (R143, R146, R147). -/
def tickStep (s : State) : Outcome :=
  match s.phase with
  | .idle    => .next s
  | .wait    => waitTick s
  | .collect => collectTick s

/-- `rx_error` (R148): ends a transaction with `IO`, and is ignored in `IDLE`. -/
def rxErrorStep (s : State) : State := if s.busy then finish .io s else s

/-- Reset (R230): every piece of the block's state at its value of R45, in any phase; no `finish` runs (R231). The
parameters and what lies outside the block stay. -/
def resetStep (s : State) : State :=
  { State.reset with
    cfg     := s.cfg
    host    := s.host
    events  := s.events
    verdict := s.verdict
    reads   := s.reads
    emitted := s.emitted }

end Sys2Proof.Machine
end

