-- ==== Sys2Proof/Machine/HostPort.lean ====
section
/-! DEFINITION. HostPort.lean: the host's accesses over the CSR map (R61 to R64), the host's turn, and the delivery of
one event (R11). -/

namespace Sys2Proof.Machine

/-- `MemRead(a, 2)` (R61, R62): reserved bits and reserved addresses read 0, and so does `CMD`. -/
def memRead (a : HostAddr) (s : State) : Word :=
  let n := a.toNat
  if n = 0x001 then statusWord s
  else if n = 0x002 then s.id.setWidth 16
  else if n = 0x003 then s.addr.setWidth 16
  else if n = 0x004 then s.count.setWidth 16
  else if n = 0x005 then s.dlen.setWidth 16
  else if n = 0x006 then s.acklen.setWidth 16
  else if n = 0x007 then s.rxcnt.setWidth 16
  else if n = 0x008 then s.txlen.setWidth 16
  else if n = 0x009 then s.elapsed
  else if 0x100 ≤ n ∧ n ≤ 0x1FB then (s.txdata.read (n - 0x100)).setWidth 16
  else if 0x200 ≤ n ∧ n ≤ 0x302 then (s.txframe.read (n - 0x200)).setWidth 16
  else if 0x400 ≤ n ∧ n ≤ 0x4FE then
    if s.pvalid ∧ n - 0x400 < s.lCount.toNat then (s.rxbuf.read (5 + (n - 0x400))).setWidth 16 else 0
  else 0

/-- A host write to a location other than `CMD` (R63): bits above a field's width are dropped, and read-only and
reserved locations ignore it. -/
def storeCsr (a : HostAddr) (v : Word) (s : State) : State :=
  let n := a.toNat
  if n = 0x002 then { s with id := v.setWidth 8 }
  else if n = 0x003 then { s with addr := v.setWidth 8 }
  else if n = 0x004 then { s with count := v.setWidth 8 }
  else if n = 0x005 then { s with dlen := v.setWidth 8 }
  else if n = 0x006 then { s with acklen := v.setWidth 9 }
  else if 0x100 ≤ n ∧ n ≤ 0x1FB then { s with txdata := s.txdata.write (n - 0x100) (v.setWidth 8) }
  else s

/-- A write of `v` to `CMD` (R130): the decoded command runs; a value that is no command is illegal (R89). -/
def commandWrite (v : Word) (s : State) : Outcome :=
  match decode s.cfg (.host v) with
  | .ok i    => exec i s
  | .error _ => .next (illegalCommand s)

/-- `MemWrite(a, 2, v)` (R63). -/
def memWrite (a : HostAddr) (v : Word) (s : State) : Outcome :=
  if a = 0x000 then commandWrite v s else .next (storeCsr a v s)

/-- The value of a read reaches the host. -/
def recordRead (v : Word) (s : State) : State := { s with reads := s.reads ++ [v] }

/-- One operation of the host. `WAITDONE` is `R 0x001 -> s` until `s[1] == 1` (R92): it stays until then. -/
def hostOpStep (op : HostOp) (s : State) : Outcome :=
  match op with
  | .read a    => .next (recordRead (memRead a s) s)
  | .write a v => memWrite a v s
  | .waitDone  =>
    if (memRead 0x001 s).getLsbD 1 then .next (recordRead (memRead 0x001 s) s)
    else .next { recordRead (memRead 0x001 s) s with host := .waitDone :: s.host }

/-- The host's turn: its next operation, if it has one. -/
def hostTurn (s : State) : Outcome :=
  match s.host with
  | []         => .next s
  | op :: rest => hostOpStep op { s with host := rest }

/-- One event, taken as one atomic step (R10, R11). -/
def deliver (e : Event) (s : State) : Outcome :=
  match e with
  | .host      => hostTurn s
  | .rx b      => rxStep b s
  | .rxError   => .next (rxErrorStep s)
  | .tick      => tickStep s
  | .reset     => .next (resetStep s)
  | .verdict v => .next { s with verdict := some v }

/-- The step on a list of events to come: the first is delivered; where none comes, nothing changes (R11: "The block
changes state only in a step caused by one of these events"). -/
def stepEvents (s : State) : Outcome :=
  match s.events with
  | []      => .next s
  | e :: es => deliver e { s with events := es }

/-- One step of an accepted configuration; another is refused (R7, R32). -/
def stepChecked (s : State) : Outcome :=
  if s.cfg.accepted then stepEvents s else .refused .badConfiguration

/-- The `CMD` value of `BUILD op` (R92: "`0x0004 | op`"). -/
def buildValue (op : Op) : Word := 0x0004 ||| op.code.setWidth 16

/-- A host write of `v` to `CMD` as the very next step. -/
def placeCommand (v : Word) (s : State) : State :=
  { s with host := .write 0x000 v :: s.host, events := .host :: s.events }

/-- A code word brought to the block by the very next step. A wire instruction runs inside an acceptance step only
(R102), so the `BUILD` of its operation is placed; no command runs a byte that names no instruction (R87). Log 4. -/
def placeCodeWord (cw : CodeWord) (s : State) : State :=
  match cw with
  | .host v => placeCommand v s
  | .wire b =>
    match opOfByte s.cfg b with
    | some op => placeCommand (buildValue op) s
    | none    => s

end Sys2Proof.Machine
end

