-- ==== Sys2Proof/Machine/Step.lean ====
section
/-! DEFINITION. Step.lean: the machine's one step, and the placing of a table row's word where it fetches next. -/

namespace Sys2Proof.Machine

def step (s : State) : Host.Outcome State Fault Refusal := stepChecked s

/-- `s` with the word of a table row as the next thing that reaches the block: a 16-bit row as a host write to `CMD`,
an 8-bit row as the `BUILD` that has the framer build the frame of that INSTR byte (log 4, log 6). -/
def State.withFetchWord (s : State) (nbits w : Nat) : State :=
  match tableCodeWord nbits w with
  | some cw => placeCodeWord cw s
  | none    => s

end Sys2Proof.Machine
end

