-- ==== Sys2Proof/Machine/Binary64.lean ====
section
/-! DEFINITION. Binary64.lean: IEEE 754 binary64 as data, with the arithmetic the host-side conversions use, rounding to
nearest with ties to even (R174, R177, D22). The format's own numbers (53 bits, exponents -1074 to 971) are IEEE 754's
(PRESUMED, log 14). Software of the host, not part of the block (R170). -/

namespace Sys2Proof.Machine

/-- A binary64 value. A finite one is `(-1)^neg * mant * 2^exp` with `mant` < 2^53 and `exp` ≥ -1074; below 2^52 the
exponent is -1074 (subnormals and the zeros). -/
inductive Binary64 where
  | finite (neg : Bool) (mant : Nat) (exp : Int)
  | inf (neg : Bool)
  | nan
deriving DecidableEq, Repr

namespace Binary64

/-- The value of the 64 bits of the interchange format. -/
def ofBits (b : BitVec 64) : Binary64 :=
  let sign := b.getLsbD 63
  let e := (b.extractLsb' 52 11).toNat
  let f := (b.extractLsb' 0 52).toNat
  if e = 2047 then (if f = 0 then .inf sign else .nan)
  else if e = 0 then .finite sign f (-1074)
  else .finite sign (2 ^ 52 + f) ((e : Int) - 1075)

/-- The canonical form of a finite value. -/
def canonical : Binary64 → Bool
  | .finite _ m e =>
    decide (m < 2 ^ 53) && decide (-1074 ≤ e) && decide (e ≤ 971) && (decide (2 ^ 52 ≤ m) || decide (e = -1074))
  | .inf _ => true
  | .nan   => true

/-- `p / q` to the nearest integer, a tie to the even one. -/
def nearestEven (p q : Nat) : Nat :=
  let n := p / q
  let r := p % q
  if 2 * r < q then n
  else if q < 2 * r then n + 1
  else if n % 2 = 0 then n else n + 1

/-- `p / q / 2^e` as a quotient of two naturals. -/
def scaleDown (p q : Nat) (e : Int) : Nat × Nat :=
  if 0 ≤ e then (p, q * 2 ^ e.toNat) else (p * 2 ^ (-e).toNat, q)

/-- The exponent `e` for which `p / q / 2^e` lies in [2^52, 2^53), or -1074 where that is larger. -/
def exponentOf (p q : Nat) : Int :=
  let e0 : Int := (p.log2 : Int) - (q.log2 : Int) - 52
  let s := scaleDown p q e0
  max (-1074) (if s.1 < 2 ^ 52 * s.2 then e0 - 1 else e0)

/-- The binary64 nearest to `(-1)^neg * p / q`, `q` not 0. -/
def round (neg : Bool) (p q : Nat) : Binary64 :=
  if p = 0 then .finite neg 0 (-1074)
  else
    let e := exponentOf p q
    let s := scaleDown p q e
    let m := nearestEven s.1 s.2
    let r : Nat × Int := if m = 2 ^ 53 then (2 ^ 52, e + 1) else (m, e)
    if 971 < r.2 then .inf neg else .finite neg r.1 r.2

/-- A natural number as a binary64. -/
def ofNat (n : Nat) : Binary64 := round false n 1

/-- `(-1)^neg * mant`. -/
def signed (neg : Bool) (mant : Nat) : Int := if neg then -(mant : Int) else mant

/-- `x * 2^k` for the common exponent `k` of two values. -/
def alignTo (k : Int) (neg : Bool) (mant : Nat) (exp : Int) : Int := signed neg mant * 2 ^ (exp - k).toNat

/-- `n * 2^k`, rounded. -/
def roundInt (n : Int) (k : Int) : Binary64 :=
  if 0 ≤ k then round (decide (n < 0)) (n.natAbs * 2 ^ k.toNat) 1
  else round (decide (n < 0)) n.natAbs (2 ^ (-k).toNat)

/-- Addition. Opposite infinities give NaN; two zeros of one sign keep it. -/
def add : Binary64 → Binary64 → Binary64
  | .nan, _ => .nan
  | _, .nan => .nan
  | .inf a, .inf b => if a = b then .inf a else .nan
  | .inf a, .finite _ _ _ => .inf a
  | .finite _ _ _, .inf b => .inf b
  | .finite a m e, .finite b n f =>
    if m = 0 ∧ n = 0 then .finite (a && b) 0 (-1074)
    else roundInt (alignTo (min e f) a m e + alignTo (min e f) b n f) (min e f)

/-- Multiplication. -/
def mul : Binary64 → Binary64 → Binary64
  | .nan, _ => .nan
  | _, .nan => .nan
  | .inf a, .inf b => .inf (a != b)
  | .inf a, .finite b n _ => if n = 0 then .nan else .inf (a != b)
  | .finite a m _, .inf b => if m = 0 then .nan else .inf (a != b)
  | .finite a m e, .finite b n f =>
    let s := scaleDown (m * n) 1 (-(e + f))
    round (a != b) s.1 s.2

/-- Division. -/
def div : Binary64 → Binary64 → Binary64
  | .nan, _ => .nan
  | _, .nan => .nan
  | .inf _, .inf _ => .nan
  | .inf a, .finite b _ _ => .inf (a != b)
  | .finite a _ _, .inf b => .finite (a != b) 0 (-1074)
  | .finite a m e, .finite b n f =>
    if n = 0 then (if m = 0 then .nan else .inf (a != b))
    else
      let s := scaleDown m n (f - e)
      round (a != b) s.1 s.2

/-- The order of two finite values or infinities; false where one is NaN. -/
def lt : Binary64 → Binary64 → Bool
  | .nan, _ => false
  | _, .nan => false
  | .inf a, .inf b => a && !b
  | .inf a, .finite _ _ _ => a
  | .finite _ _ _, .inf b => !b
  | .finite a m e, .finite b n f => decide (alignTo (min e f) a m e < alignTo (min e f) b n f)

/-- `trunc`: toward zero (R176). A NaN has no such value: free (log 15), and so has an infinity. -/
def trunc : Binary64 → Int
  | .finite neg m e =>
    let s := scaleDown m 1 (-e)
    signed neg (s.1 / s.2)
  | .inf _ => Config.truncOfNaN
  | .nan   => Config.truncOfNaN

end Binary64

end Sys2Proof.Machine
end

