-- ==== Sys2Proof/Machine/Script.lean ====
section
/-! DEFINITION. Script.lean: host programs in the notation of R91, line by line, and the pseudo-instructions of R92. -/

namespace Sys2Proof.Machine

/-- One line of a host program (R91). -/
inductive Line where
  | w (a : HostAddr) (v : Word)
  | r (a : HostAddr)
  | rx (bs : List Byte)
  | tick (n : Nat)
  | rxerr
  | verdict (v : Verdict)
deriving DecidableEq, Repr

/-- The next state handed on; a fault or a refusal stops. -/
def andThen (o : Outcome) (k : State → Outcome) : Outcome :=
  match o with
  | .next s    => k s
  | .fault r   => .fault r
  | .refused r => .refused r

/-- `rx` events, one a byte, in order. -/
def rxAll : List Byte → State → Outcome
  | [],      s => .next s
  | b :: bs, s => andThen (deliver (.rx b) s) (rxAll bs)

/-- `n` `tick` events. -/
def ticks : Nat → State → Outcome
  | 0,     s => .next s
  | n + 1, s => andThen (deliver .tick s) (ticks n)

/-- A host write of a program in which an emit that no `@verdict` speaks of is answered `ok` (R91: "default `ok`"). -/
def scriptWrite (a : HostAddr) (v : Word) (s : State) : Outcome :=
  match s.verdict with
  | some _ => memWrite a v s
  | none   => andThen (memWrite a v { s with verdict := some .ok }) fun t => .next { t with verdict := none }

def runLine (l : Line) (s : State) : Outcome :=
  match l with
  | .w a v     => scriptWrite a v s
  | .r a       => hostOpStep (.read a) s
  | .rx bs     => rxAll bs s
  | .tick n    => ticks n s
  | .rxerr     => deliver .rxError s
  | .verdict v => deliver (.verdict v) s

def runLines : List Line → State → Outcome
  | [],      s => .next s
  | l :: ls, s => andThen (runLine l s) (runLines ls)

/-! ### Pseudo-instructions (R92), as operations of the host -/

/-- `W 0x100+i, di` for each data byte. -/
def writeData (i : Nat) : List Byte → List HostOp
  | []      => []
  | d :: ds => .write (BitVec.ofNat 11 (0x100 + i)) (d.setWidth 16) :: writeData (i + 1) ds

/-- `XREAD id, a, c`. -/
def xread (id a c : Byte) : List HostOp :=
  [.write 0x002 (id.setWidth 16), .write 0x003 (a.setWidth 16), .write 0x004 (c.setWidth 16), .write 0x000 0x0001,
    .waitDone]

/-- `XWRITE id, a, [d0..dk-1], n`. -/
def xwrite (id a : Byte) (ds : List Byte) (n : BitVec 9) : List HostOp :=
  [.write 0x002 (id.setWidth 16), .write 0x003 (a.setWidth 16)] ++ writeData 0 ds ++
    [.write 0x005 (BitVec.ofNat 16 ds.length), .write 0x006 (n.setWidth 16), .write 0x000 0x0002, .waitDone]

/-- `XACTION id, n`. -/
def xaction (id : Byte) (n : BitVec 9) : List HostOp :=
  [.write 0x002 (id.setWidth 16), .write 0x006 (n.setWidth 16), .write 0x000 0x0003, .waitDone]

/-- `BUILD op`: `W 0x000, 0x0004 | op`. -/
def buildOnly (op : Op) : List HostOp := [.write 0x000 (buildValue op)]

/-- The six data bytes of a move: position and speed, low byte first, with two zero bytes between (R68, R181). -/
def moveData (p v : Word) : List Byte :=
  [p.extractLsb' 0 8, p.extractLsb' 8 8, 0x00, 0x00, v.extractLsb' 0 8, v.extractLsb' 8 8]

/-- `XMOVE id, p, s`. -/
def xmove (id : Byte) (p v : Word) : List HostOp := xwrite id 42 (moveData p v) 6

end Sys2Proof.Machine
end

