-- ==== Sys2Proof/Machine/HostSide.lean ====
section
/-! DEFINITION. HostSide.lean: the host-side conventions (R170 to R185): the device register map, reading a register,
the motion planner and the error surface. Software around the block, at the block's interface. -/

namespace Sys2Proof.Machine

/-- The device registers the source reads (R171), in its order. -/
inductive DeviceReg where
  | presentPosition
  | presentSpeed
  | presentLoad
  | presentVoltage
  | presentTemperature
  | movingStatus
  | presentCurrent
deriving DecidableEq, Repr

/-- The address column of R171. -/
def DeviceReg.address : DeviceReg → Byte
  | .presentPosition    => 56
  | .presentSpeed       => 58
  | .presentLoad        => 60
  | .presentVoltage     => 62
  | .presentTemperature => 63
  | .movingStatus       => 66
  | .presentCurrent     => 69

/-- The width column of R171, in bytes. -/
def DeviceReg.width : DeviceReg → Nat
  | .presentPosition    => 2
  | .presentSpeed       => 2
  | .presentLoad        => 2
  | .presentVoltage     => 1
  | .presentTemperature => 1
  | .movingStatus       => 1
  | .presentCurrent     => 2

/-- The position+speed write target (R171). -/
def moveTarget : Byte := 42

/-- `LE`: little-endian, unsigned (R173). -/
def littleEndian : List Byte → Nat
  | []      => 0
  | b :: bs => b.toNat + 256 * littleEndian bs

/-- The result of reading a register (R171's result types). -/
inductive RegValue where
  | integer (n : Nat)
  | float (x : Binary64)
  | boolean (b : Bool)
deriving DecidableEq, Repr

/-- `scale(r, raw)`: the correctly rounded `raw / 10` for load and voltage (R174), `raw == 1` for `MOVING_STATUS`
(R175), `raw` elsewhere (R174). -/
def scale (r : DeviceReg) (raw : Nat) : RegValue :=
  match r with
  | .presentPosition    => .integer raw
  | .presentSpeed       => .integer raw
  | .presentLoad        => .float (Binary64.round false raw 10)
  | .presentVoltage     => .float (Binary64.round false raw 10)
  | .presentTemperature => .integer raw
  | .movingStatus       => .boolean (raw == 1)
  | .presentCurrent     => .integer raw

/-- The source's error kinds (R184), with the host-side RangeError (R183). -/
inductive HostError where
  | timeoutError
  | checksumError
  | ioError
  | rangeError
deriving DecidableEq, Repr

/-- From the block's `ERR` to the source's error kinds (R184): `OK` and `ARG` have none. -/
def errorKind : ErrCode → Option HostError
  | .ok       => none
  | .timeout  => some .timeoutError
  | .checksum => some .checksumError
  | .io       => some .ioError
  | .short    => some .checksumError
  | .arg      => none

/-- What a public operation comes to: a value, an error kind ("Surfaced to the caller", R200; "none are silently
swallowed", R184), or `ARG`, for which R184 names no kind (log 17). -/
inductive CallResult (α : Type) where
  | value (a : α)
  | raised (e : HostError)
  | noKind
deriving DecidableEq, Repr

/-- The error surface (R184): `a` where the block's `ERR` is `OK`, else the error kind of `ERR`. -/
def callResult {α : Type} (a : α) (err : ErrCode) : CallResult α :=
  match err, errorKind err with
  | .ok, _     => .value a
  | _,  some e => .raised e
  | _,  none   => .noKind

/-- What `read(register)` comes to. -/
abbrev ReadResult := CallResult RegValue

/-- What a move comes to: the acknowledgement's contents are discarded (R181), so success carries no value. -/
abbrev MoveResult := CallResult Unit

/-- `R 0x400+i` for the `n` payload bytes from index `i` on. -/
def readPayload (i : Nat) : Nat → List HostOp
  | 0     => []
  | n + 1 => .read (BitVec.ofNat 11 (0x400 + i)) :: readPayload (i + 1) n

/-- The accesses of `read(register)` (R172): `XREAD id, address, width`, then the payload. -/
def readProgram (id : Byte) (r : DeviceReg) : List HostOp :=
  xread id r.address (BitVec.ofNat 8 r.width) ++ readPayload 0 r.width

/-- What the host makes of `ERR` and the payload bytes it read (R172). -/
def interpretRead (r : DeviceReg) (err : ErrCode) (payload : List Byte) : ReadResult :=
  callResult (scale r (littleEndian (payload.take r.width))) err

/-- The bytes of `PAYLOAD[0 ..< n]` as the host reads them. -/
def payloadBytes (s : State) : Nat → List Byte
  | 0     => []
  | n + 1 => payloadBytes s n ++ [(memRead (BitVec.ofNat 11 (0x400 + n)) s).setWidth 8]

/-- The result of `read(register)` in the state in which its transaction has ended. -/
def readResult (r : DeviceReg) (s : State) : ReadResult := interpretRead r s.err (payloadBytes s r.width)

/-! ### Motion planner -/

/-- `clamp(p, 0, 4095)` (R176). -/
def clampPosition (p : Int) : Nat := (min (max p 0) 4095).toNat

/-- `(angle + 90) / 180 * 4096`, each operation in binary64, in this order (R176, R177). -/
def scaledAngle (angle : Binary64) : Binary64 :=
  ((angle.add (Binary64.ofNat 90)).div (Binary64.ofNat 180)).mul (Binary64.ofNat 4096)

/-- -90, the lower end of the angle domain. -/
def minus90 : Binary64 := Binary64.round true 90 1

/-- `angleToPosition(angle)` (R176). -/
def angleToPosition (angle : Binary64) : Except HostError Nat :=
  if angle.lt minus90 || (Binary64.ofNat 90).lt angle then .error .rangeError
  else .ok (clampPosition (scaledAngle angle).trunc)

/-- `validateSpeed(speed)` (R179). -/
def validateSpeed (speed : Int) : Except HostError Unit :=
  if speed < 0 ∨ 2048 < speed then .error .rangeError else .ok ()

/-- `moveTo(position, speed)` (R181). -/
def moveTo (id : Byte) (position speed : Int) : List HostOp :=
  xmove id (BitVec.ofInt 16 position) (BitVec.ofInt 16 speed)

/-- `rotateToPosition(position, speed)` (R180). A failure writes no CSR (R183). -/
def rotateToPosition (id : Byte) (position speed : Int) : Except HostError (List HostOp) :=
  if position < 0 ∨ 4095 < position then .error .rangeError
  else
    match validateSpeed speed with
    | .error e => .error e
    | .ok _    => .ok (moveTo id position speed)

/-- `rotateToAngle(angle, speed)` (R182). -/
def rotateToAngle (id : Byte) (angle : Binary64) (speed : Int) : Except HostError (List HostOp) :=
  match angleToPosition angle, validateSpeed speed with
  | .error e, _     => .error e
  | _,  .error e    => .error e
  | .ok p,   .ok _  => .ok (moveTo id p speed)

/-! ### What a move comes to -/

/-- The result of `moveTo(position, speed)` in the state in which its transaction has ended (R181, R184). -/
def moveResult (s : State) : MoveResult := callResult () s.err

/-- The result of a move that is checked first: the check's error, which no access of the block precedes (R183), else
the result of the transaction that has ended in `s`. -/
def checkedMoveResult (accesses : Except HostError (List HostOp)) (s : State) : MoveResult :=
  match accesses with
  | .error e => .raised e
  | .ok _    => moveResult s

/-- The result of `rotateToPosition(position, speed)` (R180, R184); `s` is where its transaction has ended. -/
def rotateToPositionResult (id : Byte) (position speed : Int) (s : State) : MoveResult :=
  checkedMoveResult (rotateToPosition id position speed) s

/-- The result of `rotateToAngle(angle, speed)` (R182, R184); `s` is where its transaction has ended. -/
def rotateToAngleResult (id : Byte) (angle : Binary64) (speed : Int) (s : State) : MoveResult :=
  checkedMoveResult (rotateToAngle id angle speed) s

end Sys2Proof.Machine
end

