-- ==== Sys2Proof/Safety.lean ====
section
/-! DEFINITION. Safety.lean: the terms claims use: the invariant of a run (R152 and the rules it rests on), what a frame
in `TXFRAME` satisfies, what a finished command records (R202), and which events and states are alike. -/

namespace Sys2Proof.Machine

/-- A byte store in canonical form whose entries lie below `cap`. -/
def Memory.good (m : Memory) (cap : Nat) : Bool := m.wf && m.below cap

/-- What the latched transaction can be (R36, R132): a READ waits for `6 + COUNT` bytes, the others for at most 261. -/
def LatchLegal (s : State) : Prop :=
  s.lN.toNat ≤ maxResp ∧ (s.lValidate = true → s.lN.toNat = 6 + s.lCount.toNat) ∧
    (s.lValidate = false → s.lCount = 0)

/-- What a finished command's outcome records, until the next accepted command (R202). -/
def OutcomeRecorded (s : State) : Prop :=
  match s.err with
  | .ok       => True
  | .timeout  => s.rxcnt = 0 ∧ s.elapsed.toNat = s.cfg.respTicks
  | .checksum => s.lValidate = true ∧ s.rxcnt = s.lN ∧ validate s = false
  | .io       => True
  | .short    => s.lValidate = true ∧ 1 ≤ s.rxcnt.toNat ∧ s.rxcnt.toNat < s.lN.toNat ∧ s.elapsed.toNat = s.cfg.rdTicks
  | .arg      => True

/-- What holds in every state of a run. -/
structure StateInv (s : State) : Prop where
  /-- R7, R32: the configuration is not one a model refuses. -/
  config : s.cfg.accepted = true
  /-- R33: `TXDATA` has indexes 0 to 251. -/
  txdata : s.txdata.good 252 = true
  /-- R34: "`TXFRAME[i]` for i ≥ `TXLEN` reads 0". -/
  txframe : s.txframe.good s.txlen.toNat = true
  /-- R31: 0 from reset, then 6 to 259. -/
  txlen : s.txlen = 0 ∨ 6 ≤ s.txlen.toNat ∧ s.txlen.toNat ≤ maxFrame
  /-- R37: `RXBUF` has indexes 0 to 260. -/
  rxbuf : s.rxbuf.good maxResp = true
  /-- R38: the capacity of `RXQ`. -/
  rxq : s.rxq.length ≤ s.cfg.rxqCap
  latched : LatchLegal s
  /-- R32: `ELAPSED` "never needs to exceed" the larger deadline. -/
  elapsed : s.elapsed.toNat ≤ max s.cfg.respTicks s.cfg.rdTicks
  /-- R152: "in `WAIT`, `RXCNT` = 0". The deadline is not yet reached. -/
  waiting : s.phase = .wait → s.rxcnt = 0 ∧ s.elapsed.toNat < s.cfg.respTicks
  /-- R152: "In `COLLECT`, `RXQ` = [] and `RXCNT` < `L_N`". At least one byte has come. -/
  collecting : s.phase = .collect →
    s.rxq = [] ∧ 1 ≤ s.rxcnt.toNat ∧ s.rxcnt.toNat < s.lN.toNat ∧ s.elapsed.toNat < s.cfg.rdTicks
  /-- R24: in flight there is no outcome yet. -/
  inFlight : s.phase ≠ .idle → s.done = false ∧ s.err = .ok ∧ s.pvalid = false
  /-- R24: a payload shows only after a READ that ended `OK` with a passing checksum. -/
  payload : s.pvalid = true →
    s.phase = .idle ∧ s.done = true ∧ s.err = .ok ∧ s.lValidate = true ∧ s.rxcnt = s.lN ∧ validate s = true
  /-- R24: an error code stands only with `DONE` = 1. -/
  outcome : s.err ≠ .ok → s.done = true
  recorded : OutcomeRecorded s

/-- What R80, R81 and R101 say of the frame in `TXFRAME`, once there is one: header, length byte, checksum. -/
def FrameIntact (s : State) : Prop :=
  s.txlen = 0 ∨
    s.txframe.read 0 = hdr ∧ s.txframe.read 1 = hdr ∧
    (s.txframe.read 3).toNat + 4 = s.txlen.toNat ∧
    ck (s.txframe.slice 2 (s.txlen.toNat - 3)) = s.txframe.read (s.txlen.toNat - 1)

/-- How many `tick` events a list holds. -/
def tickCount : List Event → Nat
  | []      => 0
  | e :: es => (if e = .tick then 1 else 0) + tickCount es

/-- The host's next operation is a write to `CMD`. -/
def commandNext (s : State) : Bool :=
  match s.host with
  | .write a _ :: _ => a == 0
  | _               => false

/-- `s` with the operand registers of `o` (R72: "`ID`, `ADDR`, `COUNT`, `DLEN`, `TXDATA`, `ACKLEN`"). -/
def withOperands (s o : State) : State :=
  { s with id := o.id, addr := o.addr, count := o.count, dlen := o.dlen, acklen := o.acklen, txdata := o.txdata }

/-- Alike in everything but the operand registers and the values the host has read. -/
def SameTransaction (s t : State) : Prop := { withOperands s t with reads := t.reads } = t

/-- A line of a host program that is no `CMD` write and no `@verdict`. -/
def Line.quiet : Line → Bool
  | .w a _     => a != 0
  | .r _       => true
  | .rx _      => true
  | .tick _    => true
  | .rxerr     => true
  | .verdict _ => false

/-- A line that only the environment takes part in. -/
def Line.environment : Line → Bool
  | .w _ _     => false
  | .r _       => false
  | .rx _      => true
  | .tick _    => true
  | .rxerr     => true
  | .verdict _ => true

/-- `illegal(v)`, from the three conditions of R132 on the bits of `v`. -/
def illegalValue (v : Word) (s : State) : Bool :=
  decide (v.extractLsb' 3 13 ≠ 0 ∨ v.extractLsb' 0 2 = 0) ||
    decide (v.extractLsb' 0 2 = 2 ∧ maxDlen < s.dlen.toNat) ||
    decide (v.getLsbD 2 = false ∧ (v.extractLsb' 0 2 = 2 ∨ v.extractLsb' 0 2 = 3) ∧ maxResp < s.acklen.toNat)

/-- The instruction that `v[1:0]` names in a legal command (R23). -/
def opOfBits (b : BitVec 2) : Op := if b = 1 then .read else if b = 2 then .write else .action

/-- `accept(v)`, line by line from the pseudocode of R131, on the bits of `v` and with no decoder. -/
def acceptFromRule (v : Word) (s : State) : State :=
  let s := { s with done := false, err := .ok, pvalid := false }
  if illegalValue v s then finish .arg s
  else
    let op := opOfBits (v.extractLsb' 0 2)
    let f := buildFrame op s
    let s := { s with txframe := Memory.ofBytes 0 f, txlen := BitVec.ofNat 9 f.length }
    if v.getLsbD 2 then { s with err := .ok, done := true }
    else
      let s := { s with lOp := v.extractLsb' 0 2, lValidate := decide (op = Op.read) }
      let s := { s with lN := if op = Op.read then BitVec.ofNat 9 (6 + s.count.toNat) else s.acklen }
      let s := { s with lCount := if op = Op.read then s.count else 0 }
      let s := { s with rxcnt := 0 }
      let s := { s with rxq := [] }
      let answer := nextVerdict s
      let s := { s with emitted := s.emitted ++ [f], verdict := none }
      if answer = .ioError then finish .io s else { s with elapsed := 0, phase := .wait }

/-- The transition table of R152, with the reset of R230. A `CMD` write is a `host` event. -/
def phaseEdge (e : Event) (p q : Phase) : Bool :=
  match e, p, q with
  | .host,    .idle,    .collect => false
  | .host,    .idle,    _        => true
  | .rx _,    .collect, .idle    => true
  | .rxError, _,        .idle    => true
  | .rxError, _,        _        => false
  | .tick,    .wait,    _        => true
  | .tick,    .collect, .idle    => true
  | .reset,   _,        .idle    => true
  | .reset,   _,        _        => false
  | _,        p,        q        => decide (p = q)

end Sys2Proof.Machine
end

