-- ==== Sys2Proof/Certificates/Slice0/Obligations.lean ====
section
/-! DEFINITION. Obligations.lean: the statements about the model, from the numbered rules of the spec. -/

open Sys2Proof Sys2Proof.Machine

/-! ### Encodings -/

/-- R88: the six command values, with their `OP` and `NOSEND` bits, and no other value is a command. -/
def Obligations.HostCommandValuesDecode : Prop :=
  ∀ (v : Word) (i : Instr),
    decodeHost v = .ok i ↔
      (v, i, v.extractLsb' 0 2, v.getLsbD 2) ∈
        ([(0x0001, .cmdRead, 1, false), (0x0002, .cmdWrite, 2, false), (0x0003, .cmdAction, 3, false),
          (0x0005, .cmdBuildRead, 1, true), (0x0006, .cmdBuildWrite, 2, true), (0x0007, .cmdBuildAction, 3, true)] :
          List (Word × Instr × BitVec 2 × Bool))

/-- R85: which byte names which wire instruction where the codes differ (the model's own check, log 8), the parameters'
defaults, and that a frame's byte 4 is one of them. -/
def Obligations.WireInstructionBytesDecode : Prop :=
  (∀ (c : Config) (b : Byte), c.codesDistinct = true →
    (decodeWire c b = .ok .read ↔ b = 0x02) ∧ (decodeWire c b = .ok .write ↔ b = c.opWrite) ∧
      (decodeWire c b = .ok .action ↔ b = c.opAction) ∧
      (b ≠ 0x02 → b ≠ c.opWrite → b ≠ c.opAction → decodeWire c b = .error .unknownInstr)) ∧
  Config.standard.opWrite = 0x03 ∧ Config.standard.opAction = 0x05 ∧
  ∀ (s : State), (buildFrame .read s)[4]? = some 0x02 ∧ (buildFrame .write s)[4]? = some s.cfg.opWrite ∧
    (buildFrame .action s)[4]? = some s.cfg.opAction

/-- The words of every instruction decode to it (R85, R88), where the codes differ (log 8). -/
def Obligations.DecodeOfEncodeIsTheInstruction : Prop :=
  ∀ (c : Config) (i : Instr), c.codesDistinct = true → decode c (encode c i) = .ok i

/-- R80 to R82, R86: a well-formed command frame at the front of any bytes decodes to itself, every operand kept, and
the decoder ends where the frame ends. -/
def Obligations.CommandFrameDecodesToItself : Prop :=
  ∀ (c : Config) (f : CommandFrame) (tail : List Byte), c.codesDistinct = true → f.wellFormed = true →
    decodeFrame c (encodeFrame c f ++ tail) = .ok (f, tail)

/-- R80 to R82, R86: whatever the frame decoder accepts is the encoding of the well-formed frame it answers. -/
def Obligations.AcceptedBytesAreTheFramesEncoding : Prop :=
  ∀ (c : Config) (bs : List Byte) (f : CommandFrame) (tail : List Byte), decodeFrame c bs = .ok (f, tail) →
    bs = encodeFrame c f ++ tail ∧ f.wellFormed = true

/-! ### The step -/

/-- When the host's next access writes a command to `CMD`, the step is that command at the state that has passed it.
A wire instruction runs inside such a step: `PlacedTableWordRunsNext`, `CommandsRunTheirWireInstruction`. -/
def Obligations.StepRunsTheDecodedInstruction : Prop :=
  ∀ (s : State) (v : Word) (i : Instr) (ops : List HostOp) (es : List Event), s.cfg.accepted = true →
    s.events = .host :: es → s.host = .write 0x000 v :: ops → decode s.cfg (.host v) = .ok i →
    step s = exec i { s with events := es, host := ops }

/-- The word of a table row, placed by `withFetchWord`, is what the very next step runs (the placing is the model's
choice, log 4 and log 6): a command as it is; a wire instruction in `IDLE` inside the acceptance of its `BUILD`, which
has cleared `DONE`, `ERR` and `PVALID` before and sets `DONE` after (R131); in flight that `BUILD` is ignored (R130).
Where R102 never calls the framer, the 8-bit clauses rest on the model's own DESIGN CHOICE of log 5: a WRITE with `DLEN`
above 252 ends `ARG` in the instruction as in its command, and a wire instruction in flight changes nothing. -/
def Obligations.PlacedTableWordRunsNext : Prop :=
  ∀ (s : State) (nbits w : Nat) (i : Instr), s.cfg.accepted = true → s.cfg.opWrite = 0x03 → s.cfg.opAction = 0x05 →
    decodeTableWord nbits w = some i →
    (nbits = 16 → step (s.withFetchWord nbits w) = exec i s) ∧
    (nbits = 8 → s.phase = .idle →
      ∃ u, exec i { s with done := false, err := .ok, pvalid := false } = .next u ∧
        step (s.withFetchWord nbits w) = .next { u with done := true }) ∧
    (nbits = 8 → s.phase ≠ .idle → step (s.withFetchWord nbits w) = exec i s)

/-- R11: nothing changes in a step that no event causes (that such a step stutters is the model's choice, log 7). R7,
R32: which configurations a step refuses; that a `POLL_MS` of 0 is refused too and an `RXQ_CAP` below 261 is not is the
model's choice, log 11. -/
def Obligations.StepNeedsAnEventAndAnAcceptedConfiguration : Prop :=
  (∀ s : State, s.cfg.accepted = true → s.events = [] → step s = .next s) ∧
  (∀ s : State, s.cfg.accepted = false → step s = .refused .badConfiguration) ∧
  ∀ c : Config, c.accepted = true ↔
    0 < c.pollMs ∧ c.pollMs ∣ c.respTimeoutMs ∧ c.pollMs ∣ c.rdTimeoutMs ∧
      1 ≤ c.respTimeoutMs / c.pollMs ∧ c.respTimeoutMs / c.pollMs ≤ 65535 ∧
      1 ≤ c.rdTimeoutMs / c.pollMs ∧ c.rdTimeoutMs / c.pollMs ≤ 65535

/-! ### Checksum and frames -/

/-- R100: the inverted sum, whatever the order of the bytes, its corner cases and its example. -/
def Obligations.ChecksumIsTheInvertedSumInAnyOrder : Prop :=
  (∀ s : List Byte, (ck s).toNat = 255 - (s.map BitVec.toNat).sum % 256) ∧
  (∀ s t : List Byte, s.Perm t → ck s = ck t) ∧
  (∀ s : List Byte, (s.map BitVec.toNat).sum % 256 = 0 → ck s = 0xFF) ∧
  (∀ s : List Byte, (s.map BitVec.toNat).sum % 256 = 255 → ck s = 0x00) ∧
  ck [] = 0xFF ∧ ck [0x01, 0x04, 0x02, 0x38, 0x02] = 0xBE

/-- R101: every built frame passes the checksum it carries, and the validator uses that same checksum. -/
def Obligations.BuiltFramesPassTheirOwnChecksum : Prop :=
  (∀ (op : Op) (s : State), dataTooLong op s = false →
    ck (((buildFrame op s).drop 2).take ((buildFrame op s).length - 3)) =
        (buildFrame op s).getD ((buildFrame op s).length - 1) 0 ∧
      (((buildFrame op s).drop 2).map BitVec.toNat).sum % 256 = 255) ∧
  ∀ s : State, 6 ≤ s.lN.toNat →
    (validate s = true ↔ ((s.rxbuf.slice 2 (s.lN.toNat - 2)).map BitVec.toNat).sum % 256 = 255)

/-- R103: the READ frame, 8 bytes, every operand legal, and the rule's example. -/
def Obligations.ReadFrameBytes : Prop :=
  (∀ s : State,
    buildFrame .read s =
        [0xFF, 0xFF, s.id, 0x04, 0x02, s.addr, s.count, ck [s.id, 0x04, 0x02, s.addr, s.count]] ∧
      (buildFrame .read s).length = 8 ∧ illegalOperands .read false s = false ∧ illegalOperands .read true s = false) ∧
  ∀ s : State, s.id = 1 → s.addr = 56 → s.count = 2 →
    buildFrame .read s = [0xFF, 0xFF, 0x01, 0x04, 0x02, 0x38, 0x02, 0xBE]

/-- R104: the WRITE frame, `7 + DLEN` bytes, its illegal length, the data it does not read, and the rule's example. -/
def Obligations.WriteFrameBytes : Prop :=
  (∀ s : State, s.dlen.toNat ≤ 252 →
    buildFrame .write s =
        [0xFF, 0xFF, s.id, BitVec.ofNat 8 (3 + s.dlen.toNat), s.cfg.opWrite, s.addr] ++
          s.txdata.slice 0 s.dlen.toNat ++
          [ck ([s.id, BitVec.ofNat 8 (3 + s.dlen.toNat), s.cfg.opWrite, s.addr] ++ s.txdata.slice 0 s.dlen.toNat)] ∧
      (buildFrame .write s).length = 7 + s.dlen.toNat) ∧
  (∀ (s : State) (m : Memory), (∀ i < s.dlen.toNat, m.read i = s.txdata.read i) →
    buildFrame .write { s with txdata := m } = buildFrame .write s) ∧
  (∀ (s : State) (nosend : Bool), 252 < s.dlen.toNat → illegalOperands .write nosend s = true) ∧
  ∀ s : State, s.cfg.opWrite = 0x03 → s.id = 1 → s.addr = 42 → s.dlen = 6 →
    s.txdata.slice 0 6 = [0x00, 0x08, 0x00, 0x00, 0xE8, 0x03] →
    buildFrame .write s = [0xFF, 0xFF, 0x01, 0x09, 0x03, 0x2A, 0x00, 0x08, 0x00, 0x00, 0xE8, 0x03, 0xD5]

/-- R105: the ACTION frame, 6 bytes, only `ID` used, and the rule's examples. -/
def Obligations.ActionFrameBytes : Prop :=
  (∀ s : State,
    buildFrame .action s = [0xFF, 0xFF, s.id, 0x02, s.cfg.opAction, ck [s.id, 0x02, s.cfg.opAction]] ∧
      (buildFrame .action s).length = 6) ∧
  (∀ (s : State) (addr count dlen : Byte) (m : Memory),
    buildFrame .action { s with addr := addr, count := count, dlen := dlen, txdata := m } = buildFrame .action s) ∧
  (∀ s : State, s.cfg.opAction = 0x05 → s.id = 1 → buildFrame .action s = [0xFF, 0xFF, 0x01, 0x02, 0x05, 0xF7]) ∧
  ∀ s : State, s.cfg.opAction = 0x05 → s.id = 0xF9 → buildFrame .action s = [0xFF, 0xFF, 0xF9, 0x02, 0x05, 0xFF]

/-- R81: `LEN = P + 2`, the frame is `LEN + 4 = P + 6` bytes, `LEN` fits its byte, the bounds, the shortest frame. -/
def Obligations.LengthByteFitsTheFrame : Prop :=
  (∀ (op : Op) (s : State), dataTooLong op s = false →
    ((buildFrame op s).getD 3 0).toNat = (frameOf op s).body.params.length + 2 ∧
      (buildFrame op s).length = ((buildFrame op s).getD 3 0).toNat + 4 ∧
      (buildFrame op s).length = (frameOf op s).body.params.length + 6 ∧
      (frameOf op s).body.params.length ≤ 253 ∧ 6 ≤ (buildFrame op s).length ∧ (buildFrame op s).length ≤ 259) ∧
  ∀ s : State, (frameOf .action s).body.params = [] ∧ (buildFrame .action s).length = 6

/-- R106: after every accepted legal command, sending or build-only, `TXFRAME` and `TXLEN` read as the built frame at
the host port, and 0 beyond it. -/
def Obligations.AcceptedCommandStoresItsFrame : Prop :=
  ∀ (op : Op) (nosend : Bool) (s : State), s.phase = .idle → illegalOperands op nosend s = false →
    (command op nosend s).txlen.toNat = (buildFrame op s).length ∧
    ∀ i : Nat, i ≤ 258 →
      (command op nosend s).txframe.read i = (buildFrame op s).getD i 0 ∧
        ((buildFrame op s).length ≤ i → (command op nosend s).txframe.read i = 0) ∧
        memRead (BitVec.ofNat 11 (0x200 + i)) (command op nosend s) = ((buildFrame op s).getD i 0).setWidth 16

/-! ### The instructions -/

/-- READ, WRITE and ACTION (R102 to R106): in `IDLE` they store their frame and change nothing else. That they change
nothing while busy, and that WRITE data too long for a frame ends `ARG` in the instruction too, is the model's choice
(log 5): no acceptance step calls them so. -/
def Obligations.WireInstructionsStoreTheirFrame : Prop :=
  (∀ s : State, s.phase = .idle →
    exec .read s = .next { s with
      txframe := Memory.ofBytes 0 (buildFrame .read s), txlen := BitVec.ofNat 9 (buildFrame .read s).length }) ∧
  (∀ s : State, s.phase = .idle → s.dlen.toNat ≤ 252 →
    exec .write s = .next { s with
      txframe := Memory.ofBytes 0 (buildFrame .write s), txlen := BitVec.ofNat 9 (buildFrame .write s).length }) ∧
  (∀ s : State, s.phase = .idle →
    exec .action s = .next { s with
      txframe := Memory.ofBytes 0 (buildFrame .action s), txlen := BitVec.ofNat 9 (buildFrame .action s).length }) ∧
  (∀ s : State, s.phase ≠ .idle → exec .read s = .next s ∧ exec .write s = .next s ∧ exec .action s = .next s) ∧
  ∀ s : State, s.phase = .idle → 252 < s.dlen.toNat →
    exec .write s = .next { s with rxq := [], err := .arg, pvalid := false, done := true }

/-- CMD_READ in `IDLE` (R131, R135): the state it leaves, for either answer of the transport. -/
def Obligations.CmdReadCompletes : Prop :=
  ∀ (s : State) (f : List Byte), s.phase = .idle →
    f = [0xFF, 0xFF, s.id, 0x04, 0x02, s.addr, s.count, ck [s.id, 0x04, 0x02, s.addr, s.count]] →
    (nextVerdict s = .ok → exec .cmdRead s = .next { s with
      done := false, err := .ok, pvalid := false, txframe := Memory.ofBytes 0 f, txlen := 8,
      lOp := 1, lValidate := true, lN := BitVec.ofNat 9 (6 + s.count.toNat), lCount := s.count, rxcnt := 0, rxq := [],
      emitted := s.emitted ++ [f], verdict := none, elapsed := 0, phase := .wait }) ∧
    (nextVerdict s = .ioError → exec .cmdRead s = .next { s with
      done := true, err := .io, pvalid := false, txframe := Memory.ofBytes 0 f, txlen := 8,
      lOp := 1, lValidate := true, lN := BitVec.ofNat 9 (6 + s.count.toNat), lCount := s.count, rxcnt := 0, rxq := [],
      emitted := s.emitted ++ [f], verdict := none })

/-- CMD_WRITE in `IDLE` (R131, R132, R136): the state it leaves, for either answer of the transport, and its `ARG`. -/
def Obligations.CmdWriteCompletes : Prop :=
  ∀ (s : State) (f : List Byte), s.phase = .idle →
    f = [0xFF, 0xFF, s.id, BitVec.ofNat 8 (3 + s.dlen.toNat), s.cfg.opWrite, s.addr] ++
      s.txdata.slice 0 s.dlen.toNat ++
      [ck ([s.id, BitVec.ofNat 8 (3 + s.dlen.toNat), s.cfg.opWrite, s.addr] ++ s.txdata.slice 0 s.dlen.toNat)] →
    (s.dlen.toNat ≤ 252 → s.acklen.toNat ≤ 261 → nextVerdict s = .ok → exec .cmdWrite s = .next { s with
      done := false, err := .ok, pvalid := false, txframe := Memory.ofBytes 0 f,
      txlen := BitVec.ofNat 9 (7 + s.dlen.toNat),
      lOp := 2, lValidate := false, lN := s.acklen, lCount := 0, rxcnt := 0, rxq := [],
      emitted := s.emitted ++ [f], verdict := none, elapsed := 0, phase := .wait }) ∧
    (s.dlen.toNat ≤ 252 → s.acklen.toNat ≤ 261 → nextVerdict s = .ioError → exec .cmdWrite s = .next { s with
      done := true, err := .io, pvalid := false, txframe := Memory.ofBytes 0 f,
      txlen := BitVec.ofNat 9 (7 + s.dlen.toNat),
      lOp := 2, lValidate := false, lN := s.acklen, lCount := 0, rxcnt := 0, rxq := [],
      emitted := s.emitted ++ [f], verdict := none }) ∧
    (252 < s.dlen.toNat ∨ 261 < s.acklen.toNat → exec .cmdWrite s = .next { s with
      done := true, err := .arg, pvalid := false, rxq := [] })

/-- CMD_ACTION in `IDLE` (R131, R132, R137): the state it leaves, for either answer of the transport, and its `ARG`. -/
def Obligations.CmdActionCompletes : Prop :=
  ∀ (s : State) (f : List Byte), s.phase = .idle →
    f = [0xFF, 0xFF, s.id, 0x02, s.cfg.opAction, ck [s.id, 0x02, s.cfg.opAction]] →
    (s.acklen.toNat ≤ 261 → nextVerdict s = .ok → exec .cmdAction s = .next { s with
      done := false, err := .ok, pvalid := false, txframe := Memory.ofBytes 0 f, txlen := 6,
      lOp := 3, lValidate := false, lN := s.acklen, lCount := 0, rxcnt := 0, rxq := [],
      emitted := s.emitted ++ [f], verdict := none, elapsed := 0, phase := .wait }) ∧
    (s.acklen.toNat ≤ 261 → nextVerdict s = .ioError → exec .cmdAction s = .next { s with
      done := true, err := .io, pvalid := false, txframe := Memory.ofBytes 0 f, txlen := 6,
      lOp := 3, lValidate := false, lN := s.acklen, lCount := 0, rxcnt := 0, rxq := [],
      emitted := s.emitted ++ [f], verdict := none }) ∧
    (261 < s.acklen.toNat → exec .cmdAction s = .next { s with
      done := true, err := .arg, pvalid := false, rxq := [] })

/-- The build-only commands in `IDLE` (R138 to R140): frame, `TXLEN`, `DONE` and `ERR`, nothing else, whatever `ACKLEN`
is; CMD_BUILD_WRITE with `DLEN` > 252 ends `ARG` with `RXQ` flushed. -/
def Obligations.BuildOnlyCommandsComplete : Prop :=
  (∀ s : State, s.phase = .idle →
    exec .cmdBuildRead s = .next { s with
      txframe := Memory.ofBytes 0
        [0xFF, 0xFF, s.id, 0x04, 0x02, s.addr, s.count, ck [s.id, 0x04, 0x02, s.addr, s.count]],
      txlen := 8, err := .ok, done := true, pvalid := false }) ∧
  (∀ s : State, s.phase = .idle → s.dlen.toNat ≤ 252 →
    exec .cmdBuildWrite s = .next { s with
      txframe := Memory.ofBytes 0
        ([0xFF, 0xFF, s.id, BitVec.ofNat 8 (3 + s.dlen.toNat), s.cfg.opWrite, s.addr] ++
          s.txdata.slice 0 s.dlen.toNat ++
          [ck ([s.id, BitVec.ofNat 8 (3 + s.dlen.toNat), s.cfg.opWrite, s.addr] ++ s.txdata.slice 0 s.dlen.toNat)]),
      txlen := BitVec.ofNat 9 (7 + s.dlen.toNat), err := .ok, done := true, pvalid := false }) ∧
  (∀ s : State, s.phase = .idle → 252 < s.dlen.toNat →
    exec .cmdBuildWrite s = .next { s with err := .arg, done := true, pvalid := false, rxq := [] }) ∧
  ∀ s : State, s.phase = .idle →
    exec .cmdBuildAction s = .next { s with
      txframe := Memory.ofBytes 0 [0xFF, 0xFF, s.id, 0x02, s.cfg.opAction, ck [s.id, 0x02, s.cfg.opAction]],
      txlen := 6, err := .ok, done := true, pvalid := false }

/-- R130: a `CMD` write of any value while `BUSY` = 1 changes no state, and every command leaves a busy state alone. -/
def Obligations.BusyIgnoresEveryCommand : Prop :=
  (∀ (s : State) (v : Word), s.phase ≠ .idle → memWrite 0x000 v s = .next s) ∧
  ∀ s : State, s.phase ≠ .idle →
    exec .cmdRead s = .next s ∧ exec .cmdWrite s = .next s ∧ exec .cmdAction s = .next s ∧
      exec .cmdBuildRead s = .next s ∧ exec .cmdBuildWrite s = .next s ∧ exec .cmdBuildAction s = .next s

/-- R131: a `CMD` write of any value in `IDLE` is `accept(v)` as the rule's pseudocode has it on the bits of `v`. -/
def Obligations.CommandWriteIsTheAcceptOfTheRule : Prop :=
  ∀ (s : State) (v : Word), s.phase = .idle → memWrite 0x000 v s = .next (acceptFromRule v s)

/-- R132: `illegal(v)` ends `ARG` with `RXQ` flushed and the rest unchanged; nothing else ends `ARG`. -/
def Obligations.ExactlyTheIllegalCommandsEndArg : Prop :=
  ∀ (s : State) (v : Word), s.phase = .idle →
    (illegalValue v s = true →
      memWrite 0x000 v s = .next { s with done := true, err := .arg, pvalid := false, rxq := [] }) ∧
    (illegalValue v s = false → ∃ t, memWrite 0x000 v s = .next t ∧ t.err ≠ .arg)

/-- R89: which values are illegal commands, and what each does in `IDLE`. -/
def Obligations.EveryOtherCmdValueIsIllegal : Prop :=
  (∀ v : Word, (v = 0x0000 ∨ v = 0x0004 ∨ v.extractLsb' 3 13 ≠ 0) ↔
    v ∉ ([0x0001, 0x0002, 0x0003, 0x0005, 0x0006, 0x0007] : List Word)) ∧
  ∀ (s : State) (v : Word), v ∉ ([0x0001, 0x0002, 0x0003, 0x0005, 0x0006, 0x0007] : List Word) → s.phase = .idle →
    memWrite 0x000 v s = .next { s with done := true, err := .arg, pvalid := false, rxq := [] }

/-! ### The engine -/

/-- R205, R201: what `finish(code)` writes, and the `STATUS` bits it leaves, with the code's number. -/
def Obligations.FinishWritesTheOutcome : Prop :=
  ∀ (code : ErrCode) (s : State),
    finish code s = { s with rxq := [], err := code, pvalid := false, done := true, phase := .idle } ∧
      (statusWord (finish code s)).getLsbD 0 = false ∧ (statusWord (finish code s)).getLsbD 1 = true ∧
      (code, (statusWord (finish code s)).extractLsb' 2 3) ∈
        ([(.ok, 0), (.timeout, 1), (.checksum, 2), (.io, 3), (.short, 4), (.arg, 5)] : List (ErrCode × BitVec 3)) ∧
      (statusWord (finish code s)).getLsbD 5 = false

/-- R141, R142: a byte that comes in `IDLE` or `WAIT` is queued, or dropped at capacity; no other state changes. -/
def Obligations.ArrivingByteIsQueuedOrDropped : Prop :=
  ∀ (b : Byte) (s : State), s.phase = .idle ∨ s.phase = .wait →
    (s.rxq.length < s.cfg.rxqCap → deliver (.rx b) s = .next { s with rxq := s.rxq ++ [b] }) ∧
    (s.cfg.rxqCap ≤ s.rxq.length → deliver (.rx b) s = .next s)

/-- R143, R144, R112: every outcome of a tick in `WAIT`: still waiting, `TIMEOUT`, `COLLECT` with what has come, or the
whole response at once and its check. -/
def Obligations.WaitTickOutcomes : Prop :=
  ∀ s : State, StateInv s → s.phase = .wait →
    (s.rxq = [] → s.elapsed.toNat + 1 < s.cfg.respTicks →
      deliver .tick s = .next { s with elapsed := s.elapsed + 1 }) ∧
    (s.rxq = [] → s.elapsed.toNat + 1 = s.cfg.respTicks →
      deliver .tick s = .next { s with
        elapsed := s.elapsed + 1, err := .timeout, pvalid := false, done := true, phase := .idle }) ∧
    (s.rxq ≠ [] → s.rxq.length < s.lN.toNat →
      deliver .tick s = .next { s with
        phase := .collect, elapsed := 0, rxbuf := s.rxbuf.writeBytes 0 s.rxq, rxq := [],
        rxcnt := BitVec.ofNat 9 s.rxq.length }) ∧
    (s.rxq ≠ [] → s.lN.toNat ≤ s.rxq.length →
      ∀ (buf : Memory) (good : Bool), buf = s.rxbuf.writeBytes 0 (s.rxq.take s.lN.toNat) →
        good = validate { s with rxbuf := buf } →
        deliver .tick s = .next { s with
          phase := .idle, elapsed := 0, rxbuf := buf, rxq := [], rxcnt := s.lN, done := true,
          err := if s.lValidate && !good then .checksum else .ok, pvalid := s.lValidate && good })

/-- R145, R112: a byte in `COLLECT` is stored at `RXBUF[RXCNT]`; the last one brings the check. -/
def Obligations.CollectedByteOutcomes : Prop :=
  ∀ (s : State) (b : Byte), StateInv s → s.phase = .collect →
    (s.rxcnt.toNat + 1 < s.lN.toNat →
      deliver (.rx b) s = .next { s with rxbuf := s.rxbuf.write s.rxcnt.toNat b, rxcnt := s.rxcnt + 1 }) ∧
    (s.rxcnt.toNat + 1 = s.lN.toNat →
      ∀ (buf : Memory) (good : Bool), buf = s.rxbuf.write s.rxcnt.toNat b → good = validate { s with rxbuf := buf } →
        deliver (.rx b) s = .next { s with
          phase := .idle, rxbuf := buf, rxcnt := s.lN, done := true,
          err := if s.lValidate && !good then .checksum else .ok, pvalid := s.lValidate && good })

/-- R146: every outcome of a tick in `COLLECT`: the count goes on, a READ ends `SHORT`, an acknowledgement ends `OK`. -/
def Obligations.CollectTickOutcomes : Prop :=
  ∀ s : State, StateInv s → s.phase = .collect →
    (s.elapsed.toNat + 1 < s.cfg.rdTicks → deliver .tick s = .next { s with elapsed := s.elapsed + 1 }) ∧
    (s.elapsed.toNat + 1 = s.cfg.rdTicks → s.lValidate = true →
      deliver .tick s = .next { s with
        elapsed := s.elapsed + 1, err := .short, pvalid := false, done := true, phase := .idle }) ∧
    (s.elapsed.toNat + 1 = s.cfg.rdTicks → s.lValidate = false →
      deliver .tick s = .next { s with
        elapsed := s.elapsed + 1, err := .ok, pvalid := false, done := true, phase := .idle })

/-- R147, R148: a tick and a read failure change nothing in `IDLE`; elsewhere a read failure is `finish(IO)`. -/
def Obligations.IdleTickAndReadFailure : Prop :=
  ∀ s : State,
    (s.phase = .idle → deliver .tick s = .next s ∧ deliver .rxError s = .next s) ∧
    (s.phase ≠ .idle → deliver .rxError s = .next { s with
      rxq := [], err := .io, pvalid := false, done := true, phase := .idle })

/-- R110, R111: the comparison the validator makes, that nothing but bytes 2 to `L_N-1` decides it, and that any
header, id, `len` and `err` pass with the checksum byte that matches. -/
def Obligations.ValidatorJudgesTheChecksumOnly : Prop :=
  (∀ s : State, 6 ≤ s.lN.toNat →
    (validate s = true ↔ ck (s.rxbuf.slice 2 (s.lN.toNat - 3)) = s.rxbuf.read (s.lN.toNat - 1))) ∧
  (∀ s t : State, 6 ≤ s.lN.toNat → t.lN = s.lN →
    (∀ i, 2 ≤ i → i < s.lN.toNat → t.rxbuf.read i = s.rxbuf.read i) → validate t = validate s) ∧
  ∀ s : State, s.rxbuf.wf = true → 6 ≤ s.lN.toNat →
    validate { s with
      rxbuf := s.rxbuf.write (s.lN.toNat - 1) (ck (s.rxbuf.slice 2 (s.lN.toNat - 3))) } = true

/-- One changed byte among those the checksum covers, itself included, turns a passing READ check into `CHECKSUM` with
no payload (R110, R112; the source's flipped bit, S10). -/
def Obligations.OneChangedByteFailsTheCheck : Prop :=
  ∀ (s : State) (k : Nat) (b : Byte), s.rxbuf.wf = true → s.lValidate = true → 6 ≤ s.lN.toNat → s.lN.toNat ≤ 261 →
    validate s = true → 2 ≤ k → k < s.lN.toNat → b ≠ s.rxbuf.read k →
    check { s with rxbuf := s.rxbuf.write k b } = .next { s with
      rxbuf := s.rxbuf.write k b, rxq := [], err := .checksum, pvalid := false, done := true, phase := .idle }

/-- R230, R231: reset in any state sets the block's state to the values of R45, and an abandoned transaction reports no
outcome. That the parameters stay rests on R234; that the host's operations, the events to come, a fixed verdict, the
values read and the frames emitted stay is the model's choice, log 10. -/
def Obligations.ResetEventRestoresTheResetValues : Prop :=
  ∀ s : State, deliver .reset s = .next { s with
    phase := .idle, done := false, err := .ok, pvalid := false, id := 0, addr := 0, count := 0, dlen := 0, acklen := 6,
    rxcnt := 0, txlen := 0, elapsed := 0, txdata := [], txframe := [], rxbuf := [], lOp := 0, lValidate := false,
    lN := 0, lCount := 0, rxq := [] }

/-- R45: the state after reset, as the host port and the internal state show it. -/
def Obligations.ResetValues : Prop :=
  State.reset.phase = .idle ∧ statusWord State.reset = 0x0000 ∧
  memRead 0x002 State.reset = 0x0000 ∧ memRead 0x003 State.reset = 0x0000 ∧ memRead 0x004 State.reset = 0x0000 ∧
  memRead 0x005 State.reset = 0x0000 ∧ memRead 0x006 State.reset = 0x0006 ∧ memRead 0x007 State.reset = 0x0000 ∧
  memRead 0x008 State.reset = 0x0000 ∧ memRead 0x009 State.reset = 0x0000 ∧
  (∀ i, State.reset.txdata.read i = 0 ∧ State.reset.txframe.read i = 0 ∧ State.reset.rxbuf.read i = 0) ∧
  State.reset.lOp = 0 ∧ State.reset.lValidate = false ∧ State.reset.lN = 0 ∧ State.reset.lCount = 0 ∧
  State.reset.rxq = []

/-! ### The host port -/

/-- R61, R62, R35: what a read of every host address returns, and that it changes nothing but what the host has read. -/
def Obligations.HostReadsFollowTheMap : Prop :=
  (∀ (a : HostAddr) (s : State), hostOpStep (.read a) s = .next { s with reads := s.reads ++ [memRead a s] }) ∧
  ∀ s : State,
    memRead 0x000 s = 0 ∧ memRead 0x001 s = statusWord s ∧ memRead 0x002 s = s.id.setWidth 16 ∧
    memRead 0x003 s = s.addr.setWidth 16 ∧ memRead 0x004 s = s.count.setWidth 16 ∧
    memRead 0x005 s = s.dlen.setWidth 16 ∧ memRead 0x006 s = s.acklen.setWidth 16 ∧
    memRead 0x007 s = s.rxcnt.setWidth 16 ∧ memRead 0x008 s = s.txlen.setWidth 16 ∧ memRead 0x009 s = s.elapsed ∧
    (∀ i, i ≤ 251 → memRead (BitVec.ofNat 11 (0x100 + i)) s = (s.txdata.read i).setWidth 16) ∧
    (∀ i, i ≤ 258 → memRead (BitVec.ofNat 11 (0x200 + i)) s = (s.txframe.read i).setWidth 16) ∧
    (∀ i, i ≤ 254 → memRead (BitVec.ofNat 11 (0x400 + i)) s =
      if s.pvalid = true ∧ i < s.lCount.toNat then (s.rxbuf.read (5 + i)).setWidth 16 else 0) ∧
    ∀ a : HostAddr, (0x00A ≤ a.toNat ∧ a.toNat ≤ 0x0FF) ∨ (0x1FC ≤ a.toNat ∧ a.toNat ≤ 0x1FF) ∨
      (0x303 ≤ a.toNat ∧ a.toNat ≤ 0x3FF) ∨ 0x4FF ≤ a.toNat → memRead a s = 0

/-- R63, R64: what a write of every host address does, in every phase: `CMD` takes the value as a command, and what a
command does is stated above. -/
def Obligations.HostWritesFollowTheMap : Prop :=
  ∀ (v : Word) (s : State),
    (∀ i, decodeHost v = .ok i → memWrite 0x000 v s = exec i s) ∧
    (∀ e, decodeHost v = .error e → memWrite 0x000 v s = .next (illegalCommand s)) ∧
    memWrite 0x002 v s = .next { s with id := v.extractLsb' 0 8 } ∧
    memWrite 0x003 v s = .next { s with addr := v.extractLsb' 0 8 } ∧
    memWrite 0x004 v s = .next { s with count := v.extractLsb' 0 8 } ∧
    memWrite 0x005 v s = .next { s with dlen := v.extractLsb' 0 8 } ∧
    memWrite 0x006 v s = .next { s with acklen := v.extractLsb' 0 9 } ∧
    (∀ i, i ≤ 251 → memWrite (BitVec.ofNat 11 (0x100 + i)) v s =
      .next { s with txdata := s.txdata.write i (v.extractLsb' 0 8) }) ∧
    ∀ a : HostAddr, a.toNat = 0x001 ∨ (0x007 ≤ a.toNat ∧ a.toNat ≤ 0x0FF) ∨ 0x1FC ≤ a.toNat →
      memWrite a v s = .next s

/-- What a host write leaves at every readable location: the written field's own bits at its address, and every other
location as before (R62, R63, R70). -/
def Obligations.PortReadsBackWhatWasWritten : Prop :=
  ∀ (s t : State) (a b : HostAddr) (v : Word), s.txdata.wf = true → a ≠ 0 → memWrite a v s = .next t →
    (b ≠ a → memRead b t = memRead b s) ∧
    ((0x002 ≤ a.toNat ∧ a.toNat ≤ 0x005) ∨ (0x100 ≤ a.toNat ∧ a.toNat ≤ 0x1FB) → memRead a t = v &&& 0x00FF) ∧
    (a.toNat = 0x006 → memRead a t = v &&& 0x01FF) ∧
    (a.toNat = 0x001 ∨ (0x007 ≤ a.toNat ∧ a.toNat ≤ 0x0FF) ∨ 0x1FC ≤ a.toNat → memRead a t = memRead a s)

/-- R24: the fields of `STATUS`, with the numbers of the error codes (R201) and of the phases (R22). -/
def Obligations.StatusWordFields : Prop :=
  ∀ s : State,
    ((statusWord s).getLsbD 0 = true ↔ s.phase ≠ .idle) ∧ (statusWord s).getLsbD 1 = s.done ∧
    (s.err, (statusWord s).extractLsb' 2 3) ∈
      ([(.ok, 0), (.timeout, 1), (.checksum, 2), (.io, 3), (.short, 4), (.arg, 5)] : List (ErrCode × BitVec 3)) ∧
    (statusWord s).getLsbD 5 = s.pvalid ∧
    (s.phase, (statusWord s).extractLsb' 6 2) ∈ ([(.idle, 0), (.wait, 1), (.collect, 2)] : List (Phase × BitVec 2)) ∧
    (statusWord s).extractLsb' 8 8 = 0

/-- A byte store under writes: read after write, the canonical form kept, and equal reads mean equal stores. The sparse
form is the model's own (log 9). -/
def Obligations.ByteStoreLaws : Prop :=
  (∀ (m : Memory) (a : Nat) (b : Byte) (i : Nat), m.wf = true →
    (m.write a b).wf = true ∧ (m.write a b).read i = if i = a then b else m.read i) ∧
  ∀ m k : Memory, m.wf = true → k.wf = true → (∀ i, m.read i = k.read i) → m = k

/-! ### The whole machine -/

/-- R45, R152: the invariant holds after reset. -/
def Obligations.ResetMeetsTheInvariant : Prop := StateInv State.reset ∧ FrameIntact State.reset

/-- R152 and the rules it rests on: every step keeps the invariant. Of R202's records it holds those of `TIMEOUT`,
`CHECKSUM` and `SHORT`. -/
def Obligations.StepKeepsTheInvariant : Prop := ∀ s t : State, StateInv s → step s = .next t → StateInv t

/-- R80, R81, R101, R34: every step keeps the frame in `TXFRAME` a whole frame with its own checksum. -/
def Obligations.StepKeepsTheStoredFrameIntact : Prop :=
  ∀ s t : State, FrameIntact s → step s = .next t → FrameIntact t

/-- From a state of the invariant every step answers a next state: none faults and none is refused. -/
def Obligations.InvariantStatesNeverFault : Prop := ∀ s : State, StateInv s → ∃ t, step s = .next t

/-- R152: `phase` moves along the transition table only. -/
def Obligations.PhaseFollowsTheTransitionTable : Prop :=
  ∀ (s t : State) (e : Event), deliver e s = .next t → phaseEdge e s.phase t.phase = true

/-- R71, R207: after `DONE` = 1 the results stay as they are under every event but a `CMD` write and a reset. -/
def Obligations.OutcomeStaysUntilTheNextCommand : Prop :=
  ∀ (s t : State) (e : Event), s.phase = .idle → s.done = true → e ≠ .reset →
    (e = .host → commandNext s = false) → deliver e s = .next t →
    statusWord t = statusWord s ∧ t.rxcnt = s.rxcnt ∧ t.elapsed = s.elapsed ∧ t.txlen = s.txlen ∧
      t.txframe = s.txframe ∧ t.rxbuf = s.rxbuf ∧ ∀ a : HostAddr, 0x200 ≤ a.toNat → memRead a t = memRead a s

/-- R150, R133: a frame is handed to the transport only by a `CMD` write accepted in `IDLE`, one frame, the one then in
`TXFRAME`. -/
def Obligations.OnlyAnAcceptedCommandEmits : Prop :=
  ∀ (s t : State) (e : Event), deliver e s = .next t →
    t.emitted = s.emitted ∨
      (e = .host ∧ commandNext s = true ∧ s.phase = .idle ∧
        ∃ f, t.emitted = s.emitted ++ [f] ∧ t.txframe = Memory.ofBytes 0 f ∧ t.txlen = BitVec.ofNat 9 f.length)

/-- R115, R136, R137: a WRITE or an ACTION in flight never ends `CHECKSUM` or `SHORT`, and shows no payload. -/
def Obligations.AcknowledgementsAreNotJudged : Prop :=
  ∀ (s t : State) (e : Event), StateInv s → s.phase ≠ .idle → s.lValidate = false → e ≠ .reset → deliver e s = .next t →
    t.err ≠ .checksum ∧ t.err ≠ .short ∧ t.err ≠ .arg ∧ t.pvalid = false ∧
      (t.err = .timeout → s.phase = .wait ∧ s.rxq = [])

/-- R149, R231: in flight, only the engine's own steps and a reset can end a transaction: no host access does. -/
def Obligations.NoHostAccessEndsATransaction : Prop :=
  ∀ (s t : State), s.phase ≠ .idle → hostTurn s = .next t →
    t.phase = s.phase ∧ t.done = s.done ∧ t.err = s.err ∧ t.pvalid = s.pvalid ∧ t.rxcnt = s.rxcnt ∧
      t.elapsed = s.elapsed ∧ t.rxq = s.rxq ∧ t.rxbuf = s.rxbuf ∧ t.lOp = s.lOp ∧ t.lN = s.lN ∧
      t.lValidate = s.lValidate ∧ t.lCount = s.lCount ∧ t.txframe = s.txframe ∧ t.txlen = s.txlen ∧ t.emitted = s.emitted

/-- R72, R236: what the host writes to the operand registers and reads at the port does not reach the transaction: with
and without those accesses, the same environment leaves the same state but for those registers and the read values. -/
def Obligations.OperandWritesDoNotReachTheTransaction : Prop :=
  ∀ (ls : List Line) (s t : State), (∀ l ∈ ls, l.quiet = true) → runLines ls s = .next t →
    ∃ u, runLines (ls.filter Line.environment) s = .next u ∧ SameTransaction u t

/-- R153: from any state in flight, a list of events with at least `RESP_TIMEOUT_TICKS + RD_TIMEOUT_TICKS` ticks in it,
whatever else is in it, brings `IDLE` before it ends. -/
def Obligations.EveryTransactionEnds : Prop :=
  ∀ s : State, StateInv s → s.phase ≠ .idle → s.cfg.respTicks + s.cfg.rdTicks ≤ tickCount s.events →
    ∃ (k : Nat) (t : State), k ≤ s.events.length ∧ Host.Core.run Sys2Proof.core k s = .next t ∧ t.phase = .idle

/-- R154: with no byte, `TIMEOUT` comes at exactly the last tick of the deadline and not before; a byte before the
`j`-th tick brings `COLLECT` at the `j`-th; one after the deadline stays queued in `IDLE`. The `COLLECT` clause is for
`L_N` from 2 on: with `L_N` of 0 or 1 that tick ends the transaction, which `WaitTickOutcomes` says. -/
def Obligations.TimeoutComesAtExactlyTheDeadline : Prop :=
  ∀ (s : State) (b : Byte), StateInv s → s.phase = .wait → s.elapsed = 0 → s.rxq = [] →
    (∀ k es, k < s.cfg.respTicks → s.events = List.replicate k .tick ++ es →
      Host.Core.run Sys2Proof.core k s = .next { s with events := es, elapsed := BitVec.ofNat 16 k }) ∧
    (∀ es, s.events = List.replicate s.cfg.respTicks .tick ++ es →
      Host.Core.run Sys2Proof.core s.cfg.respTicks s = .next { s with
        events := es, elapsed := BitVec.ofNat 16 s.cfg.respTicks, err := .timeout, done := true, phase := .idle }) ∧
    (∀ j es, 1 ≤ j → j ≤ s.cfg.respTicks → 1 ≤ s.cfg.rxqCap → 2 ≤ s.lN.toNat →
      s.events = List.replicate (j - 1) .tick ++ .rx b :: .tick :: es →
      Host.Core.run Sys2Proof.core (j + 1) s = .next { s with
        events := es, elapsed := 0, phase := .collect, rxbuf := s.rxbuf.write 0 b, rxcnt := 1 }) ∧
    (∀ es, 1 ≤ s.cfg.rxqCap → s.events = List.replicate s.cfg.respTicks .tick ++ .rx b :: es →
      Host.Core.run Sys2Proof.core (s.cfg.respTicks + 1) s = .next { s with
        events := es, elapsed := BitVec.ofNat 16 s.cfg.respTicks, err := .timeout, done := true, phase := .idle,
        rxq := [b] })

/-- R112 to R114: a READ's response that comes in two parts, the first before a tick and the rest (if any) after it and
with no other event between its bytes, ends the transaction: `OK` with exactly its payload bytes at the port, in order
and 0 beyond them (R35), if its checksum matches, else `CHECKSUM` with every payload address reading 0. -/
def Obligations.ReadResponseIsDeliveredOrRefused : Prop :=
  ∀ (s : State) (first rest : List Byte), StateInv s → s.phase = .wait → s.rxq = [] → s.lValidate = true →
    first ≠ [] → first.length ≤ s.cfg.rxqCap → (first ++ rest).length = s.lN.toNat →
    ∃ t, andThen (rxAll first s) (fun u => andThen (deliver .tick u) (rxAll rest)) = .next t ∧
      t.phase = .idle ∧ t.done = true ∧ t.rxcnt = s.lN ∧ t.rxq = [] ∧ t.lCount = s.lCount ∧
      (ck (((first ++ rest).drop 2).take (s.lN.toNat - 3)) = (first ++ rest).getD (s.lN.toNat - 1) 0 →
        t.err = .ok ∧ t.pvalid = true ∧
          ∀ i, i ≤ 254 → memRead (BitVec.ofNat 11 (0x400 + i)) t =
            if i < s.lCount.toNat then ((first ++ rest).getD (5 + i) 0).setWidth 16 else 0) ∧
      (ck (((first ++ rest).drop 2).take (s.lN.toNat - 3)) ≠ (first ++ rest).getD (s.lN.toNat - 1) 0 →
        t.err = .checksum ∧ t.pvalid = false ∧
          ∀ i, i ≤ 254 → memRead (BitVec.ofNat 11 (0x400 + i)) t = 0)

/-! ### The host-side conventions -/

/-- R171 to R175, R184: the accesses of `read(register)`, with the addresses and widths of R171, and what it makes of
`ERR` and the payload, for every register and every code. That the payload is read whatever `ERR` is is DEDUCED, log 20.
`ARG` has no kind in R184: that it comes to a result of its own is the model's choice, log 17. The binary64 values of the
rule's two examples are IEEE 754's (log 14). -/
def Obligations.ReadResultFollowsTheOutcome : Prop :=
  (∀ b0 b1 : Byte, littleEndian [b0] = b0.toNat ∧ littleEndian [b0, b1] = b0.toNat + 256 * b1.toNat ∧
    littleEndian [b0, b1] ≤ 65535) ∧
  (∀ (r : DeviceReg) (p : List Byte),
    interpretRead r .timeout p = .raised .timeoutError ∧ interpretRead r .checksum p = .raised .checksumError ∧
    interpretRead r .io p = .raised .ioError ∧ interpretRead r .short p = .raised .checksumError ∧
    interpretRead r .arg p = .noKind) ∧
  (∀ b : Byte, interpretRead .movingStatus .ok [b] = .value (.boolean (decide (b = 1)))) ∧
  (∀ (r : DeviceReg) (p : List Byte), r ≠ .movingStatus → r ≠ .presentLoad → r ≠ .presentVoltage →
    interpretRead r .ok p = .value (.integer (littleEndian (p.take r.width)))) ∧
  (∀ b0 b1 : Byte,
    interpretRead .presentPosition .ok [b0, b1] = .value (.integer (b0.toNat + 256 * b1.toNat)) ∧
    interpretRead .presentSpeed .ok [b0, b1] = .value (.integer (b0.toNat + 256 * b1.toNat)) ∧
    interpretRead .presentCurrent .ok [b0, b1] = .value (.integer (b0.toNat + 256 * b1.toNat)) ∧
    interpretRead .presentTemperature .ok [b0] = .value (.integer b0.toNat) ∧
    interpretRead .presentLoad .ok [b0, b1] = .value (scale .presentLoad (b0.toNat + 256 * b1.toNat)) ∧
    interpretRead .presentVoltage .ok [b0] = .value (scale .presentVoltage b0.toNat)) ∧
  interpretRead .presentLoad .ok [0xFF, 0x00] = .value (.float (Binary64.ofBits 0x4039800000000000)) ∧
  interpretRead .presentVoltage .ok [0x78] = .value (.float (Binary64.ofBits 0x4028000000000000)) ∧
  (∀ (id : Byte) (r : DeviceReg) (a w : Word), (r, a, w) ∈
      ([(.presentPosition, 56, 2), (.presentSpeed, 58, 2), (.presentLoad, 60, 2), (.presentVoltage, 62, 1),
        (.presentTemperature, 63, 1), (.movingStatus, 66, 1), (.presentCurrent, 69, 2)] :
        List (DeviceReg × Word × Word)) →
    readProgram id r =
      [.write 0x002 (id.setWidth 16), .write 0x003 a, .write 0x004 w, .write 0x000 0x0001, .waitDone] ++
        ([.read 0x400, .read 0x401] : List HostOp).take w.toNat) ∧
  ∀ (r : DeviceReg) (s : State),
    readResult r s =
      interpretRead r s.err ([(memRead 0x400 s).setWidth 8, (memRead 0x401 s).setWidth 8].take r.width)

/-- R174: for load and voltage the result is a canonical binary64 value, and none other lies nearer to `raw / 10`. The
numbers of binary64 are PRESUMED, IEEE 754's (log 14). -/
def Obligations.ScaledReadingIsTheNearestQuotient : Prop :=
  ∀ raw : Nat, raw ≤ 65535 →
    ∃ (m : Nat) (e : Int), scale .presentLoad raw = .float (.finite false m e) ∧
      scale .presentVoltage raw = .float (.finite false m e) ∧ (Binary64.finite false m e).canonical = true ∧
      ∀ (n : Nat) (f : Int), (Binary64.finite false n f).canonical = true →
        |(m : ℚ) * 2 ^ e - raw / 10| ≤ |(n : ℚ) * 2 ^ f - raw / 10|

/-- R176, R178: the ends and the middle of the angle mapping, and that it never falls as the angle rises. The numbers
of binary64 are PRESUMED, IEEE 754's (log 14). -/
def Obligations.AngleMappingIsMonotonic : Prop :=
  angleToPosition (Binary64.round true 90 1) = .ok 0 ∧ angleToPosition (Binary64.round false 90 1) = .ok 4095 ∧
  angleToPosition (Binary64.round false 0 1) = .ok 2048 ∧
  ∀ (a b : Bool) (m n : Nat) (e f : Int) (p q : Nat),
    (Binary64.finite a m e).canonical = true → (Binary64.finite b n f).canonical = true →
    (Binary64.finite b n f).lt (Binary64.finite a m e) = false →
    angleToPosition (.finite a m e) = .ok p → angleToPosition (.finite b n f) = .ok q → p ≤ q ∧ q ≤ 4095

/-- R179, R180, R182, R183: the range checks come before any access to the block; inside the ranges the host runs the
move. -/
def Obligations.RangeChecksComeFirst : Prop :=
  (∀ v : Int, (validateSpeed v = .ok () ↔ 0 ≤ v ∧ v ≤ 2048) ∧ (validateSpeed v = .error .rangeError ↔ v < 0 ∨ 2048 < v)) ∧
  (∀ (id : Byte) (p v : Int),
    (0 ≤ p → p ≤ 4095 → 0 ≤ v → v ≤ 2048 → rotateToPosition id p v = .ok (moveTo id p v)) ∧
    (p < 0 ∨ 4095 < p ∨ v < 0 ∨ 2048 < v → rotateToPosition id p v = .error .rangeError)) ∧
  ∀ (id : Byte) (angle : Binary64) (v : Int),
    (∀ p, angleToPosition angle = .ok p → 0 ≤ v → v ≤ 2048 → rotateToAngle id angle v = .ok (moveTo id p v)) ∧
    ((angle.lt (Binary64.round true 90 1) = true ∨ (Binary64.round false 90 1).lt angle = true) ∨ v < 0 ∨ 2048 < v →
      rotateToAngle id angle v = .error .rangeError)

/-- R181, R92: eleven accesses of `moveTo` from `IDLE` hand the transport the move frame and leave the block waiting for
6 bytes. -/
def Obligations.MoveEmitsTheMoveFrame : Prop :=
  ∀ (s : State) (id : Byte) (p v : Nat) (es : List Event), StateInv s → s.phase = .idle → nextVerdict s = .ok →
    p ≤ 4095 → v ≤ 2048 → s.host = moveTo id p v → s.events = List.replicate 11 .host ++ es →
    ∃ t, Host.Core.run Sys2Proof.core 11 s = .next t ∧ t.phase = .wait ∧ t.lN = 6 ∧ t.lValidate = false ∧
      t.host = [.waitDone] ∧ t.events = es ∧
      t.emitted = s.emitted ++
        [[0xFF, 0xFF, id, 0x09, s.cfg.opWrite, 0x2A, BitVec.ofNat 8 (p % 256), BitVec.ofNat 8 (p / 256), 0x00, 0x00,
          BitVec.ofNat 8 (v % 256), BitVec.ofNat 8 (v / 256),
          ck [id, 0x09, s.cfg.opWrite, 0x2A, BitVec.ofNat 8 (p % 256), BitVec.ofNat 8 (p / 256), 0x00, 0x00,
            BitVec.ofNat 8 (v % 256), BitVec.ofNat 8 (v / 256)]]]

/-! ### The wire instructions inside their commands, and what a move comes to -/

/-- R102, R106, R131: every command's frame is that of its wire instruction, run in the acceptance step once `DONE`,
`ERR` and `PVALID` are cleared. That a wire instruction is the framer run inside acceptance is DEDUCED, log 4. With
`DLEN` above 252, where R102 never calls the framer, the first two clauses hold because the model's WRITE then ends
`ARG` as the command does: that is its own DESIGN CHOICE, log 5. A build-only command is the instruction and `DONE`; a legal sending command leaves the
instruction's `TXFRAME` and `TXLEN` and emits that very frame. -/
def Obligations.CommandsRunTheirWireInstruction : Prop :=
  ∀ (s : State) (wire build send : Instr) (op : Op), s.phase = .idle →
    (wire, build, send, op) ∈
      ([(.read, .cmdBuildRead, .cmdRead, .read), (.write, .cmdBuildWrite, .cmdWrite, .write),
        (.action, .cmdBuildAction, .cmdAction, .action)] : List (Instr × Instr × Instr × Op)) →
    ∃ u, exec wire { s with done := false, err := .ok, pvalid := false } = .next u ∧
      exec build s = .next { u with done := true } ∧
      (illegalOperands op false s = false →
        ∃ t, exec send s = .next t ∧ t.txframe = u.txframe ∧ t.txlen = u.txlen ∧
          t.emitted = s.emitted ++ [u.txframe.slice 0 u.txlen.toNat])

/-- R180 to R184: what a move comes to. The outcome table of `moveTo`; the two checked moves, whose range error comes
first; how a move in flight ends under each event; and the move whose emit fails. `ARG` has no kind in R184: its own
result is the model's choice, log 17. -/
def Obligations.MoveResultFollowsTheOutcome : Prop :=
  (∀ s : State,
    (s.err = .ok → moveResult s = .value ()) ∧ (s.err = .timeout → moveResult s = .raised .timeoutError) ∧
    (s.err = .checksum → moveResult s = .raised .checksumError) ∧ (s.err = .io → moveResult s = .raised .ioError) ∧
    (s.err = .short → moveResult s = .raised .checksumError) ∧ (s.err = .arg → moveResult s = .noKind)) ∧
  (∀ (id : Byte) (p v : Int) (s : State),
    (0 ≤ p → p ≤ 4095 → 0 ≤ v → v ≤ 2048 → rotateToPositionResult id p v s = moveResult s) ∧
    (p < 0 ∨ 4095 < p ∨ v < 0 ∨ 2048 < v → rotateToPositionResult id p v s = .raised .rangeError)) ∧
  (∀ (id : Byte) (angle : Binary64) (v : Int) (s : State),
    (∀ p, angleToPosition angle = .ok p → 0 ≤ v → v ≤ 2048 → rotateToAngleResult id angle v s = moveResult s) ∧
    ((angle.lt (Binary64.round true 90 1) = true ∨ (Binary64.round false 90 1).lt angle = true) ∨ v < 0 ∨ 2048 < v →
      rotateToAngleResult id angle v s = .raised .rangeError)) ∧
  (∀ (s t : State) (e : Event), StateInv s → s.phase ≠ .idle → s.lValidate = false → e ≠ .reset →
    deliver e s = .next t → t.phase = .idle →
    moveResult t =
      if e = .rxError then .raised .ioError
      else if s.phase = .wait ∧ s.rxq = [] then .raised .timeoutError
      else .value ()) ∧
  ∀ s : State, s.phase = .idle → s.dlen.toNat ≤ 252 → s.acklen.toNat ≤ 261 → nextVerdict s = .ioError →
    ∃ t, exec .cmdWrite s = .next t ∧ t.phase = .idle ∧ moveResult t = .raised .ioError
end

