-- ==== Sys2Proof/Laws/Binary64.lean ====
section
/-! SUPPORT. Laws/Binary64.lean: what rounding to binary64 does: the exponent it takes, that no canonical value lies
nearer, and that it never falls as the rounded quotient rises. -/

namespace Sys2Proof.Machine.Binary64

/-- The two naturals of `scaleDown` have the quotient `p / q / 2^e`. -/
theorem scaleDown_ratio (p q : Nat) (hq : 0 < q) (e : Int) :
    0 < (scaleDown p q e).2 ∧ ((scaleDown p q e).1 : ℚ) / (scaleDown p q e).2 = (p : ℚ) / q / 2 ^ e := by
  have hq' : (q : ℚ) ≠ 0 := by positivity
  unfold scaleDown
  split
  · next h =>
    refine ⟨by positivity, ?_⟩
    obtain ⟨n, rfl⟩ := Int.eq_ofNat_of_zero_le h
    simp only [Int.toNat_natCast, Nat.cast_mul, Nat.cast_pow, Nat.cast_ofNat, zpow_natCast]
    field_simp
  · next h =>
    refine ⟨hq, ?_⟩
    obtain ⟨n, hn⟩ := Int.eq_ofNat_of_zero_le (show 0 ≤ -e by omega)
    rw [show e = -(n : Int) by omega]
    simp only [neg_neg, Int.toNat_natCast, Nat.cast_mul, Nat.cast_pow, Nat.cast_ofNat, zpow_neg, zpow_natCast]
    field_simp

theorem two_zpow_pos (e : Int) : (0 : ℚ) < 2 ^ e := by positivity

theorem two_zpow_le {a b : Int} (h : a ≤ b) : (2 : ℚ) ^ a ≤ 2 ^ b := zpow_le_zpow_right₀ (by norm_num) h

/-- The exponent of a positive quotient: below 2^53 units, and at least 2^52 units where it is not the smallest. -/
theorem exponentOf_spec (p q : Nat) (hp : 0 < p) (hq : 0 < q) :
    -1074 ≤ exponentOf p q ∧ (p : ℚ) / q < 2 ^ (53 + exponentOf p q) ∧
      (exponentOf p q = -1074 ∨ (2 : ℚ) ^ (52 + exponentOf p q) ≤ (p : ℚ) / q) := by
  have hp0 : p ≠ 0 := by omega
  have hq0 : q ≠ 0 := by omega
  have hqQ : (0 : ℚ) < q := by exact_mod_cast hq
  set lp := p.log2
  set lq := q.log2
  have p1 : (2 : ℚ) ^ (lp : Int) ≤ p := by rw [zpow_natCast]; exact_mod_cast Nat.log2_self_le hp0
  have p2 : (p : ℚ) < 2 ^ ((lp : Int) + 1) := by
    rw [show (lp : Int) + 1 = ((lp + 1 : Nat) : Int) by simp, zpow_natCast]; exact_mod_cast Nat.lt_log2_self
  have q1 : (2 : ℚ) ^ (lq : Int) ≤ q := by rw [zpow_natCast]; exact_mod_cast Nat.log2_self_le hq0
  have q2 : (q : ℚ) < 2 ^ ((lq : Int) + 1) := by
    rw [show (lq : Int) + 1 = ((lq + 1 : Nat) : Int) by simp, zpow_natCast]; exact_mod_cast Nat.lt_log2_self
  set x : ℚ := (p : ℚ) / q with hx
  have up : x < 2 ^ ((lp : Int) - lq + 1) := by
    rw [hx, div_lt_iff₀ hqQ]
    calc (p : ℚ) < 2 ^ ((lp : Int) + 1) := p2
      _ = 2 ^ ((lp : Int) - lq + 1) * 2 ^ (lq : Int) := by rw [← zpow_add₀ (by norm_num)]; congr 1; ring
      _ ≤ 2 ^ ((lp : Int) - lq + 1) * q := by gcongr
  have lo : 2 ^ ((lp : Int) - lq - 1) < x := by
    rw [hx, lt_div_iff₀ hqQ]
    calc (2 : ℚ) ^ ((lp : Int) - lq - 1) * q < 2 ^ ((lp : Int) - lq - 1) * 2 ^ ((lq : Int) + 1) := by gcongr
      _ = 2 ^ (lp : Int) := by rw [← zpow_add₀ (by norm_num)]; congr 1; ring
      _ ≤ p := p1
  set e0 : Int := (lp : Int) - lq - 52 with he0
  obtain ⟨s2, hs⟩ := scaleDown_ratio p q hq e0
  have hs2 : (0 : ℚ) < (scaleDown p q e0).2 := by exact_mod_cast s2
  have htest : (scaleDown p q e0).1 < 2 ^ 52 * (scaleDown p q e0).2 ↔ x < 2 ^ (52 + e0) := by
    rw [← Nat.cast_lt (α := ℚ)]
    push_cast
    rw [← div_lt_iff₀ hs2, hs, div_lt_iff₀ (two_zpow_pos e0), zpow_add₀ (by norm_num)]
    norm_num
    exact Iff.rfl
  have hmain : ∃ d, exponentOf p q = max (-1074) d ∧ x < 2 ^ (53 + d) ∧ (2 : ℚ) ^ (52 + d) ≤ x := by
    by_cases ht : x < 2 ^ (52 + e0)
    · refine ⟨e0 - 1, ?_, ?_, ?_⟩
      · show max (-1074) (if (scaleDown p q e0).1 < 2 ^ 52 * (scaleDown p q e0).2 then e0 - 1 else e0) = _
        rw [if_pos (htest.2 ht)]
      · rwa [show (53 : Int) + (e0 - 1) = 52 + e0 by ring]
      · rw [show (52 : Int) + (e0 - 1) = (lp : Int) - lq - 1 by rw [he0]; ring]; exact lo.le
    · refine ⟨e0, ?_, ?_, not_lt.1 ht⟩
      · show max (-1074) (if (scaleDown p q e0).1 < 2 ^ 52 * (scaleDown p q e0).2 then e0 - 1 else e0) = _
        rw [if_neg (fun h => ht (htest.1 h))]
      · rwa [show (53 : Int) + e0 = (lp : Int) - lq + 1 by rw [he0]; ring]
  obtain ⟨d, hd, h1, h2⟩ := hmain
  rw [hd]
  refine ⟨le_max_left _ _, lt_of_lt_of_le h1 (two_zpow_le (by have := le_max_right (-1074) d; omega)), ?_⟩
  rcases le_total d (-1074) with h | h
  · exact .inl (max_eq_left h)
  · rw [max_eq_right h]; exact .inr h2

/-- `nearestEven` never falls as the quotient rises. -/
theorem nearestEven_mono {a b c d : Nat} (hb : 0 < b) (hd : 0 < d) (h : a * d ≤ c * b) :
    nearestEven a b ≤ nearestEven c d := by
  have e1 := Nat.div_add_mod a b
  have e2 := Nat.div_add_mod c d
  have r1 := Nat.mod_lt a hb
  have r2 := Nat.mod_lt c hd
  unfold nearestEven
  set n := a / b
  set k := c / d
  set r := a % b
  set t := c % d
  have hnk : n ≤ k := by
    by_contra hc
    have h3 : (k + 1) * (b * d) ≤ n * (b * d) := Nat.mul_le_mul_right _ (by omega)
    nlinarith
  rcases Nat.lt_or_ge n k with hlt | hge
  · simp only []
    split_ifs <;> omega
  · have hnk' : n = k := by omega
    rw [hnk'] at e1 ⊢
    have hrt : r * d ≤ t * b := by nlinarith
    have up : b < 2 * r → d < 2 * t := fun h1 => by
      by_contra h2
      have : d * b < d * b := by nlinarith
      omega
    have eq : b ≤ 2 * r → d ≤ 2 * t := fun h1 => by
      by_contra h2
      have h3 : (2 * t + 1) * b ≤ d * b := Nat.mul_le_mul_right _ (by omega)
      have h4 : b * d ≤ (2 * r) * d := Nat.mul_le_mul_right _ h1
      nlinarith
    simp only []
    split_ifs <;> omega

theorem nearestEven_le {a b k : Nat} (hb : 0 < b) (h : a ≤ k * b) : nearestEven a b ≤ k := by
  have := nearestEven_mono (a := a) (b := b) (c := k) (d := 1) hb (by norm_num) (by simpa using h)
  simpa [nearestEven, Nat.mod_one] using this

theorem le_nearestEven {a b k : Nat} (hb : 0 < b) (h : k * b ≤ a) : k ≤ nearestEven a b := by
  have := nearestEven_mono (a := k) (b := 1) (c := a) (d := b) (by norm_num) hb (by simpa using h)
  simpa [nearestEven, Nat.mod_one] using this

/-- No integer lies nearer to the quotient than `nearestEven`. -/
theorem nearestEven_nearest {a b : Nat} (hb : 0 < b) (k : Int) :
    |(nearestEven a b : ℚ) - a / b| ≤ |(k : ℚ) - a / b| := by
  have hbQ : (0 : ℚ) < b := by exact_mod_cast hb
  have e1 := Nat.div_add_mod a b
  have r1 := Nat.mod_lt a hb
  set n := a / b with hn
  set r := a % b with hr
  have hq : (a : ℚ) / b = n + (r : ℚ) / b := by
    rw [eq_comm, ← e1]; push_cast; field_simp
  have hr0 : (0 : ℚ) ≤ (r : ℚ) / b := by positivity
  have hr1 : (r : ℚ) / b < 1 := by rw [div_lt_one hbQ]; exact_mod_cast r1
  have hk : (k : ℚ) ≤ n ∨ (n : ℚ) + 1 ≤ k := by
    rcases le_or_gt k (n : Int) with h | h
    · exact .inl (by exact_mod_cast h)
    · exact .inr (by exact_mod_cast h)
  have lower : ∀ y : ℚ, y ≤ (r : ℚ) / b → y ≤ 1 - (r : ℚ) / b → y ≤ |(k : ℚ) - a / b| := by
    intro y h1 h2
    rw [hq]
    rcases hk with h | h
    · rw [abs_of_nonpos (by linarith)]; linarith
    · rw [abs_of_nonneg (by linarith)]; linarith
  have half : ∀ u v : Nat, u * 2 ≤ v → 0 < v → (u : ℚ) / v ≤ 1 / 2 := fun u v h1 h2 => by
    have : (0 : ℚ) < v := by exact_mod_cast h2
    rw [div_le_div_iff₀ this (by norm_num)]
    have : ((u * 2 : Nat) : ℚ) ≤ v := by exact_mod_cast h1
    push_cast at this
    linarith
  have half' : b ≤ 2 * r → (1 : ℚ) / 2 ≤ (r : ℚ) / b := fun h1 => by
    rw [div_le_div_iff₀ (by norm_num) hbQ]
    have : (b : ℚ) ≤ ((2 * r : Nat) : ℚ) := by exact_mod_cast h1
    push_cast at this
    linarith
  have down : ∀ hle : 2 * r ≤ b, |((n : Nat) : ℚ) - a / b| ≤ |(k : ℚ) - a / b| := fun hle => by
    have := half r b (by omega) hb
    refine lower _ ?_ ?_ <;> rw [hq, abs_of_nonpos (by linarith)] <;> linarith
  have upw : ∀ hle : b ≤ 2 * r, |((n + 1 : Nat) : ℚ) - a / b| ≤ |(k : ℚ) - a / b| := fun hle => by
    have := half' hle
    refine lower _ ?_ ?_ <;> rw [hq] <;> push_cast <;> rw [abs_of_nonneg (by linarith)] <;> linarith
  unfold nearestEven
  simp only []
  split_ifs
  · exact down (by omega)
  · exact upw (by omega)
  · exact down (by omega)
  · exact upw (by omega)

/-- What `round` of a positive quotient is: finite unless it overflows, canonical, and within its exponent's range. -/
theorem round_spec (neg : Bool) (p q : Nat) (hp : 0 < p) (hq : 0 < q) :
    (971 ≤ exponentOf p q) ∨
      ∃ (m : Nat) (e : Int), round neg p q = .finite neg m e ∧ (Binary64.finite neg m e).canonical = true ∧
        (m : ℚ) * 2 ^ e =
          nearestEven (scaleDown p q (exponentOf p q)).1 (scaleDown p q (exponentOf p q)).2 * 2 ^ exponentOf p q := by
  rcases le_or_gt 971 (exponentOf p q) with h | h
  · exact .inl h
  right
  obtain ⟨x1, x2, x3⟩ := exponentOf_spec p q hp hq
  obtain ⟨s2, hs⟩ := scaleDown_ratio p q hq (exponentOf p q)
  have hs2 : (0 : ℚ) < (scaleDown p q (exponentOf p q)).2 := by exact_mod_cast s2
  set e := exponentOf p q
  set s := scaleDown p q e
  have hle : nearestEven s.1 s.2 ≤ 2 ^ 53 := by
    refine nearestEven_le s2 ?_
    rw [← Nat.cast_le (α := ℚ)]
    push_cast
    rw [← div_le_iff₀ hs2, hs, div_le_iff₀ (two_zpow_pos e)]
    rw [zpow_add₀ (by norm_num)] at x2
    have := x2.le
    norm_num at this ⊢
    exact this
  have hge : e = -1074 ∨ 2 ^ 52 ≤ nearestEven s.1 s.2 := by
    refine x3.imp id fun h3 => le_nearestEven s2 ?_
    rw [← Nat.cast_le (α := ℚ)]
    push_cast
    rw [← le_div_iff₀ hs2, hs, le_div_iff₀ (two_zpow_pos e)]
    rw [zpow_add₀ (by norm_num)] at h3
    norm_num at h3 ⊢
    exact h3
  unfold round
  rw [if_neg (by omega)]
  show ∃ m f, (if 971 < (if nearestEven s.1 s.2 = 2 ^ 53 then (2 ^ 52, e + 1) else (nearestEven s.1 s.2, e)).2 then _
    else _) = _ ∧ _
  by_cases h53 : nearestEven s.1 s.2 = 2 ^ 53
  · rw [if_pos h53]
    refine ⟨2 ^ 52, e + 1, by rw [if_neg (by simp; omega)], ?_, ?_⟩
    · simp [canonical]; omega
    · rw [h53, zpow_add₀ (by norm_num)]; push_cast; ring
  · rw [if_neg h53]
    refine ⟨_, e, by rw [if_neg (by simp; omega)], ?_, rfl⟩
    have hlt : nearestEven s.1 s.2 < 2 ^ 53 := lt_of_le_of_ne hle h53
    simp only [canonical, Bool.and_eq_true, Bool.or_eq_true, decide_eq_true_eq]
    exact ⟨⟨⟨hlt, x1⟩, by omega⟩, hge.symm⟩

/-- `round` never falls as the quotient rises, and a quotient that is not huge rounds to a finite value. -/
theorem round_mono (p q p' q' : Nat) (hp : 0 < p) (hq : 0 < q) (hp' : 0 < p') (hq' : 0 < q')
    (h : (p : ℚ) / q ≤ (p' : ℚ) / q') (hb : (p' : ℚ) / q' < 2 ^ (900 : Int)) :
    ∃ (m n : Nat) (e f : Int), round false p q = .finite false m e ∧ round false p' q' = .finite false n f ∧
      (m : ℚ) * 2 ^ e ≤ n * 2 ^ f := by
  obtain ⟨x1, x2, x3⟩ := exponentOf_spec p q hp hq
  obtain ⟨y1, y2, y3⟩ := exponentOf_spec p' q' hp' hq'
  obtain ⟨s2, hs⟩ := scaleDown_ratio p q hq (exponentOf p q)
  obtain ⟨t2, ht⟩ := scaleDown_ratio p' q' hq' (exponentOf p' q')
  have hs2 : (0 : ℚ) < (scaleDown p q (exponentOf p q)).2 := by exact_mod_cast s2
  have ht2 : (0 : ℚ) < (scaleDown p' q' (exponentOf p' q')).2 := by exact_mod_cast t2
  have small : ∀ (a b : Nat), (a : ℚ) / b < 2 ^ (900 : Int) → exponentOf a b = -1074 ∨
      (2 : ℚ) ^ (52 + exponentOf a b) ≤ (a : ℚ) / b → exponentOf a b < 971 := by
    intro a b h1 h2
    rcases h2 with h2 | h2
    · omega
    · by_contra hc
      have := two_zpow_le (show (900 : Int) ≤ 52 + exponentOf a b by omega)
      linarith
  rcases round_spec false p q hp hq with hh | ⟨m, e, r1, -, v1⟩
  · have := small p q (lt_of_le_of_lt h hb) x3; omega
  rcases round_spec false p' q' hp' hq' with hh | ⟨n, f, r2, -, v2⟩
  · have := small p' q' hb y3; omega
  refine ⟨m, n, e, f, r1, r2, ?_⟩
  rw [v1, v2]
  set a := exponentOf p q
  set b := exponentOf p' q'
  have hab : a ≤ b := by
    by_contra hc
    have h1 := x3.resolve_left (by omega)
    have h2 := two_zpow_le (show (53 : Int) + b ≤ 52 + a by omega)
    linarith
  rcases lt_or_eq_of_le hab with hlt | heq
  · have up : nearestEven (scaleDown p q a).1 (scaleDown p q a).2 ≤ 2 ^ 53 := by
      refine nearestEven_le s2 ?_
      rw [← Nat.cast_le (α := ℚ)]
      push_cast
      rw [← div_le_iff₀ hs2, hs, div_le_iff₀ (two_zpow_pos a)]
      rw [zpow_add₀ (by norm_num)] at x2
      have := x2.le
      norm_num at this ⊢
      exact this
    have lo : 2 ^ 52 ≤ nearestEven (scaleDown p' q' b).1 (scaleDown p' q' b).2 := by
      have h3 := y3.resolve_left (by omega)
      refine le_nearestEven t2 ?_
      rw [← Nat.cast_le (α := ℚ)]
      push_cast
      rw [← le_div_iff₀ ht2, ht, le_div_iff₀ (two_zpow_pos b)]
      rw [zpow_add₀ (by norm_num)] at h3
      norm_num at h3 ⊢
      exact h3
    have up' : (nearestEven (scaleDown p q a).1 (scaleDown p q a).2 : ℚ) ≤ 2 ^ 53 := by exact_mod_cast up
    have lo' : (2 : ℚ) ^ 52 ≤ nearestEven (scaleDown p' q' b).1 (scaleDown p' q' b).2 := by exact_mod_cast lo
    have hz := two_zpow_le (show a + 1 ≤ b by omega)
    rw [zpow_add₀ (by norm_num)] at hz
    have pa := two_zpow_pos a
    have pb := two_zpow_pos b
    calc (nearestEven (scaleDown p q a).1 (scaleDown p q a).2 : ℚ) * 2 ^ a ≤ 2 ^ 53 * 2 ^ a := by gcongr
      _ = 2 ^ 52 * (2 ^ a * 2 ^ (1 : Int)) := by norm_num; ring
      _ ≤ 2 ^ 52 * 2 ^ b := by gcongr
      _ ≤ _ := by gcongr
  · rw [← heq] at ht ht2 t2 ⊢
    gcongr
    refine nearestEven_mono s2 t2 ?_
    rw [← Nat.cast_le (α := ℚ)]
    push_cast
    rw [← div_le_div_iff₀ hs2 ht2, hs, ht]
    have := two_zpow_pos a
    gcongr

end Sys2Proof.Machine.Binary64
end

