-- ==== Sys2Proof/Laws/Memory.lean ====
section
/-! SUPPORT. Laws/Memory.lean: what reading and writing a byte store does, and that every operation keeps the
canonical form. -/

namespace Sys2Proof.Machine

/-! ### The canonical form, read as a proposition -/

theorem Memory.wf_iff (m : Memory) : m.wf = true ↔ m.Pairwise (fun x y => x.1 < y.1) ∧ ∀ c ∈ m, c.2 ≠ 0 := by
  simp [Memory.wf, List.all_eq_true]

theorem Memory.below_iff (m : Memory) (cap : Nat) : m.below cap = true ↔ ∀ c ∈ m, c.1 < cap := by
  simp [Memory.below, List.all_eq_true]

theorem Memory.wf_nil : Memory.wf [] = true := by decide

theorem Memory.below_nil (cap : Nat) : Memory.below [] cap = true := rfl

theorem Memory.below_mono {m : Memory} {n k : Nat} (h : m.below n = true) (hk : n ≤ k) : m.below k = true := by
  rw [Memory.below_iff] at *
  exact fun c hc => lt_of_lt_of_le (h c hc) hk

/-! ### Reading -/

@[simp] theorem Memory.read_nil (a : Nat) : Memory.read [] a = 0 := rfl

theorem Memory.read_cons (k : Nat) (v : Byte) (m : Memory) (a : Nat) :
    Memory.read ((k, v) :: m) a = if k = a then v else Memory.read m a := rfl

/-- An index no entry names reads 0. -/
theorem Memory.read_of_not_mem {m : Memory} {a : Nat} (h : ∀ c ∈ m, c.1 ≠ a) : m.read a = 0 := by
  induction m with
  | nil => rfl
  | cons c m ih =>
    obtain ⟨k, v⟩ := c
    rw [Memory.read_cons, if_neg (h (k, v) (by simp)), ih fun d hd => h d (by simp [hd])]

theorem Memory.read_of_below {m : Memory} {cap a : Nat} (h : m.below cap = true) (ha : cap ≤ a) : m.read a = 0 := by
  rw [Memory.below_iff] at h
  exact Memory.read_of_not_mem fun c hc => by have := h c hc; omega

/-- In the canonical form an entry is what its index reads. -/
theorem Memory.read_of_mem {m : Memory} (h : m.wf = true) {k : Nat} {v : Byte} (hc : (k, v) ∈ m) : m.read k = v := by
  rw [Memory.wf_iff] at h
  induction m with
  | nil => simp at hc
  | cons c m ih =>
    obtain ⟨k', v'⟩ := c
    rw [List.pairwise_cons] at h
    rw [Memory.read_cons]
    rcases List.mem_cons.1 hc with e | hm
    · simp_all
    · have hlt := h.1.1 _ hm
      rw [if_neg (by simp at hlt; omega)]
      exact ih ⟨h.1.2, fun c hc => h.2 c (by simp [hc])⟩ hm

/-! ### Writing one byte -/

theorem Memory.mem_insert {m : Memory} {a : Nat} {b : Byte} {c : Host.Cell} (h : c ∈ m.insert a b) :
    c = (a, b) ∨ c ∈ m := by
  induction m with
  | nil => simpa [Memory.insert] using h
  | cons d m ih =>
    obtain ⟨k, v⟩ := d
    simp only [Memory.insert] at h
    split_ifs at h <;> simp only [List.mem_cons] at h ⊢ <;> tauto

theorem Memory.read_insert (m : Memory) (a : Nat) (b : Byte) (i : Nat) (h : m.Pairwise fun x y => x.1 < y.1) :
    (m.insert a b).read i = if a = i then b else m.read i := by
  induction m with
  | nil => rfl
  | cons d m ih =>
    obtain ⟨k, v⟩ := d
    rw [List.pairwise_cons] at h
    simp only [Memory.insert]
    split_ifs with h1 h2 h3 h3 h3 <;> simp only [Memory.read_cons, ih h.2] <;> split_ifs <;> first | rfl | omega

theorem Memory.read_filter (m : Memory) (a i : Nat) :
    Memory.read (m.filter fun c => c.1 != a) i = if a = i then 0 else m.read i := by
  induction m with
  | nil => simp
  | cons d m ih =>
    obtain ⟨k, v⟩ := d
    by_cases hk : k = a
    · subst hk
      rw [List.filter_cons_of_neg (by simp), ih, Memory.read_cons]
      split_ifs <;> rfl
    · rw [List.filter_cons_of_pos (by simpa using hk), Memory.read_cons, Memory.read_cons, ih]
      split_ifs <;> first | rfl | omega

/-- A read after a write: the byte written at its index, the old byte everywhere else. -/
theorem Memory.read_write {m : Memory} (h : m.wf = true) (a : Nat) (b : Byte) (i : Nat) :
    (m.write a b).read i = if a = i then b else m.read i := by
  rw [Memory.wf_iff] at h
  unfold Memory.write
  split
  · next hb => rw [Memory.read_filter, hb]
  · exact Memory.read_insert m a b i h.1

theorem Memory.pairwise_insert {m : Memory} (a : Nat) (b : Byte) (h : m.Pairwise fun x y => x.1 < y.1) :
    (m.insert a b).Pairwise fun x y => x.1 < y.1 := by
  induction m with
  | nil => simp [Memory.insert]
  | cons d m ih =>
    obtain ⟨k, v⟩ := d
    rw [List.pairwise_cons] at h
    simp only [Memory.insert]
    split_ifs with h1 h2
    · refine List.pairwise_cons.2 ⟨?_, List.pairwise_cons.2 h⟩
      intro c hc
      rcases List.mem_cons.1 hc with rfl | hm
      · exact h1
      · exact lt_trans h1 (h.1 c hm)
    · subst h2
      exact List.pairwise_cons.2 h
    · refine List.pairwise_cons.2 ⟨?_, ih h.2⟩
      intro c hc
      rcases Memory.mem_insert hc with rfl | hm
      · show k < a
        omega
      · exact h.1 c hm

/-- A write keeps the canonical form. -/
theorem Memory.wf_write {m : Memory} (h : m.wf = true) (a : Nat) (b : Byte) : (m.write a b).wf = true := by
  rw [Memory.wf_iff] at *
  unfold Memory.write
  split
  · exact ⟨h.1.filter _, fun c hc => h.2 c (List.mem_filter.1 hc).1⟩
  · next hb =>
    refine ⟨Memory.pairwise_insert a b h.1, fun c hc => ?_⟩
    rcases Memory.mem_insert hc with rfl | hm
    · exact hb
    · exact h.2 c hm

theorem Memory.below_write {m : Memory} {cap : Nat} (h : m.below cap = true) {a : Nat} (ha : a < cap) (b : Byte) :
    (m.write a b).below cap = true := by
  rw [Memory.below_iff] at *
  unfold Memory.write
  split
  · exact fun c hc => h c (List.mem_filter.1 hc).1
  · intro c hc
    rcases Memory.mem_insert hc with rfl | hm
    · exact ha
    · exact h c hm

/-! ### Runs of bytes -/

theorem Memory.wf_writeBytes {m : Memory} (h : m.wf = true) (a : Nat) (bs : List Byte) :
    (m.writeBytes a bs).wf = true := by
  induction bs generalizing m a with
  | nil => exact h
  | cons b bs ih => exact ih (Memory.wf_write h a b) (a + 1)

theorem Memory.below_writeBytes {m : Memory} {cap : Nat} (h : m.below cap = true) (a : Nat) (bs : List Byte)
    (ha : a + bs.length ≤ cap) : (m.writeBytes a bs).below cap = true := by
  induction bs generalizing m a with
  | nil => exact h
  | cons b bs ih =>
    simp only [List.length_cons] at ha
    exact ih (Memory.below_write h (by omega) b) (a + 1) (by omega)

/-- After a run of bytes is written from `a` on, index `a + i` reads the `i`-th of them, any other index as before. -/
theorem Memory.read_writeBytes {m : Memory} (h : m.wf = true) (a : Nat) (bs : List Byte) (i : Nat) :
    (m.writeBytes a bs).read i = if a ≤ i ∧ i < a + bs.length then bs.getD (i - a) 0 else m.read i := by
  induction bs generalizing m a with
  | nil =>
    rw [if_neg (by simp)]
    rfl
  | cons b bs ih =>
    show ((m.write a b).writeBytes (a + 1) bs).read i = _
    rw [ih (Memory.wf_write h a b), Memory.read_write h]
    simp only [List.length_cons]
    by_cases hi : a = i
    · subst hi
      simp
    · by_cases hl : a + 1 ≤ i ∧ i < a + 1 + bs.length
      · rw [if_pos hl, if_pos (by omega), show i - a = (i - (a + 1)) + 1 by omega, List.getD_cons_succ]
      · rw [if_neg hl, if_neg hi, if_neg (by omega)]

theorem Memory.mem_ofBytes {a : Nat} {bs : List Byte} {c : Host.Cell} (h : c ∈ Memory.ofBytes a bs) :
    a ≤ c.1 ∧ c.1 < a + bs.length ∧ c.2 ≠ 0 := by
  induction bs generalizing a with
  | nil => simp [Memory.ofBytes] at h
  | cons b bs ih =>
    simp only [Memory.ofBytes, List.length_cons] at h ⊢
    split_ifs at h with hb
    · obtain ⟨h1, h2, h3⟩ := ih h
      exact ⟨by omega, by omega, h3⟩
    · rcases List.mem_cons.1 h with rfl | hm
      · exact ⟨le_rfl, by simp, hb⟩
      · obtain ⟨h1, h2, h3⟩ := ih hm
        exact ⟨by omega, by omega, h3⟩

theorem Memory.read_ofBytes (a : Nat) (bs : List Byte) (i : Nat) :
    (Memory.ofBytes a bs).read i = if a ≤ i then bs.getD (i - a) 0 else 0 := by
  induction bs generalizing a with
  | nil => simp [Memory.ofBytes]
  | cons b bs ih =>
    have hrest : (Memory.ofBytes (a + 1) bs).read i = if a + 1 ≤ i then bs.getD (i - (a + 1)) 0 else 0 := ih (a + 1)
    simp only [Memory.ofBytes]
    by_cases hi : a = i
    · subst hi
      rw [if_neg (by omega)] at hrest
      split_ifs with hb <;> simp_all [Memory.read_cons]
    · have : (if a ≤ i then (b :: bs).getD (i - a) 0 else 0) = if a + 1 ≤ i then bs.getD (i - (a + 1)) 0 else 0 := by
        by_cases hl : a + 1 ≤ i
        · rw [if_pos hl, if_pos (by omega), show i - a = (i - (a + 1)) + 1 by omega, List.getD_cons_succ]
        · rw [if_neg hl, if_neg (by omega)]
      rw [this, ← hrest]
      split_ifs
      · rfl
      · rw [Memory.read_cons, if_neg hi]

theorem Memory.wf_ofBytes (a : Nat) (bs : List Byte) : (Memory.ofBytes a bs).wf = true := by
  rw [Memory.wf_iff]
  refine ⟨?_, fun c hc => (Memory.mem_ofBytes hc).2.2⟩
  induction bs generalizing a with
  | nil => exact List.Pairwise.nil
  | cons b bs ih =>
    simp only [Memory.ofBytes]
    split_ifs
    · exact ih (a + 1)
    · exact List.pairwise_cons.2 ⟨fun c hc => (Memory.mem_ofBytes hc).1, ih (a + 1)⟩

theorem Memory.below_ofBytes (bs : List Byte) : (Memory.ofBytes 0 bs).below bs.length = true := by
  rw [Memory.below_iff]
  intro c hc
  have := Memory.mem_ofBytes hc
  omega

/-- `TXFRAME[i] <- f[i]` below `|f|` and 0 from there on (R106). -/
theorem Memory.read_ofBytes_zero (bs : List Byte) (i : Nat) : (Memory.ofBytes 0 bs).read i = bs.getD i 0 := by
  simp [Memory.read_ofBytes]

@[simp] theorem Memory.length_slice (m : Memory) (a n : Nat) : (m.slice a n).length = n := by
  induction n generalizing a with
  | zero => rfl
  | succ n ih => simp [Memory.slice, ih]

theorem Memory.getElem_slice (m : Memory) (a n i : Nat) (h : i < (m.slice a n).length) :
    (m.slice a n)[i] = m.read (a + i) := by
  induction n generalizing a i with
  | zero => simp [Memory.slice] at h
  | succ n ih =>
    cases i with
    | zero => simp [Memory.slice]
    | succ i =>
      simp only [Memory.slice, List.getElem_cons_succ]
      rw [ih, show a + 1 + i = a + (i + 1) by omega]

/-- A slice is fixed by what the store reads at its indexes. -/
theorem Memory.slice_congr {m k : Memory} {a b n : Nat} (h : ∀ i < n, m.read (a + i) = k.read (b + i)) :
    m.slice a n = k.slice b n := by
  refine List.ext_getElem (by simp) fun i h1 h2 => ?_
  rw [Memory.getElem_slice, Memory.getElem_slice]
  exact h i (by simpa using h1)

/-- A slice of the store that holds a run of bytes is that part of the run. -/
theorem Memory.slice_eq_take_drop {m : Memory} {bs : List Byte} {a n : Nat} (hl : a + n ≤ bs.length)
    (h : ∀ i < n, m.read (a + i) = bs.getD (a + i) 0) : m.slice a n = (bs.drop a).take n := by
  refine List.ext_getElem (by simp; omega) fun i h1 h2 => ?_
  have hi : i < n := by simpa using h1
  rw [Memory.getElem_slice, h i hi]
  simp [List.getD_eq_getElem?_getD, List.getElem?_eq_getElem (show a + i < bs.length by omega)]

end Sys2Proof.Machine
end

