-- ==== Sys2Proof/Laws/Codec.lean ====
section
/-! SUPPORT. Laws/Codec.lean: the checksum as arithmetic modulo 256, the opcode maps, and the shape of built frames. -/

namespace Sys2Proof

/-! ### Checksum -/

theorem byteSum_eq_sum (s : List Byte) : byteSum s = (s.map BitVec.toNat).sum := by
  induction s with
  | nil => rfl
  | cons b s ih => simp [byteSum, ih]

@[simp] theorem byteSum_nil : byteSum [] = 0 := rfl

@[simp] theorem byteSum_cons (b : Byte) (s : List Byte) : byteSum (b :: s) = b.toNat + byteSum s := rfl

@[simp] theorem byteSum_append (s t : List Byte) : byteSum (s ++ t) = byteSum s + byteSum t := by
  simp [byteSum_eq_sum]

theorem ck_toNat (s : List Byte) : (ck s).toNat = 255 - byteSum s % 256 := by
  simp only [ck, BitVec.toNat_ofNat]
  omega

/-- The checksum byte is the one byte that brings the sum to 255 modulo 256. -/
theorem eq_ck_iff (b : Byte) (s : List Byte) : b = ck s ↔ (byteSum s + b.toNat) % 256 = 255 := by
  rw [← BitVec.toNat_inj, ck_toNat]
  have := b.isLt
  omega

theorem ck_congr {s t : List Byte} (h : byteSum s % 256 = byteSum t % 256) : ck s = ck t := by simp [ck, h]

/-! ### The opcode map of the wire -/

theorem opOfByte_opByte {c : Config} (h : c.codesDistinct = true) (op : Op) : opOfByte c (opByte c op) = some op := by
  simp only [Config.codesDistinct, Bool.and_eq_true, bne_iff_ne, ne_eq] at h
  cases op <;> simp [opOfByte, opByte, h]

theorem opByte_of_opOfByte {c : Config} {b : Byte} {op : Op} (h : opOfByte c b = some op) : opByte c op = b := by
  unfold opOfByte at h
  split_ifs at h with h1 h2 h3 <;> cases h <;> simp_all [opByte]

theorem decodeBody_params (body : FrameBody) : decodeBody body.op body.params = .ok body := by
  cases body <;> rfl

theorem decodeBody_ok {op : Op} {ps : List Byte} {body : FrameBody} (h : decodeBody op ps = .ok body) :
    body.op = op ∧ body.params = ps := by
  unfold decodeBody at h
  split at h <;> simp_all <;> subst h <;> simp [FrameBody.op, FrameBody.params]

/-! ### Frames -/

@[simp] theorem length_frameBodyBytes (c : Config) (f : CommandFrame) :
    (frameBodyBytes c f).length = f.body.params.length + 3 := by simp [frameBodyBytes]

/-- "The total frame length is … `P + 6` bytes" (R81). -/
@[simp] theorem length_encodeFrame (c : Config) (f : CommandFrame) :
    (encodeFrame c f).length = f.body.params.length + 6 := by simp [encodeFrame]

theorem params_length_le {f : CommandFrame} (h : f.wellFormed = true) : f.body.params.length ≤ 253 := by
  obtain ⟨id, body⟩ := f
  cases body with
  | read a n => simp [FrameBody.params]
  | write a data =>
    have hl : data.length ≤ maxDlen := by simpa [CommandFrame.wellFormed, FrameBody.wellFormed] using h
    have : maxDlen = 252 := rfl
    simp only [FrameBody.params, List.length_cons]
    omega
  | action => simp [FrameBody.params]

namespace Machine

@[simp] theorem frameOf_op (op : Op) (s : State) : (frameOf op s).body.op = op := by cases op <;> rfl

/-- The frame of a command whose data fits is well formed (R102: "so for WRITE `DLEN` ≤ 252 holds"). -/
theorem frameOf_wellFormed {op : Op} {s : State} (h : dataTooLong op s = false) :
    (frameOf op s).wellFormed = true := by
  cases op <;> simp_all [frameOf, CommandFrame.wellFormed, FrameBody.wellFormed, dataTooLong]

@[simp] theorem length_buildFrame (op : Op) (s : State) :
    (buildFrame op s).length = (frameOf op s).body.params.length + 6 := by simp [buildFrame]

theorem buildFrame_length_le {op : Op} {s : State} (h : dataTooLong op s = false) :
    6 ≤ (buildFrame op s).length ∧ (buildFrame op s).length ≤ 259 := by
  have := params_length_le (frameOf_wellFormed h)
  rw [length_buildFrame]
  omega

/-- What a frame depends on: the parameters and the operand registers. -/
theorem buildFrame_congr {op : Op} {s t : State} (hc : t.cfg = s.cfg) (hi : t.id = s.id) (ha : t.addr = s.addr)
    (hn : t.count = s.count) (hd : t.dlen = s.dlen) (hx : t.txdata = s.txdata) :
    buildFrame op t = buildFrame op s := by
  cases op <;> simp [buildFrame, frameOf, hc, hi, ha, hn, hd, hx]

@[simp] theorem buildFrame_clearOutcome (op : Op) (s : State) : buildFrame op (clearOutcome s) = buildFrame op s :=
  rfl

@[simp] theorem nextVerdict_clearOutcome (s : State) : nextVerdict (clearOutcome s) = nextVerdict s := rfl

@[simp] theorem illegalOperands_clearOutcome (op : Op) (n : Bool) (s : State) :
    illegalOperands op n (clearOutcome s) = illegalOperands op n s := rfl

theorem dataTooLong_of_legal {op : Op} {n : Bool} {s : State} (h : illegalOperands op n s = false) :
    dataTooLong op s = false := by
  simp only [illegalOperands, Bool.or_eq_false_iff] at h
  exact h.1

/-- "For a READ, `6 + COUNT`" (R84): it fits its 9 bits. -/
theorem responseLen_read_toNat (s : State) : (responseLen .read s).toNat = 6 + s.count.toNat := by
  have h : (responseLen .read s).toNat = (6 + s.count.toNat % 512) % 512 := by
    simp [responseLen, BitVec.toNat_add, BitVec.toNat_setWidth]
  omega

theorem responseLen_le {op : Op} {s : State} (h : illegalOperands op false s = false) :
    (responseLen op s).toNat ≤ maxResp := by
  cases op with
  | read =>
    rw [responseLen_read_toNat]
    have := s.count.isLt
    show _ ≤ 261
    omega
  | write =>
    have h2 : ¬ maxResp < s.acklen.toNat := by
      simp only [illegalOperands, ackTooLong, Bool.or_eq_false_iff] at h
      simpa using h.2
    exact not_lt.1 h2
  | action =>
    have h2 : ¬ maxResp < s.acklen.toNat := by
      simp only [illegalOperands, ackTooLong, Bool.or_eq_false_iff] at h
      simpa using h.2
    exact not_lt.1 h2

end Machine

end Sys2Proof
end

