-- ==== Sys2Proof/Laws/State.lean ====
section
/-! SUPPORT. Laws/State.lean: what each shared update of the state leaves in each field. -/

namespace Sys2Proof.Machine

/-! ### `clearOutcome` -/

@[simp] theorem clearOutcome_phase (s : State) : (clearOutcome s).phase = s.phase := rfl
@[simp] theorem clearOutcome_done (s : State) : (clearOutcome s).done = false := rfl
@[simp] theorem clearOutcome_err (s : State) : (clearOutcome s).err = .ok := rfl
@[simp] theorem clearOutcome_pvalid (s : State) : (clearOutcome s).pvalid = false := rfl
@[simp] theorem clearOutcome_id (s : State) : (clearOutcome s).id = s.id := rfl
@[simp] theorem clearOutcome_addr (s : State) : (clearOutcome s).addr = s.addr := rfl
@[simp] theorem clearOutcome_count (s : State) : (clearOutcome s).count = s.count := rfl
@[simp] theorem clearOutcome_dlen (s : State) : (clearOutcome s).dlen = s.dlen := rfl
@[simp] theorem clearOutcome_acklen (s : State) : (clearOutcome s).acklen = s.acklen := rfl
@[simp] theorem clearOutcome_rxcnt (s : State) : (clearOutcome s).rxcnt = s.rxcnt := rfl
@[simp] theorem clearOutcome_txlen (s : State) : (clearOutcome s).txlen = s.txlen := rfl
@[simp] theorem clearOutcome_elapsed (s : State) : (clearOutcome s).elapsed = s.elapsed := rfl
@[simp] theorem clearOutcome_txdata (s : State) : (clearOutcome s).txdata = s.txdata := rfl
@[simp] theorem clearOutcome_txframe (s : State) : (clearOutcome s).txframe = s.txframe := rfl
@[simp] theorem clearOutcome_rxbuf (s : State) : (clearOutcome s).rxbuf = s.rxbuf := rfl
@[simp] theorem clearOutcome_lOp (s : State) : (clearOutcome s).lOp = s.lOp := rfl
@[simp] theorem clearOutcome_lValidate (s : State) : (clearOutcome s).lValidate = s.lValidate := rfl
@[simp] theorem clearOutcome_lN (s : State) : (clearOutcome s).lN = s.lN := rfl
@[simp] theorem clearOutcome_lCount (s : State) : (clearOutcome s).lCount = s.lCount := rfl
@[simp] theorem clearOutcome_rxq (s : State) : (clearOutcome s).rxq = s.rxq := rfl
@[simp] theorem clearOutcome_cfg (s : State) : (clearOutcome s).cfg = s.cfg := rfl
@[simp] theorem clearOutcome_host (s : State) : (clearOutcome s).host = s.host := rfl
@[simp] theorem clearOutcome_events (s : State) : (clearOutcome s).events = s.events := rfl
@[simp] theorem clearOutcome_verdict (s : State) : (clearOutcome s).verdict = s.verdict := rfl
@[simp] theorem clearOutcome_reads (s : State) : (clearOutcome s).reads = s.reads := rfl
@[simp] theorem clearOutcome_emitted (s : State) : (clearOutcome s).emitted = s.emitted := rfl

/-! ### `flush` -/

@[simp] theorem flush_phase (s : State) : (flush s).phase = s.phase := rfl
@[simp] theorem flush_done (s : State) : (flush s).done = s.done := rfl
@[simp] theorem flush_err (s : State) : (flush s).err = s.err := rfl
@[simp] theorem flush_pvalid (s : State) : (flush s).pvalid = s.pvalid := rfl
@[simp] theorem flush_id (s : State) : (flush s).id = s.id := rfl
@[simp] theorem flush_addr (s : State) : (flush s).addr = s.addr := rfl
@[simp] theorem flush_count (s : State) : (flush s).count = s.count := rfl
@[simp] theorem flush_dlen (s : State) : (flush s).dlen = s.dlen := rfl
@[simp] theorem flush_acklen (s : State) : (flush s).acklen = s.acklen := rfl
@[simp] theorem flush_rxcnt (s : State) : (flush s).rxcnt = s.rxcnt := rfl
@[simp] theorem flush_txlen (s : State) : (flush s).txlen = s.txlen := rfl
@[simp] theorem flush_elapsed (s : State) : (flush s).elapsed = s.elapsed := rfl
@[simp] theorem flush_txdata (s : State) : (flush s).txdata = s.txdata := rfl
@[simp] theorem flush_txframe (s : State) : (flush s).txframe = s.txframe := rfl
@[simp] theorem flush_rxbuf (s : State) : (flush s).rxbuf = s.rxbuf := rfl
@[simp] theorem flush_lOp (s : State) : (flush s).lOp = s.lOp := rfl
@[simp] theorem flush_lValidate (s : State) : (flush s).lValidate = s.lValidate := rfl
@[simp] theorem flush_lN (s : State) : (flush s).lN = s.lN := rfl
@[simp] theorem flush_lCount (s : State) : (flush s).lCount = s.lCount := rfl
@[simp] theorem flush_rxq (s : State) : (flush s).rxq = [] := rfl
@[simp] theorem flush_cfg (s : State) : (flush s).cfg = s.cfg := rfl
@[simp] theorem flush_host (s : State) : (flush s).host = s.host := rfl
@[simp] theorem flush_events (s : State) : (flush s).events = s.events := rfl
@[simp] theorem flush_verdict (s : State) : (flush s).verdict = s.verdict := rfl
@[simp] theorem flush_reads (s : State) : (flush s).reads = s.reads := rfl
@[simp] theorem flush_emitted (s : State) : (flush s).emitted = s.emitted := rfl

/-! ### `finish` -/

@[simp] theorem finish_phase (c : ErrCode) (s : State) : (finish c s).phase = .idle := rfl
@[simp] theorem finish_done (c : ErrCode) (s : State) : (finish c s).done = true := rfl
@[simp] theorem finish_err (c : ErrCode) (s : State) : (finish c s).err = c := rfl
@[simp] theorem finish_pvalid (c : ErrCode) (s : State) : (finish c s).pvalid = false := rfl
@[simp] theorem finish_id (c : ErrCode) (s : State) : (finish c s).id = s.id := rfl
@[simp] theorem finish_addr (c : ErrCode) (s : State) : (finish c s).addr = s.addr := rfl
@[simp] theorem finish_count (c : ErrCode) (s : State) : (finish c s).count = s.count := rfl
@[simp] theorem finish_dlen (c : ErrCode) (s : State) : (finish c s).dlen = s.dlen := rfl
@[simp] theorem finish_acklen (c : ErrCode) (s : State) : (finish c s).acklen = s.acklen := rfl
@[simp] theorem finish_rxcnt (c : ErrCode) (s : State) : (finish c s).rxcnt = s.rxcnt := rfl
@[simp] theorem finish_txlen (c : ErrCode) (s : State) : (finish c s).txlen = s.txlen := rfl
@[simp] theorem finish_elapsed (c : ErrCode) (s : State) : (finish c s).elapsed = s.elapsed := rfl
@[simp] theorem finish_txdata (c : ErrCode) (s : State) : (finish c s).txdata = s.txdata := rfl
@[simp] theorem finish_txframe (c : ErrCode) (s : State) : (finish c s).txframe = s.txframe := rfl
@[simp] theorem finish_rxbuf (c : ErrCode) (s : State) : (finish c s).rxbuf = s.rxbuf := rfl
@[simp] theorem finish_lOp (c : ErrCode) (s : State) : (finish c s).lOp = s.lOp := rfl
@[simp] theorem finish_lValidate (c : ErrCode) (s : State) : (finish c s).lValidate = s.lValidate := rfl
@[simp] theorem finish_lN (c : ErrCode) (s : State) : (finish c s).lN = s.lN := rfl
@[simp] theorem finish_lCount (c : ErrCode) (s : State) : (finish c s).lCount = s.lCount := rfl
@[simp] theorem finish_rxq (c : ErrCode) (s : State) : (finish c s).rxq = [] := rfl
@[simp] theorem finish_cfg (c : ErrCode) (s : State) : (finish c s).cfg = s.cfg := rfl
@[simp] theorem finish_host (c : ErrCode) (s : State) : (finish c s).host = s.host := rfl
@[simp] theorem finish_events (c : ErrCode) (s : State) : (finish c s).events = s.events := rfl
@[simp] theorem finish_verdict (c : ErrCode) (s : State) : (finish c s).verdict = s.verdict := rfl
@[simp] theorem finish_reads (c : ErrCode) (s : State) : (finish c s).reads = s.reads := rfl
@[simp] theorem finish_emitted (c : ErrCode) (s : State) : (finish c s).emitted = s.emitted := rfl

/-! ### `storeFrame`, and the framer, which is `storeFrame` of the built frame -/

@[simp] theorem framer_eq (op : Op) (s : State) : framer op s = storeFrame (buildFrame op s) s := rfl

@[simp] theorem storeFrame_phase (f : List Byte) (s : State) : (storeFrame f s).phase = s.phase := rfl
@[simp] theorem storeFrame_done (f : List Byte) (s : State) : (storeFrame f s).done = s.done := rfl
@[simp] theorem storeFrame_err (f : List Byte) (s : State) : (storeFrame f s).err = s.err := rfl
@[simp] theorem storeFrame_pvalid (f : List Byte) (s : State) : (storeFrame f s).pvalid = s.pvalid := rfl
@[simp] theorem storeFrame_id (f : List Byte) (s : State) : (storeFrame f s).id = s.id := rfl
@[simp] theorem storeFrame_addr (f : List Byte) (s : State) : (storeFrame f s).addr = s.addr := rfl
@[simp] theorem storeFrame_count (f : List Byte) (s : State) : (storeFrame f s).count = s.count := rfl
@[simp] theorem storeFrame_dlen (f : List Byte) (s : State) : (storeFrame f s).dlen = s.dlen := rfl
@[simp] theorem storeFrame_acklen (f : List Byte) (s : State) : (storeFrame f s).acklen = s.acklen := rfl
@[simp] theorem storeFrame_rxcnt (f : List Byte) (s : State) : (storeFrame f s).rxcnt = s.rxcnt := rfl
@[simp] theorem storeFrame_txlen (f : List Byte) (s : State) : (storeFrame f s).txlen = BitVec.ofNat 9 f.length := rfl
@[simp] theorem storeFrame_elapsed (f : List Byte) (s : State) : (storeFrame f s).elapsed = s.elapsed := rfl
@[simp] theorem storeFrame_txdata (f : List Byte) (s : State) : (storeFrame f s).txdata = s.txdata := rfl
@[simp] theorem storeFrame_txframe (f : List Byte) (s : State) : (storeFrame f s).txframe = Memory.ofBytes 0 f := rfl
@[simp] theorem storeFrame_rxbuf (f : List Byte) (s : State) : (storeFrame f s).rxbuf = s.rxbuf := rfl
@[simp] theorem storeFrame_lOp (f : List Byte) (s : State) : (storeFrame f s).lOp = s.lOp := rfl
@[simp] theorem storeFrame_lValidate (f : List Byte) (s : State) : (storeFrame f s).lValidate = s.lValidate := rfl
@[simp] theorem storeFrame_lN (f : List Byte) (s : State) : (storeFrame f s).lN = s.lN := rfl
@[simp] theorem storeFrame_lCount (f : List Byte) (s : State) : (storeFrame f s).lCount = s.lCount := rfl
@[simp] theorem storeFrame_rxq (f : List Byte) (s : State) : (storeFrame f s).rxq = s.rxq := rfl
@[simp] theorem storeFrame_cfg (f : List Byte) (s : State) : (storeFrame f s).cfg = s.cfg := rfl
@[simp] theorem storeFrame_host (f : List Byte) (s : State) : (storeFrame f s).host = s.host := rfl
@[simp] theorem storeFrame_events (f : List Byte) (s : State) : (storeFrame f s).events = s.events := rfl
@[simp] theorem storeFrame_verdict (f : List Byte) (s : State) : (storeFrame f s).verdict = s.verdict := rfl
@[simp] theorem storeFrame_reads (f : List Byte) (s : State) : (storeFrame f s).reads = s.reads := rfl
@[simp] theorem storeFrame_emitted (f : List Byte) (s : State) : (storeFrame f s).emitted = s.emitted := rfl

/-! ### `latch` -/

@[simp] theorem latch_phase (op : Op) (s : State) : (latch op s).phase = s.phase := rfl
@[simp] theorem latch_done (op : Op) (s : State) : (latch op s).done = s.done := rfl
@[simp] theorem latch_err (op : Op) (s : State) : (latch op s).err = s.err := rfl
@[simp] theorem latch_pvalid (op : Op) (s : State) : (latch op s).pvalid = s.pvalid := rfl
@[simp] theorem latch_id (op : Op) (s : State) : (latch op s).id = s.id := rfl
@[simp] theorem latch_addr (op : Op) (s : State) : (latch op s).addr = s.addr := rfl
@[simp] theorem latch_count (op : Op) (s : State) : (latch op s).count = s.count := rfl
@[simp] theorem latch_dlen (op : Op) (s : State) : (latch op s).dlen = s.dlen := rfl
@[simp] theorem latch_acklen (op : Op) (s : State) : (latch op s).acklen = s.acklen := rfl
@[simp] theorem latch_rxcnt (op : Op) (s : State) : (latch op s).rxcnt = 0 := rfl
@[simp] theorem latch_txlen (op : Op) (s : State) : (latch op s).txlen = s.txlen := rfl
@[simp] theorem latch_elapsed (op : Op) (s : State) : (latch op s).elapsed = s.elapsed := rfl
@[simp] theorem latch_txdata (op : Op) (s : State) : (latch op s).txdata = s.txdata := rfl
@[simp] theorem latch_txframe (op : Op) (s : State) : (latch op s).txframe = s.txframe := rfl
@[simp] theorem latch_rxbuf (op : Op) (s : State) : (latch op s).rxbuf = s.rxbuf := rfl
@[simp] theorem latch_lOp (op : Op) (s : State) : (latch op s).lOp = op.code := rfl
@[simp] theorem latch_lValidate (op : Op) (s : State) : (latch op s).lValidate = decide (op = .read) := rfl
@[simp] theorem latch_lN (op : Op) (s : State) : (latch op s).lN = responseLen op s := rfl
@[simp] theorem latch_lCount (op : Op) (s : State) : (latch op s).lCount = payloadLen op s := rfl
@[simp] theorem latch_rxq (op : Op) (s : State) : (latch op s).rxq = s.rxq := rfl
@[simp] theorem latch_cfg (op : Op) (s : State) : (latch op s).cfg = s.cfg := rfl
@[simp] theorem latch_host (op : Op) (s : State) : (latch op s).host = s.host := rfl
@[simp] theorem latch_events (op : Op) (s : State) : (latch op s).events = s.events := rfl
@[simp] theorem latch_verdict (op : Op) (s : State) : (latch op s).verdict = s.verdict := rfl
@[simp] theorem latch_reads (op : Op) (s : State) : (latch op s).reads = s.reads := rfl
@[simp] theorem latch_emitted (op : Op) (s : State) : (latch op s).emitted = s.emitted := rfl

/-! ### `emit` -/

@[simp] theorem emit_phase (f : List Byte) (s : State) : (emit f s).phase = s.phase := rfl
@[simp] theorem emit_done (f : List Byte) (s : State) : (emit f s).done = s.done := rfl
@[simp] theorem emit_err (f : List Byte) (s : State) : (emit f s).err = s.err := rfl
@[simp] theorem emit_pvalid (f : List Byte) (s : State) : (emit f s).pvalid = s.pvalid := rfl
@[simp] theorem emit_id (f : List Byte) (s : State) : (emit f s).id = s.id := rfl
@[simp] theorem emit_addr (f : List Byte) (s : State) : (emit f s).addr = s.addr := rfl
@[simp] theorem emit_count (f : List Byte) (s : State) : (emit f s).count = s.count := rfl
@[simp] theorem emit_dlen (f : List Byte) (s : State) : (emit f s).dlen = s.dlen := rfl
@[simp] theorem emit_acklen (f : List Byte) (s : State) : (emit f s).acklen = s.acklen := rfl
@[simp] theorem emit_rxcnt (f : List Byte) (s : State) : (emit f s).rxcnt = s.rxcnt := rfl
@[simp] theorem emit_txlen (f : List Byte) (s : State) : (emit f s).txlen = s.txlen := rfl
@[simp] theorem emit_elapsed (f : List Byte) (s : State) : (emit f s).elapsed = s.elapsed := rfl
@[simp] theorem emit_txdata (f : List Byte) (s : State) : (emit f s).txdata = s.txdata := rfl
@[simp] theorem emit_txframe (f : List Byte) (s : State) : (emit f s).txframe = s.txframe := rfl
@[simp] theorem emit_rxbuf (f : List Byte) (s : State) : (emit f s).rxbuf = s.rxbuf := rfl
@[simp] theorem emit_lOp (f : List Byte) (s : State) : (emit f s).lOp = s.lOp := rfl
@[simp] theorem emit_lValidate (f : List Byte) (s : State) : (emit f s).lValidate = s.lValidate := rfl
@[simp] theorem emit_lN (f : List Byte) (s : State) : (emit f s).lN = s.lN := rfl
@[simp] theorem emit_lCount (f : List Byte) (s : State) : (emit f s).lCount = s.lCount := rfl
@[simp] theorem emit_rxq (f : List Byte) (s : State) : (emit f s).rxq = s.rxq := rfl
@[simp] theorem emit_cfg (f : List Byte) (s : State) : (emit f s).cfg = s.cfg := rfl
@[simp] theorem emit_host (f : List Byte) (s : State) : (emit f s).host = s.host := rfl
@[simp] theorem emit_events (f : List Byte) (s : State) : (emit f s).events = s.events := rfl
@[simp] theorem emit_verdict (f : List Byte) (s : State) : (emit f s).verdict = none := rfl
@[simp] theorem emit_reads (f : List Byte) (s : State) : (emit f s).reads = s.reads := rfl
@[simp] theorem emit_emitted (f : List Byte) (s : State) : (emit f s).emitted = s.emitted ++ [f] := rfl

/-! ### `sendFrame` -/

@[simp] theorem sendFrame_phase (op : Op) (s : State) : (sendFrame op s).phase = s.phase := rfl
@[simp] theorem sendFrame_done (op : Op) (s : State) : (sendFrame op s).done = s.done := rfl
@[simp] theorem sendFrame_err (op : Op) (s : State) : (sendFrame op s).err = s.err := rfl
@[simp] theorem sendFrame_pvalid (op : Op) (s : State) : (sendFrame op s).pvalid = s.pvalid := rfl
@[simp] theorem sendFrame_id (op : Op) (s : State) : (sendFrame op s).id = s.id := rfl
@[simp] theorem sendFrame_addr (op : Op) (s : State) : (sendFrame op s).addr = s.addr := rfl
@[simp] theorem sendFrame_count (op : Op) (s : State) : (sendFrame op s).count = s.count := rfl
@[simp] theorem sendFrame_dlen (op : Op) (s : State) : (sendFrame op s).dlen = s.dlen := rfl
@[simp] theorem sendFrame_acklen (op : Op) (s : State) : (sendFrame op s).acklen = s.acklen := rfl
@[simp] theorem sendFrame_rxcnt (op : Op) (s : State) : (sendFrame op s).rxcnt = 0 := rfl
@[simp] theorem sendFrame_txlen (op : Op) (s : State) : (sendFrame op s).txlen = BitVec.ofNat 9 (buildFrame op s).length := rfl
@[simp] theorem sendFrame_elapsed (op : Op) (s : State) : (sendFrame op s).elapsed = s.elapsed := rfl
@[simp] theorem sendFrame_txdata (op : Op) (s : State) : (sendFrame op s).txdata = s.txdata := rfl
@[simp] theorem sendFrame_txframe (op : Op) (s : State) : (sendFrame op s).txframe = Memory.ofBytes 0 (buildFrame op s) := rfl
@[simp] theorem sendFrame_rxbuf (op : Op) (s : State) : (sendFrame op s).rxbuf = s.rxbuf := rfl
@[simp] theorem sendFrame_lOp (op : Op) (s : State) : (sendFrame op s).lOp = op.code := rfl
@[simp] theorem sendFrame_lValidate (op : Op) (s : State) : (sendFrame op s).lValidate = decide (op = .read) := rfl
@[simp] theorem sendFrame_lN (op : Op) (s : State) : (sendFrame op s).lN = responseLen op s := rfl
@[simp] theorem sendFrame_lCount (op : Op) (s : State) : (sendFrame op s).lCount = payloadLen op s := rfl
@[simp] theorem sendFrame_rxq (op : Op) (s : State) : (sendFrame op s).rxq = [] := rfl
@[simp] theorem sendFrame_cfg (op : Op) (s : State) : (sendFrame op s).cfg = s.cfg := rfl
@[simp] theorem sendFrame_host (op : Op) (s : State) : (sendFrame op s).host = s.host := rfl
@[simp] theorem sendFrame_events (op : Op) (s : State) : (sendFrame op s).events = s.events := rfl
@[simp] theorem sendFrame_verdict (op : Op) (s : State) : (sendFrame op s).verdict = none := rfl
@[simp] theorem sendFrame_reads (op : Op) (s : State) : (sendFrame op s).reads = s.reads := rfl
@[simp] theorem sendFrame_emitted (op : Op) (s : State) : (sendFrame op s).emitted = s.emitted ++ [buildFrame op s] := rfl

/-! ### `countTick` -/

@[simp] theorem countTick_phase (s : State) : (countTick s).phase = s.phase := rfl
@[simp] theorem countTick_done (s : State) : (countTick s).done = s.done := rfl
@[simp] theorem countTick_err (s : State) : (countTick s).err = s.err := rfl
@[simp] theorem countTick_pvalid (s : State) : (countTick s).pvalid = s.pvalid := rfl
@[simp] theorem countTick_id (s : State) : (countTick s).id = s.id := rfl
@[simp] theorem countTick_addr (s : State) : (countTick s).addr = s.addr := rfl
@[simp] theorem countTick_count (s : State) : (countTick s).count = s.count := rfl
@[simp] theorem countTick_dlen (s : State) : (countTick s).dlen = s.dlen := rfl
@[simp] theorem countTick_acklen (s : State) : (countTick s).acklen = s.acklen := rfl
@[simp] theorem countTick_rxcnt (s : State) : (countTick s).rxcnt = s.rxcnt := rfl
@[simp] theorem countTick_txlen (s : State) : (countTick s).txlen = s.txlen := rfl
@[simp] theorem countTick_elapsed (s : State) : (countTick s).elapsed = s.elapsed + 1 := rfl
@[simp] theorem countTick_txdata (s : State) : (countTick s).txdata = s.txdata := rfl
@[simp] theorem countTick_txframe (s : State) : (countTick s).txframe = s.txframe := rfl
@[simp] theorem countTick_rxbuf (s : State) : (countTick s).rxbuf = s.rxbuf := rfl
@[simp] theorem countTick_lOp (s : State) : (countTick s).lOp = s.lOp := rfl
@[simp] theorem countTick_lValidate (s : State) : (countTick s).lValidate = s.lValidate := rfl
@[simp] theorem countTick_lN (s : State) : (countTick s).lN = s.lN := rfl
@[simp] theorem countTick_lCount (s : State) : (countTick s).lCount = s.lCount := rfl
@[simp] theorem countTick_rxq (s : State) : (countTick s).rxq = s.rxq := rfl
@[simp] theorem countTick_cfg (s : State) : (countTick s).cfg = s.cfg := rfl
@[simp] theorem countTick_host (s : State) : (countTick s).host = s.host := rfl
@[simp] theorem countTick_events (s : State) : (countTick s).events = s.events := rfl
@[simp] theorem countTick_verdict (s : State) : (countTick s).verdict = s.verdict := rfl
@[simp] theorem countTick_reads (s : State) : (countTick s).reads = s.reads := rfl
@[simp] theorem countTick_emitted (s : State) : (countTick s).emitted = s.emitted := rfl

/-! ### `recordRead` -/

@[simp] theorem recordRead_phase (v : Word) (s : State) : (recordRead v s).phase = s.phase := rfl
@[simp] theorem recordRead_done (v : Word) (s : State) : (recordRead v s).done = s.done := rfl
@[simp] theorem recordRead_err (v : Word) (s : State) : (recordRead v s).err = s.err := rfl
@[simp] theorem recordRead_pvalid (v : Word) (s : State) : (recordRead v s).pvalid = s.pvalid := rfl
@[simp] theorem recordRead_id (v : Word) (s : State) : (recordRead v s).id = s.id := rfl
@[simp] theorem recordRead_addr (v : Word) (s : State) : (recordRead v s).addr = s.addr := rfl
@[simp] theorem recordRead_count (v : Word) (s : State) : (recordRead v s).count = s.count := rfl
@[simp] theorem recordRead_dlen (v : Word) (s : State) : (recordRead v s).dlen = s.dlen := rfl
@[simp] theorem recordRead_acklen (v : Word) (s : State) : (recordRead v s).acklen = s.acklen := rfl
@[simp] theorem recordRead_rxcnt (v : Word) (s : State) : (recordRead v s).rxcnt = s.rxcnt := rfl
@[simp] theorem recordRead_txlen (v : Word) (s : State) : (recordRead v s).txlen = s.txlen := rfl
@[simp] theorem recordRead_elapsed (v : Word) (s : State) : (recordRead v s).elapsed = s.elapsed := rfl
@[simp] theorem recordRead_txdata (v : Word) (s : State) : (recordRead v s).txdata = s.txdata := rfl
@[simp] theorem recordRead_txframe (v : Word) (s : State) : (recordRead v s).txframe = s.txframe := rfl
@[simp] theorem recordRead_rxbuf (v : Word) (s : State) : (recordRead v s).rxbuf = s.rxbuf := rfl
@[simp] theorem recordRead_lOp (v : Word) (s : State) : (recordRead v s).lOp = s.lOp := rfl
@[simp] theorem recordRead_lValidate (v : Word) (s : State) : (recordRead v s).lValidate = s.lValidate := rfl
@[simp] theorem recordRead_lN (v : Word) (s : State) : (recordRead v s).lN = s.lN := rfl
@[simp] theorem recordRead_lCount (v : Word) (s : State) : (recordRead v s).lCount = s.lCount := rfl
@[simp] theorem recordRead_rxq (v : Word) (s : State) : (recordRead v s).rxq = s.rxq := rfl
@[simp] theorem recordRead_cfg (v : Word) (s : State) : (recordRead v s).cfg = s.cfg := rfl
@[simp] theorem recordRead_host (v : Word) (s : State) : (recordRead v s).host = s.host := rfl
@[simp] theorem recordRead_events (v : Word) (s : State) : (recordRead v s).events = s.events := rfl
@[simp] theorem recordRead_verdict (v : Word) (s : State) : (recordRead v s).verdict = s.verdict := rfl
@[simp] theorem recordRead_reads (v : Word) (s : State) : (recordRead v s).reads = s.reads ++ [v] := rfl
@[simp] theorem recordRead_emitted (v : Word) (s : State) : (recordRead v s).emitted = s.emitted := rfl

end Sys2Proof.Machine
end

