-- ==== Sys2Proof/Laws/Ops.lean ====
section
/-! SUPPORT. Laws/Ops.lean: for each shared operation, everything it can do, said once; later proofs cite these and do
not unfold the operation. -/

namespace Sys2Proof.Machine

theorem busy_of_idle {s : State} (h : s.phase = .idle) : s.busy = false := by simp [State.busy, h]

theorem busy_of_not_idle {s : State} (h : s.phase ≠ .idle) : s.busy = true := by simp [State.busy, h]

/-! ### Commands -/

/-- While busy a command changes nothing (R130). -/
theorem command_busy {s : State} (h : s.phase ≠ .idle) (op : Op) (n : Bool) : command op n s = s := by
  simp [command, busy_of_not_idle h]

/-- Illegal operands in `IDLE` (R132). -/
theorem command_illegal {s : State} (h : s.phase = .idle) {op : Op} {n : Bool} (hl : illegalOperands op n s = true) :
    command op n s = { s with done := true, err := .arg, pvalid := false, rxq := [] } := by
  simp only [command, busy_of_idle h, illegalOperands_clearOutcome, hl]
  simp [finish, flush, clearOutcome, h]

/-- A legal build-only command in `IDLE` (R131). -/
theorem command_build {s : State} (h : s.phase = .idle) {op : Op} (hl : illegalOperands op true s = false) :
    command op true s = { s with
      txframe := Memory.ofBytes 0 (buildFrame op s), txlen := BitVec.ofNat 9 (buildFrame op s).length,
      err := .ok, done := true, pvalid := false } := by
  simp only [command, busy_of_idle h, illegalOperands_clearOutcome, hl]
  rfl

/-- A legal sending command in `IDLE` whose emit is answered `ok` (R131). -/
theorem command_send_ok {s : State} (h : s.phase = .idle) {op : Op} (hl : illegalOperands op false s = false)
    (hv : nextVerdict s = .ok) :
    command op false s = { s with
      done := false, err := .ok, pvalid := false,
      txframe := Memory.ofBytes 0 (buildFrame op s), txlen := BitVec.ofNat 9 (buildFrame op s).length,
      lOp := op.code, lValidate := decide (op = .read), lN := responseLen op s, lCount := payloadLen op s,
      rxcnt := 0, rxq := [], emitted := s.emitted ++ [buildFrame op s], verdict := none, elapsed := 0,
      phase := .wait } := by
  simp only [command, busy_of_idle h, illegalOperands_clearOutcome, hl, acceptSend, nextVerdict_clearOutcome, hv]
  rfl

/-- A legal sending command in `IDLE` whose emit is answered `io_error` (R131, R133). -/
theorem command_send_io {s : State} (h : s.phase = .idle) {op : Op} (hl : illegalOperands op false s = false)
    (hv : nextVerdict s = .ioError) :
    command op false s = { s with
      done := true, err := .io, pvalid := false,
      txframe := Memory.ofBytes 0 (buildFrame op s), txlen := BitVec.ofNat 9 (buildFrame op s).length,
      lOp := op.code, lValidate := decide (op = .read), lN := responseLen op s, lCount := payloadLen op s,
      rxcnt := 0, rxq := [], emitted := s.emitted ++ [buildFrame op s], verdict := none } := by
  simp only [command, busy_of_idle h, illegalOperands_clearOutcome, hl, acceptSend, nextVerdict_clearOutcome, hv]
  show finish .io (sendFrame op (clearOutcome s)) = _
  obtain ⟨phase⟩ := s
  subst h
  rfl

/-- Everything a command can do. -/
theorem command_cases (op : Op) (n : Bool) (s : State) :
    (s.phase ≠ .idle ∧ command op n s = s) ∨
    (s.phase = .idle ∧ illegalOperands op n s = true ∧
      command op n s = { s with done := true, err := .arg, pvalid := false, rxq := [] }) ∨
    (s.phase = .idle ∧ n = true ∧ illegalOperands op n s = false ∧
      command op n s = { s with
        txframe := Memory.ofBytes 0 (buildFrame op s), txlen := BitVec.ofNat 9 (buildFrame op s).length,
        err := .ok, done := true, pvalid := false }) ∨
    (s.phase = .idle ∧ n = false ∧ illegalOperands op n s = false ∧ nextVerdict s = .ok ∧
      command op n s = { s with
        done := false, err := .ok, pvalid := false,
        txframe := Memory.ofBytes 0 (buildFrame op s), txlen := BitVec.ofNat 9 (buildFrame op s).length,
        lOp := op.code, lValidate := decide (op = .read), lN := responseLen op s, lCount := payloadLen op s,
        rxcnt := 0, rxq := [], emitted := s.emitted ++ [buildFrame op s], verdict := none, elapsed := 0,
        phase := .wait }) ∨
    (s.phase = .idle ∧ n = false ∧ illegalOperands op n s = false ∧ nextVerdict s = .ioError ∧
      command op n s = { s with
        done := true, err := .io, pvalid := false,
        txframe := Memory.ofBytes 0 (buildFrame op s), txlen := BitVec.ofNat 9 (buildFrame op s).length,
        lOp := op.code, lValidate := decide (op = .read), lN := responseLen op s, lCount := payloadLen op s,
        rxcnt := 0, rxq := [], emitted := s.emitted ++ [buildFrame op s], verdict := none }) := by
  by_cases h : s.phase = .idle
  · cases hl : illegalOperands op n s with
    | true => exact .inr (.inl ⟨h, rfl, command_illegal h hl⟩)
    | false =>
      cases n with
      | true => exact .inr (.inr (.inl ⟨h, rfl, rfl, command_build h hl⟩))
      | false =>
        cases hv : nextVerdict s with
        | ok => exact .inr (.inr (.inr (.inl ⟨h, rfl, rfl, rfl, command_send_ok h hl hv⟩)))
        | ioError => exact .inr (.inr (.inr (.inr ⟨h, rfl, rfl, rfl, command_send_io h hl hv⟩)))
  · exact .inl ⟨h, command_busy h op n⟩

theorem illegalCommand_cases (s : State) :
    (s.phase ≠ .idle ∧ illegalCommand s = s) ∨
    (s.phase = .idle ∧ illegalCommand s = { s with done := true, err := .arg, pvalid := false, rxq := [] }) := by
  by_cases h : s.phase = .idle
  · exact .inr ⟨h, by simp [illegalCommand, busy_of_idle h, finish, flush, clearOutcome, h]⟩
  · exact .inl ⟨h, by simp [illegalCommand, busy_of_not_idle h]⟩

theorem wireInstruction_cases (op : Op) (s : State) :
    (s.phase ≠ .idle ∧ wireInstruction op s = s) ∨
    (s.phase = .idle ∧ dataTooLong op s = true ∧
      wireInstruction op s = { s with rxq := [], err := .arg, pvalid := false, done := true }) ∨
    (s.phase = .idle ∧ dataTooLong op s = false ∧
      wireInstruction op s = { s with
        txframe := Memory.ofBytes 0 (buildFrame op s), txlen := BitVec.ofNat 9 (buildFrame op s).length }) := by
  by_cases h : s.phase = .idle
  · cases hl : dataTooLong op s with
    | true => exact .inr (.inl ⟨h, rfl, by simp [wireInstruction, busy_of_idle h, hl, finish, flush, h]⟩)
    | false => exact .inr (.inr ⟨h, rfl, by simp only [wireInstruction, busy_of_idle h, hl]; rfl⟩)
  · exact .inl ⟨h, by simp [wireInstruction, busy_of_not_idle h]⟩

/-- Every instruction is a wire instruction of one `Op`, or a command of one `Op` and `NOSEND`; it always goes on. -/
theorem exec_cases (i : Instr) :
    (∃ op, ∀ s, exec i s = .next (wireInstruction op s)) ∨ ∃ op n, ∀ s, exec i s = .next (command op n s) := by
  cases i with
  | read => exact .inl ⟨.read, fun _ => rfl⟩
  | write => exact .inl ⟨.write, fun _ => rfl⟩
  | action => exact .inl ⟨.action, fun _ => rfl⟩
  | cmdRead => exact .inr ⟨.read, false, fun _ => rfl⟩
  | cmdWrite => exact .inr ⟨.write, false, fun _ => rfl⟩
  | cmdAction => exact .inr ⟨.action, false, fun _ => rfl⟩
  | cmdBuildRead => exact .inr ⟨.read, true, fun _ => rfl⟩
  | cmdBuildWrite => exact .inr ⟨.write, true, fun _ => rfl⟩
  | cmdBuildAction => exact .inr ⟨.action, true, fun _ => rfl⟩

/-- A decoded host command is a command, never a wire instruction. -/
theorem decodeHost_cases (v : Word) :
    (∃ e, decodeHost v = .error e) ∨ ∃ i op n, decodeHost v = .ok i ∧ ∀ s, exec i s = .next (command op n s) := by
  unfold decodeHost
  split
  · exact .inl ⟨_, rfl⟩
  · split
    · exact .inr ⟨_, .read, false, rfl, fun _ => rfl⟩
    · exact .inr ⟨_, .write, false, rfl, fun _ => rfl⟩
    · exact .inr ⟨_, .action, false, rfl, fun _ => rfl⟩
    · exact .inr ⟨_, .read, true, rfl, fun _ => rfl⟩
    · exact .inr ⟨_, .write, true, rfl, fun _ => rfl⟩
    · exact .inr ⟨_, .action, true, rfl, fun _ => rfl⟩
    · exact .inl ⟨_, rfl⟩

/-- Everything a `CMD` write can do (R130). -/
theorem commandWrite_cases (v : Word) (s : State) :
    commandWrite v s = .next (illegalCommand s) ∨ ∃ op n, commandWrite v s = .next (command op n s) := by
  unfold commandWrite
  rcases decodeHost_cases v with ⟨e, he⟩ | ⟨i, op, n, hi, hx⟩
  · exact .inl (by simp [decode, he])
  · exact .inr ⟨op, n, by simp [decode, hi, hx]⟩

/-! ### Checking a response -/

/-- Everything `check()` can do (R112). -/
theorem check_cases (s : State) :
    (s.lValidate = false ∧ check s = .next (finish .ok s)) ∨
    (s.lValidate = true ∧ validate s = true ∧ check s = .next { finish .ok s with pvalid := true }) ∨
    (s.lValidate = true ∧ validate s = false ∧ check s = .next (finish .checksum s)) ∨
    (s.lValidate = true ∧ ¬ (6 ≤ s.lN.toNat ∧ s.lN.toNat ≤ maxResp) ∧ check s = .fault .rxbufIndex) := by
  unfold check
  cases hv : s.lValidate with
  | false => exact .inl ⟨rfl, rfl⟩
  | true =>
    by_cases hn : 6 ≤ s.lN.toNat ∧ s.lN.toNat ≤ maxResp
    · cases hc : validate s with
      | true => exact .inr (.inl ⟨rfl, rfl, by simp [hn]⟩)
      | false => exact .inr (.inr (.inl ⟨rfl, rfl, by simp [hn]⟩))
    · exact .inr (.inr (.inr ⟨rfl, hn, by simp [hn]⟩))

/-- `Validate()` reads only `L_N` and `RXBUF`. -/
theorem validate_congr {s t : State} (hn : t.lN = s.lN) (hb : t.rxbuf = s.rxbuf) : validate t = validate s := by
  simp [validate, hn, hb]

/-! ### Tests of the host address -/

theorem toNat_hostAddr {n : Nat} (h : n < 0x800) : (BitVec.ofNat 11 n).toNat = n := by
  rw [BitVec.toNat_ofNat]
  omega

theorem memRead_txdata (s : State) {i : Nat} (h : i ≤ 251) :
    memRead (BitVec.ofNat 11 (0x100 + i)) s = (s.txdata.read i).setWidth 16 := by
  unfold memRead
  rw [toNat_hostAddr (by omega)]
  simp (disch := omega) only [if_neg, if_pos]
  rw [Nat.add_sub_cancel_left]

theorem memRead_txframe (s : State) {i : Nat} (h : i ≤ 258) :
    memRead (BitVec.ofNat 11 (0x200 + i)) s = (s.txframe.read i).setWidth 16 := by
  unfold memRead
  rw [toNat_hostAddr (by omega)]
  simp (disch := omega) only [if_neg, if_pos]
  rw [Nat.add_sub_cancel_left]

theorem memRead_payload (s : State) {i : Nat} (h : i ≤ 254) :
    memRead (BitVec.ofNat 11 (0x400 + i)) s =
      if s.pvalid = true ∧ i < s.lCount.toNat then (s.rxbuf.read (5 + i)).setWidth 16 else 0 := by
  unfold memRead
  rw [toNat_hostAddr (by omega)]
  simp (disch := omega) only [if_neg, if_pos]
  rw [Nat.add_sub_cancel_left]

end Sys2Proof.Machine
end

