-- ==== Sys2Proof/Laws/Invariant.lean ====
section
/-! SUPPORT. Laws/Invariant.lean: the part of the invariant that holds in the middle of a step too, what each shared
operation needs to end in the invariant, and the ticks a transaction may still take. -/

namespace Sys2Proof.Machine

/-- The part of the invariant that speaks of neither `phase` nor an outcome. -/
structure Base (s : State) : Prop where
  config : s.cfg.accepted = true
  txdata : s.txdata.good 252 = true
  txframe : s.txframe.good s.txlen.toNat = true
  txlen : s.txlen = 0 ∨ 6 ≤ s.txlen.toNat ∧ s.txlen.toNat ≤ maxFrame
  rxbuf : s.rxbuf.good maxResp = true
  rxq : s.rxq.length ≤ s.cfg.rxqCap
  latched : LatchLegal s
  elapsed : s.elapsed.toNat ≤ max s.cfg.respTicks s.cfg.rdTicks

theorem StateInv.base {s : State} (h : StateInv s) : Base s :=
  ⟨h.config, h.txdata, h.txframe, h.txlen, h.rxbuf, h.rxq, h.latched, h.elapsed⟩

theorem Memory.good_iff (m : Memory) (cap : Nat) : m.good cap = true ↔ m.wf = true ∧ m.below cap = true := by
  simp [Memory.good]

/-- Both deadlines fit `ELAPSED` (R32). -/
theorem accepted_bounds {c : Config} (h : c.accepted = true) :
    1 ≤ c.respTicks ∧ 1 ≤ c.rdTicks ∧ c.respTicks ≤ 65535 ∧ c.rdTicks ≤ 65535 := by
  simp only [Config.accepted, Bool.and_eq_true, decide_eq_true_eq, max_le_iff] at h
  exact ⟨h.1.1.2, h.1.2, h.2.1, h.2.2⟩

/-- Counting one tick does not wrap below the larger deadline. -/
theorem elapsed_succ_toNat {s : State} (hc : s.cfg.accepted = true)
    (h : s.elapsed.toNat < max s.cfg.respTicks s.cfg.rdTicks) : (s.elapsed + 1).toNat = s.elapsed.toNat + 1 := by
  have := accepted_bounds hc
  rw [BitVec.toNat_add, show (1 : BitVec 16).toNat = 1 from rfl]
  omega

/-- `finish(code)` ends in the invariant when the outcome's record is right. -/
theorem inv_finish {s : State} (h : Base s) (code : ErrCode) (hr : OutcomeRecorded { s with err := code }) :
    StateInv (finish code s) where
  config := h.config
  txdata := h.txdata
  txframe := h.txframe
  txlen := h.txlen
  rxbuf := h.rxbuf
  rxq := Nat.zero_le _
  latched := h.latched
  elapsed := h.elapsed
  waiting := nofun
  collecting := nofun
  inFlight := fun hp => absurd rfl hp
  payload := nofun
  outcome := fun _ => rfl
  recorded := by
    cases code <;> exact hr

/-- A READ that passes its check (R112). -/
theorem inv_finish_ok_pvalid {s : State} (h : Base s) (hv : s.lValidate = true) (hn : s.rxcnt = s.lN)
    (hc : validate s = true) : StateInv { finish .ok s with pvalid := true } where
  config := h.config
  txdata := h.txdata
  txframe := h.txframe
  txlen := h.txlen
  rxbuf := h.rxbuf
  rxq := Nat.zero_le _
  latched := h.latched
  elapsed := h.elapsed
  waiting := nofun
  collecting := nofun
  inFlight := fun hp => absurd rfl hp
  payload := fun _ => ⟨rfl, rfl, rfl, hv, hn, hc⟩
  outcome := fun _ => rfl
  recorded := trivial

/-- `check()` on a complete response ends in the invariant and does not fault. -/
theorem inv_check {s : State} (h : Base s) (hn : s.lValidate = true → s.rxcnt = s.lN) :
    ∃ t, check s = .next t ∧ StateInv t := by
  rcases check_cases s with ⟨-, hc⟩ | ⟨hv, hp, hc⟩ | ⟨hv, hp, hc⟩ | ⟨hv, hf, -⟩
  · exact ⟨_, hc, inv_finish h .ok trivial⟩
  · exact ⟨_, hc, inv_finish_ok_pvalid h hv (hn hv) hp⟩
  · exact ⟨_, hc, inv_finish h .checksum ⟨hv, hn hv, hp⟩⟩
  · have h1 := h.latched.1
    have h2 := h.latched.2.1 hv
    exact absurd ⟨by omega, h1⟩ hf

/-- The invariant speaks only of the block's state and the parameters. -/
theorem inv_outside {s : State} (h : StateInv s) (host : List HostOp) (events : List Event) (verdict : Option Verdict)
    (reads : List Word) (emitted : List (List Byte)) :
    StateInv { s with host := host, events := events, verdict := verdict, reads := reads, emitted := emitted } :=
  ⟨h.config, h.txdata, h.txframe, h.txlen, h.rxbuf, h.rxq, h.latched, h.elapsed, h.waiting, h.collecting, h.inFlight,
    h.payload, h.outcome, h.recorded⟩

/-- A stored frame of legal length keeps the conditions on `TXFRAME` and `TXLEN`. -/
theorem stored_frame_good {op : Op} {s : State} (h : dataTooLong op s = false) :
    (Memory.ofBytes 0 (buildFrame op s)).good (BitVec.ofNat 9 (buildFrame op s).length).toNat = true ∧
      6 ≤ (BitVec.ofNat 9 (buildFrame op s).length).toNat ∧
      (BitVec.ofNat 9 (buildFrame op s).length).toNat ≤ maxFrame := by
  have hl := buildFrame_length_le h
  have he : (BitVec.ofNat 9 (buildFrame op s).length).toNat = (buildFrame op s).length := by
    rw [BitVec.toNat_ofNat]
    omega
  rw [he, Memory.good_iff]
  exact ⟨⟨Memory.wf_ofBytes 0 _, Memory.below_ofBytes _⟩, hl.1, hl.2⟩

/-- The latched transaction of an accepted sending command is legal. -/
theorem latchLegal_of_legal {op : Op} {s t : State} (h : illegalOperands op false s = false)
    (h1 : t.lN = responseLen op s) (h2 : t.lCount = payloadLen op s) (h3 : t.lValidate = decide (op = .read)) :
    LatchLegal t := by
  refine ⟨h1 ▸ responseLen_le h, fun hv => ?_, fun hv => ?_⟩
  · have : op = .read := by simpa [h3] using hv
    subst this
    rw [h1, h2, responseLen_read_toNat]
    rfl
  · rw [h2]
    cases op <;> simp_all [payloadLen]

/-- The ticks a state in flight may still take before it ends (R153). -/
def ticksLeft (s : State) : Nat :=
  match s.phase with
  | .idle    => 0
  | .wait    => s.cfg.respTicks - s.elapsed.toNat + s.cfg.rdTicks
  | .collect => s.cfg.rdTicks - s.elapsed.toNat

end Sys2Proof.Machine
end

