-- ==== Sys2Proof/Laws/Engine.lean ====
section
/-! SUPPORT. Laws/Engine.lean: everything an engine step and a host turn can do, said once,
    and that each of them keeps
the invariant. -/

namespace Sys2Proof.Machine

/-! ### Collecting -/

theorem collectLen_le (s : State) (h : LatchLegal s) : collectLen s ≤ maxResp := by
  have := h.1
  unfold collectLen
  omega

/-- The state of `enter_collect()` (R144) once its bytes are copied and `RXCNT` is written. -/
def collected (s : State) : State :=
  { s with
    phase   := .collect
    elapsed := 0
    rxbuf   := s.rxbuf.writeBytes 0 (s.rxq.take (collectLen s))
    rxq     := s.rxq.drop (collectLen s)
    rxcnt   := BitVec.ofNat 9 (collectLen s) }

/-- `enter_collect()` never faults on a legal latched transaction (R144). -/
theorem enterCollect_eq {s : State} (h : LatchLegal s) : enterCollect s = checkIfComplete (collected s) := by
  unfold enterCollect; rw [if_pos (collectLen_le s h)]; rfl

/-- `RXCNT` holds the number of bytes taken (R144). -/
theorem rxcnt_toNat {s : State} (h : LatchLegal s) : (collected s).rxcnt.toNat = collectLen s := by
  have := collectLen_le s h
  show (BitVec.ofNat 9 _).toNat = _
  rw [BitVec.toNat_ofNat]
  have : maxResp = 261 := rfl
  omega

theorem checkIfComplete_eq (s : State) : checkIfComplete s = if s.rxcnt = s.lN then check s else .next s := rfl

/-- The copied bytes fit `RXBUF` (R37). -/
theorem base_collected {s : State} (h : Base s) : Base (collected s) := by
  have hb := (Memory.good_iff _ _).1 h.rxbuf
  refine ⟨h.config, h.txdata, h.txframe, h.txlen, ?_, ?_, h.latched, Nat.zero_le _⟩
  · show Memory.good (s.rxbuf.writeBytes 0 (s.rxq.take (collectLen s))) maxResp = true
    rw [Memory.good_iff]
    refine ⟨Memory.wf_writeBytes hb.1 _ _, Memory.below_writeBytes hb.2 _ _ ?_⟩
    have := collectLen_le s h.latched
    simp; omega
  · show (s.rxq.drop _).length ≤ _
    have := h.rxq
    simp; exact le_trans this (Nat.le_add_right _ _)

/-- What `check()` leaves, whatever the response (R112). -/
theorem check_facts {s : State} (hl : LatchLegal s) : ∃ t, check s = .next t ∧ t.phase = .idle ∧ t.done = true ∧
    t.rxq = [] ∧ t.rxcnt = s.rxcnt ∧ t.elapsed = s.elapsed ∧ t.rxbuf = s.rxbuf ∧ t.lN = s.lN ∧ t.lCount = s.lCount ∧
   (s.lValidate = false → t.err = .ok ∧ t.pvalid = false) ∧ (s.lValidate = true → validate t = true →
       t.err = .ok ∧ t.pvalid = true) ∧
   (s.lValidate = true → validate t = false → t.err = .checksum ∧ t.pvalid = false) := by
  rcases check_cases s with ⟨hv, hc⟩ | ⟨hv, hp, hc⟩ | ⟨hv, hp, hc⟩ | ⟨hv, hf, -⟩
  · exact ⟨_, hc, rfl, rfl, rfl, rfl, rfl, rfl, rfl, rfl, fun _ => ⟨rfl, rfl⟩, by simp [hv], by simp [hv]⟩
  · refine ⟨_, hc, rfl, rfl, rfl, rfl, rfl, rfl, rfl, rfl, by simp [hv], fun _ _ => ⟨rfl, rfl⟩, fun _ h => ?_⟩
    have h2 : validate s = false := h
    rw [hp] at h2; cases h2
  · refine ⟨_, hc, rfl, rfl, rfl, rfl, rfl, rfl, rfl, rfl, by simp [hv], fun _ h => ?_, fun _ _ => ⟨rfl, rfl⟩⟩
    have h2 : validate s = true := h
    rw [hp] at h2; cases h2
  · have h1 := hl.1
    have h2 := hl.2.1 hv
    exact absurd ⟨by omega, h1⟩ hf

/-- `RXCNT` does not wrap below the capacity of `RXBUF`. -/
theorem rxcnt_succ_toNat {x : BitVec 9} (h : x.toNat < 261) : (x + 1).toNat = x.toNat + 1 := by
  rw [BitVec.toNat_add, show (1 : BitVec 9).toNat = 1 from rfl]; omega

/-! ### What an engine step may change -/

/-- Alike but for what the engine writes: the control state, the outcome, and the response fields. -/
def EngineFrame (s t : State) : Prop :=
  t = { s with
    phase := t.phase, done := t.done, err := t.err, pvalid := t.pvalid, rxcnt := t.rxcnt, elapsed := t.elapsed,
    rxbuf := t.rxbuf, rxq := t.rxq }

theorem EngineFrame.refl (s : State) : EngineFrame s s := rfl

theorem EngineFrame.trans {s t u : State} (h1 : EngineFrame s t) (h2 : EngineFrame t u) : EngineFrame s u := by
  unfold EngineFrame at *
  rw [h1] at h2
  exact h2

theorem finish_frame (c : ErrCode) (s : State) : EngineFrame s (finish c s) := rfl

theorem check_frame {s t : State} (h : check s = .next t) : EngineFrame s t := by
  rcases check_cases s with ⟨-, hc⟩ | ⟨hv, hp, hc⟩ | ⟨hv, hp, hc⟩ | ⟨hv, hf,
      hc⟩ <;> rw [hc] at h <;> cases h <;> rfl

theorem checkIfComplete_frame {s t : State} (h : checkIfComplete s = .next t) : EngineFrame s t := by
  rw [checkIfComplete_eq] at h
  split_ifs at h
  · exact check_frame h
  · cases h; rfl

theorem enterCollect_frame {s t : State} (h : enterCollect s = .next t) : EngineFrame s t := by
  unfold enterCollect at h
  split_ifs at h
  have := checkIfComplete_frame h
  unfold EngineFrame at *
  rw [this]

theorem enqueue_frame (b : Byte) (s : State) : EngineFrame s (enqueue b s) := by
  unfold enqueue; split_ifs <;> rfl

theorem rxStep_frame {s t : State} {b : Byte} (h : rxStep b s = .next t) : EngineFrame s t := by
  unfold rxStep at h
  split at h
  · cases h; exact enqueue_frame b s
  · cases h; exact enqueue_frame b s
  · unfold collectByte at h
    split_ifs at h
    have := checkIfComplete_frame h
    unfold EngineFrame at *
    rw [this]

theorem tickStep_frame {s t : State} (h : tickStep s = .next t) : EngineFrame s t := by
  unfold tickStep at h
  split at h
  · cases h; rfl
  · unfold waitTick at h
    split_ifs at h
    · exact EngineFrame.trans (t := countTick s) rfl (enterCollect_frame h)
    · cases h; rfl
    · cases h; rfl
  · unfold collectTick at h
    split_ifs at h
    · cases h; rfl
    · exact EngineFrame.trans (t := countTick s) rfl (check_frame h)
    · cases h; rfl

theorem rxErrorStep_frame (s : State) : EngineFrame s (rxErrorStep s) := by
  unfold rxErrorStep; split_ifs <;> rfl

/-! ### The host's turn -/

/-- Everything a host turn can do: a command, or an access that changes no more than the operand registers. -/
theorem hostTurn_cases (s t : State) (h : hostTurn s = .next t) :
    (commandNext s = false ∧ t =
        { s with id := t.id, addr := t.addr, count := t.count, dlen := t.dlen, acklen := t.acklen, txdata := t.txdata, host := t.host, reads := t.reads }) ∨
    (commandNext s = true ∧ ∃ rest, (t = illegalCommand { s with host := rest } ∨ ∃ op n,
        t = command op n { s with host := rest })) := by
  unfold hostTurn at h
  split at h
  · next he => cases h; exact .inl ⟨by simp [commandNext, he], rfl⟩
  · next op rest he =>
    cases op with
    | read a => cases h; exact .inl ⟨by simp [commandNext, he], rfl⟩
    | write a v =>
      simp only [hostOpStep, memWrite] at h
      split_ifs at h with ha
      · right
        refine ⟨by simp [commandNext, he, ha], rest, ?_⟩
        rcases commandWrite_cases v { s with host := rest } with e | ⟨op, n, e⟩
        · rw [e] at h; cases h; exact .inl rfl
        · rw [e] at h; cases h; exact .inr ⟨op, n, rfl⟩
      · left
        have ha' : (a == 0) = false := by simpa using ha
        refine ⟨by simp only [commandNext, he]; exact ha', ?_⟩
        cases h
        unfold storeCsr
        simp only []
        split_ifs <;> rfl
    | waitDone =>
      simp only [hostOpStep] at h
      split_ifs at h <;> cases h <;> exact .inl ⟨by simp [commandNext, he], rfl⟩

/-- The step on a list of events that is not empty is the delivery of the first. -/
theorem step_event {s : State} {e : Event} {es : List Event} (hc : s.cfg.accepted = true) (h : s.events = e :: es) :
    step s = deliver e { s with events := es } := by
  simp [step, stepChecked, hc, stepEvents, h]

/-! ### Each operation keeps the invariant -/

theorem inv_arg {s : State} (h : StateInv s) (hp : s.phase = .idle) : StateInv
    { s with done := true, err := .arg, pvalid := false, rxq := [] } :=
  ⟨h.config, h.txdata, h.txframe, h.txlen, h.rxbuf, Nat.zero_le _, h.latched, h.elapsed, by simp [hp],
      by simp [hp], by simp [hp], nofun, fun _ => rfl, trivial⟩

theorem inv_command {s : State} (h : StateInv s) (op : Op) (n : Bool) : StateInv (command op n s) := by
  rcases command_cases op n s with ⟨hc, e⟩ | ⟨hp, hl, e⟩ | ⟨hp, -, hl, e⟩ | ⟨hp, rfl, hl, hv, e⟩ | ⟨hp, rfl, hl,
      hv, e⟩
  · rw [e]; exact h
  · rw [e]; exact inv_arg h hp
  · rw [e]
    obtain ⟨g1, g2, g3⟩ := stored_frame_good (dataTooLong_of_legal hl)
    exact ⟨h.config, h.txdata, g1, .inr ⟨g2, g3⟩, h.rxbuf, h.rxq, h.latched, h.elapsed, by simp [hp],
        by simp [hp], by simp [hp], nofun, fun hh => absurd rfl hh, trivial⟩
  · rw [e]
    obtain ⟨g1, g2, g3⟩ := stored_frame_good (dataTooLong_of_legal hl)
    have hb := accepted_bounds h.config
    exact ⟨h.config, h.txdata, g1, .inr ⟨g2, g3⟩, h.rxbuf, Nat.zero_le _, latchLegal_of_legal hl rfl rfl rfl,
        Nat.zero_le _, fun _ => ⟨rfl, hb.1⟩, nofun, fun _ => ⟨rfl, rfl, rfl⟩, nofun, fun hh => absurd rfl hh,
        trivial⟩
  · rw [e]
    obtain ⟨g1, g2, g3⟩ := stored_frame_good (dataTooLong_of_legal hl)
    exact ⟨h.config, h.txdata, g1, .inr ⟨g2, g3⟩, h.rxbuf, Nat.zero_le _, latchLegal_of_legal hl rfl rfl rfl,
        h.elapsed, by simp [hp], by simp [hp], by simp [hp], nofun, fun _ => rfl, trivial⟩

theorem inv_illegal {s : State} (h : StateInv s) : StateInv (illegalCommand s) := by
  rcases illegalCommand_cases s with ⟨-, e⟩ | ⟨hp, e⟩
  · rw [e]; exact h
  · rw [e]; exact inv_arg h hp

theorem inv_wireInstruction {s : State} (h : StateInv s) (op : Op) : StateInv (wireInstruction op s) := by
  rcases wireInstruction_cases op s with ⟨-, e⟩ | ⟨hp, hl, e⟩ | ⟨hp, hl, e⟩
  · rw [e]; exact h
  · rw [e]; exact inv_arg h hp
  · rw [e]
    obtain ⟨g1, g2, g3⟩ := stored_frame_good hl
    exact ⟨h.config, h.txdata, g1, .inr ⟨g2, g3⟩, h.rxbuf, h.rxq, h.latched, h.elapsed, h.waiting, h.collecting,
        h.inFlight, h.payload, h.outcome, h.recorded⟩

theorem inv_storeCsr {s : State} (h : StateInv s) (a : HostAddr) (v : Word) : StateInv (storeCsr a v s) := by
  unfold storeCsr
  simp only []
  have rest : ∀ i ad c d k m, Memory.good m 252 = true → StateInv
      { s with id := i, addr := ad, count := c, dlen := d, acklen := k, txdata := m } := fun i ad c d k m hm =>
    ⟨h.config, hm, h.txframe, h.txlen, h.rxbuf, h.rxq, h.latched, h.elapsed, h.waiting, h.collecting, h.inFlight,
        h.payload, h.outcome, h.recorded⟩
  split_ifs with h1 h2 h3 h4 h5 h6
  · exact rest _ _ _ _ _ _ h.txdata
  · exact rest _ _ _ _ _ _ h.txdata
  · exact rest _ _ _ _ _ _ h.txdata
  · exact rest _ _ _ _ _ _ h.txdata
  · exact rest _ _ _ _ _ _ h.txdata
  · have := (Memory.good_iff _ _).1 h.txdata
    exact rest _ _ _ _ _ _ ((Memory.good_iff _ _).2 ⟨Memory.wf_write this.1 _ _,
        Memory.below_write this.2 (by omega) _⟩)
  · exact h

theorem inv_rx {s : State} (h : StateInv s) (b : Byte) : ∃ t, rxStep b s = .next t ∧ StateInv t := by
  have henq : StateInv (enqueue b s) ∨ s.phase = .collect := by
    by_cases hp : s.phase = .collect
    · exact .inr hp
    · left
      unfold enqueue
      split_ifs with hq
      · exact ⟨h.config, h.txdata, h.txframe, h.txlen, h.rxbuf, by simp; omega, h.latched, h.elapsed, h.waiting,
          fun hh => absurd hh hp, h.inFlight, h.payload, h.outcome, h.recorded⟩
      · exact h
  unfold rxStep
  split
  · next hp => exact ⟨_, rfl, henq.resolve_right (by simp [hp])⟩
  · next hp => exact ⟨_, rfl, henq.resolve_right (by simp [hp])⟩
  · next hp =>
    obtain ⟨c1, c2, c3, c4⟩ := h.collecting hp
    have hl : s.lN.toNat ≤ 261 := h.latched.1
    unfold collectByte
    rw [if_pos (by show _ < 261; omega), checkIfComplete_eq]
    have hb := (Memory.good_iff _ _).1 h.rxbuf
    have hg : Memory.good (s.rxbuf.write s.rxcnt.toNat b) maxResp = true := (Memory.good_iff _ _).2 ⟨Memory.wf_write hb.1 _ _, Memory.below_write hb.2 (by show _ < 261; omega) _⟩
    have hbase : Base { s with rxbuf := s.rxbuf.write s.rxcnt.toNat b, rxcnt := s.rxcnt + 1 } :=
      ⟨h.config, h.txdata, h.txframe, h.txlen, hg, h.rxq, h.latched, h.elapsed⟩
    have hs := rxcnt_succ_toNat (x := s.rxcnt) (by omega)
    split_ifs with hr
    · exact inv_check hbase fun _ => hr
    · refine ⟨_, rfl, h.config, h.txdata, h.txframe, h.txlen, hg, h.rxq, h.latched, h.elapsed, by simp [hp],
        fun _ => ⟨c1, ?_, ?_, c4⟩, h.inFlight, ?_, h.outcome, ?_⟩
      · show 1 ≤ (s.rxcnt + 1).toNat
        omega
      · show (s.rxcnt + 1).toNat < s.lN.toNat
        have : (s.rxcnt + 1).toNat ≠ s.lN.toNat := fun e => hr (BitVec.eq_of_toNat_eq e)
        omega
      · intro hh
        have := (h.inFlight (by simp [hp])).2.2
        have h2 : s.pvalid = true := hh
        rw [this] at h2; cases h2
      · have := (h.inFlight (by simp [hp])).2.1
        unfold OutcomeRecorded; simp [this]

theorem inv_tick {s : State} (h : StateInv s) : ∃ t, tickStep s = .next t ∧ StateInv t := by
  unfold tickStep
  split
  · exact ⟨_, rfl, h⟩
  · next hp =>
    obtain ⟨w1, w2⟩ := h.waiting hp
    obtain ⟨f1, f2, f3⟩ := h.inFlight (by simp [hp])
    have he : (s.elapsed + 1).toNat = s.elapsed.toNat + 1 := elapsed_succ_toNat h.config (lt_of_lt_of_le w2 (le_max_left _ _))
    have hbase : Base (countTick s) := ⟨h.config, h.txdata, h.txframe, h.txlen, h.rxbuf, h.rxq, h.latched, by
      show (s.elapsed + 1).toNat ≤ max s.cfg.respTicks s.cfg.rdTicks
      have := le_max_left s.cfg.respTicks s.cfg.rdTicks
      omega⟩
    unfold waitTick
    split_ifs with hq ht
    · rw [enterCollect_eq hbase.latched, checkIfComplete_eq]
      have hbc := base_collected hbase
      split_ifs with hr
      · exact inv_check hbc fun _ => hr
      · refine ⟨_, rfl, hbc.config, hbc.txdata, hbc.txframe, hbc.txlen, hbc.rxbuf, hbc.rxq, hbc.latched,
          hbc.elapsed, nofun, fun _ => ?_, fun _ => ⟨f1, f2, f3⟩, fun hh => ?_, fun hh => absurd f2 hh, ?_⟩
        · have hk := rxcnt_toNat hbase.latched
          have hk2 : collectLen (countTick s) = min s.rxq.length s.lN.toNat := rfl
          have hne : (collected (countTick s)).rxcnt.toNat ≠ s.lN.toNat := fun e => hr (BitVec.eq_of_toNat_eq e)
          have hlN : (collected (countTick s)).lN = s.lN := rfl
          refine ⟨?_, by omega, by rw [hlN]; omega, (accepted_bounds h.config).2.1⟩
          show (countTick s).rxq.drop (collectLen (countTick s)) = []
          rw [List.drop_eq_nil_iff]
          show s.rxq.length ≤ _
          omega
        · have h2 : s.pvalid = true := hh
          rw [f3] at h2; cases h2
        · have h2 : (collected (countTick s)).err = .ok := f2
          unfold OutcomeRecorded; rw [h2]; trivial
    · refine ⟨_, rfl, inv_finish hbase .timeout ⟨w1, ?_⟩⟩
      show (s.elapsed + 1).toNat = s.cfg.respTicks
      have : s.cfg.respTicks ≤ (s.elapsed + 1).toNat := ht
      omega
    · refine ⟨_, rfl, hbase.config, hbase.txdata, hbase.txframe, hbase.txlen, hbase.rxbuf, hbase.rxq,
        hbase.latched, hbase.elapsed, fun _ => ⟨w1, ?_⟩, by simp [hp], h.inFlight, h.payload, h.outcome, ?_⟩
      · show (s.elapsed + 1).toNat < s.cfg.respTicks
        have : ¬ s.cfg.respTicks ≤ (s.elapsed + 1).toNat := ht
        omega
      · unfold OutcomeRecorded; simp [f2]
  · next hp =>
    obtain ⟨c1, c2, c3, c4⟩ := h.collecting hp
    obtain ⟨f1, f2, f3⟩ := h.inFlight (by simp [hp])
    have he : (s.elapsed + 1).toNat = s.elapsed.toNat + 1 := elapsed_succ_toNat h.config (lt_of_lt_of_le c4 (le_max_right _ _))
    have hbase : Base (countTick s) := ⟨h.config, h.txdata, h.txframe, h.txlen, h.rxbuf, h.rxq, h.latched, by
      show (s.elapsed + 1).toNat ≤ max s.cfg.respTicks s.cfg.rdTicks
      have := le_max_right s.cfg.respTicks s.cfg.rdTicks
      omega⟩
    unfold collectTick
    split_ifs with ht hv
    · refine ⟨_, rfl, inv_finish hbase .short ⟨hv, c2, c3, ?_⟩⟩
      show (s.elapsed + 1).toNat = s.cfg.rdTicks
      have : s.cfg.rdTicks ≤ (s.elapsed + 1).toNat := ht
      omega
    · exact inv_check hbase fun hh => absurd hh hv
    · refine ⟨_, rfl, hbase.config, hbase.txdata, hbase.txframe, hbase.txlen, hbase.rxbuf, hbase.rxq,
        hbase.latched, hbase.elapsed, by simp [hp], fun _ => ⟨c1, c2, c3, ?_⟩, h.inFlight, h.payload, h.outcome, ?_⟩
      · show (s.elapsed + 1).toNat < s.cfg.rdTicks
        have : ¬ s.cfg.rdTicks ≤ (s.elapsed + 1).toNat := ht
        omega
      · unfold OutcomeRecorded; simp [f2]

end Sys2Proof.Machine
end

