-- ==== Sys2Proof/Tests/Slice0.lean ====
section
/-! SUPPORT. Tests/Slice0.lean: small checks whose expected values are the spec's own examples (`95_test_vectors.md`
V1 to V8 and the rules' examples), what the checks of WellFormed and the decoders refuse, and for every obligation with
hypotheses a concrete state and operands that meet them. -/

namespace Sys2Proof.Tests

open Sys2Proof Sys2Proof.Machine

/-! ### Helpers -/

/-- `IDLE`, the operands of V2's first line, the transport's next answer fixed. -/
def idle (v : Verdict) : State := { State.reset with id := 1, addr := 0x38, count := 2, verdict := some v }

/-- `IDLE`, the operands of the source's move (V3), an `ACKLEN` as given. -/
def moveIdle (k : BitVec 9) : State :=
  { idle .ok with
    addr := 42, dlen := 6, acklen := k, txdata := Memory.ofBytes 0 [0x00, 0x08, 0x00, 0x00, 0xE8, 0x03] }

/-- `IDLE` with `DLEN` as given and every data byte it names 0. -/
def dataIdle (n : Byte) : State := { idle .ok with dlen := n }

/-- `IDLE` with a byte waiting and a payload on show: what a command must clear or keep. -/
def stale : State := { idle .ok with rxq := [0x55], err := .checksum, done := true, rxcnt := 8, elapsed := 7 }

/-- `WAIT` for the 8 bytes of a READ of 2. -/
def waitRead (e : BitVec 16) (q : List Byte) : State :=
  { idle .ok with phase := .wait, lOp := 1, lValidate := true, lN := 8, lCount := 2, elapsed := e, rxq := q }

/-- `WAIT` for a 6-byte acknowledgement of a WRITE. -/
def waitAck (e : BitVec 16) (q : List Byte) : State :=
  { idle .ok with phase := .wait, lOp := 2, lN := 6, elapsed := e, rxq := q }

/-- `COLLECT` of the same READ, with the first `n` bytes of its response in `RXBUF`. -/
def collectRead (n : BitVec 9) (e : BitVec 16) (resp : List Byte) : State :=
  { waitRead e [] with phase := .collect, rxcnt := n, rxbuf := Memory.ofBytes 0 (resp.take n.toNat) }

/-- `COLLECT` of the same acknowledgement. -/
def collectAck (n : BitVec 9) (e : BitVec 16) : State := { waitAck e [] with phase := .collect, rxcnt := n }

/-- V5's first response, and its first failing one. -/
def goodResp : List Byte := [0xFF, 0xFF, 0x01, 0x04, 0x00, 0x00, 0x08, 0xF2]
def badResp : List Byte := [0xFF, 0xFF, 0x01, 0x04, 0x00, 0x01, 0x08, 0xF2]

/-- A finished READ with `goodResp` collected. -/
def readDone (resp : List Byte) : State :=
  { waitRead 0 [] with phase := .collect, rxcnt := 8, rxbuf := Memory.ofBytes 0 resp }

/-- The next state of an outcome, for the tests. -/
def next? (o : Outcome) : Option State :=
  match o with
  | .next s => some s
  | _       => none

/-- The bytes of `TXFRAME` below `TXLEN`, as the host reads them. -/
def frameOut (s : State) : List Byte := s.txframe.slice 0 s.txlen.toNat

/-! ### WellFormed refuses -/

theorem test_wellformed_refuses_253_data_bytes :
    (CommandFrame.mk 1 (.write 0 (List.replicate 253 0))).wellFormed = false ∧
      (CommandFrame.mk 1 (.write 0 (List.replicate 252 0))).wellFormed = true := by decide +kernel

theorem test_wellformed_refuses_fractional_ticks :
    Config.wellFormed { Config.standard with pollMs := 3 } = false ∧
      Config.wellFormed { Config.standard with pollMs := 0 } = false ∧
      Config.wellFormed { Config.standard with respTimeoutMs := 0 } = false ∧
      Config.wellFormed { Config.standard with rdTimeoutMs := 0 } = false := by decide

theorem test_wellformed_refuses_a_deadline_above_65535 :
    Config.wellFormed { Config.standard with rdTimeoutMs := 65536 } = false ∧
      Config.wellFormed { Config.standard with rdTimeoutMs := 65535 } = true := by decide

theorem test_wellformed_refuses_equal_codes_and_a_small_queue :
    Config.wellFormed { Config.standard with opWrite := 0x02 } = false ∧
      Config.wellFormed { Config.standard with opAction := 0x03 } = false ∧
      Config.wellFormed { Config.standard with rxqCap := 260 } = false ∧ Config.standard.wellFormed = true := by decide

/-! ### Decoding, with the words written out from R85 and R88 -/

theorem test_decode_host_words :
    decodeTableWord 16 0b0000000000000001 = some .cmdRead ∧ decodeTableWord 16 0b0000000000000010 = some .cmdWrite ∧
      decodeTableWord 16 0b0000000000000011 = some .cmdAction ∧
      decodeTableWord 16 0b0000000000000101 = some .cmdBuildRead ∧
      decodeTableWord 16 0b0000000000000110 = some .cmdBuildWrite ∧
      decodeTableWord 16 0b0000000000000111 = some .cmdBuildAction := by decide

theorem test_decode_wire_bytes :
    decodeTableWord 8 0b00000010 = some .read ∧ decodeTableWord 8 0b00000011 = some .write ∧
      decodeTableWord 8 0b00000101 = some .action := by decide

/-- R89, R87 and V6's illegal values, each refused under its own name. -/
theorem test_decode_refuses_by_name :
    (match decodeHost 0x0000 with | .error .opZero => true | _ => false) = true ∧
      (match decodeHost 0x0004 with | .error .opZero => true | _ => false) = true ∧
      (match decodeHost 0x0008 with | .error .reservedBits => true | _ => false) = true ∧
      (match decodeHost 0x8001 with | .error .reservedBits => true | _ => false) = true ∧
      (match decodeWire Config.standard 0x01 with | .error .unknownInstr => true | _ => false) = true ∧
      decodeTableWord 24 1 = none := by decide

/-- V2, V3, V4: whole frames decode to their operands. -/
theorem test_decode_frames :
    (decodeFrame Config.standard [0xFF, 0xFF, 0x01, 0x04, 0x02, 0x38, 0x02, 0xBE]).toOption =
        some (⟨1, .read 0x38 2⟩, []) ∧
      (decodeFrame Config.standard [0xFF, 0xFF, 0x01, 0x04, 0x03, 0x28, 0x01, 0xCE, 0x77]).toOption =
        some (⟨1, .write 0x28 [1]⟩, [0x77]) ∧
      (decodeFrame Config.standard [0xFF, 0xFF, 0xFE, 0x02, 0x05, 0xFA]).toOption = some (⟨0xFE, .action⟩, []) := by
  decide

theorem test_decode_refuses_bad_frames :
    (match decodeFrame Config.standard [0xFE, 0xFF, 1, 2, 5, 0xF7] with | .error .badHeader => true | _ => false) = true ∧
      (match decodeFrame Config.standard [0xFF, 0xFF, 1, 2, 5, 0xF8] with | .error .badChecksum => true | _ => false) = true ∧
      (match decodeFrame Config.standard [0xFF, 0xFF, 1, 2, 5] with | .error .truncated => true | _ => false) = true ∧
      (match decodeFrame Config.standard [0xFF, 0xFF, 1, 2, 1, 0xFB] with | .error .unknownInstr => true | _ => false) = true ∧
      (match decodeFrame Config.standard [0xFF, 0xFF, 1, 1, 0xFD] with | .error .badLength => true | _ => false) = true ∧
      (match decodeFrame Config.standard [0xFF, 0xFF, 1, 3, 5, 0, 0xF6] with | .error .badLength => true | _ => false) =
        true := by decide

/-! ### Checksum and frames (V1 to V4) -/

theorem test_checksum_vectors :
    ck [] = 0xFF ∧ ck [0x00] = 0xFF ∧ ck [0xFF] = 0x00 ∧ ck [0x01, 0x04, 0x02, 0x38, 0x02] = 0xBE ∧
      ck [0xF9, 0x02, 0x05] = 0xFF ∧ ck [0xF8, 0x02, 0x05] = 0x00 ∧ ck [0xFF, 0xFF, 0xFF] = 0x02 ∧
      ck [0xFF, 0xFF, 0xFF, 0xFF, 0xFF] = 0x04 := by decide

theorem test_read_frame_all_ones :
    buildFrame .read { State.reset with id := 0xFF, addr := 0xFF, count := 0xFF } =
      [0xFF, 0xFF, 0xFF, 0x04, 0x02, 0xFF, 0xFF, 0xFC] := by decide

theorem test_write_frame_full_length :
    (buildFrame .write { State.reset with
        id := 0xFF, addr := 0xFF, dlen := 252, txdata := Memory.ofBytes 0 (List.replicate 252 0xFF) }).length = 259 ∧
      (buildFrame .write { State.reset with
        id := 0xFF, addr := 0xFF, dlen := 252, txdata := Memory.ofBytes 0 (List.replicate 252 0xFF) }).getD 258 0 =
          0xFB := by decide +kernel

/-! ### One step of each instruction -/

theorem test_read_stores_its_frame :
    (next? (step ((idle .ok).withFetchWord 8 0x02))).map frameOut =
      some [0xFF, 0xFF, 0x01, 0x04, 0x02, 0x38, 0x02, 0xBE] := by decide

theorem test_write_stores_its_frame :
    (next? (step ({ idle .ok with addr := 5 }.withFetchWord 8 0x03))).map frameOut =
      some [0xFF, 0xFF, 0x01, 0x03, 0x03, 0x05, 0xF3] := by decide

theorem test_write_refuses_253_bytes :
    (next? (exec .write (dataIdle 253))).map (fun s => (statusWord s, s.txlen)) = some (0x0016, 0) := by decide

theorem test_action_stores_its_frame :
    (next? (step ((idle .ok).withFetchWord 8 0x05))).map frameOut = some [0xFF, 0xFF, 0x01, 0x02, 0x05, 0xF7] := by
  decide

/-- R135's example: the frame goes out, the block waits for 8 bytes, stale bytes are gone. -/
theorem test_cmdRead_emits_and_waits :
    (next? (step (stale.withFetchWord 16 0x0001))).map (fun s => (s.emitted, statusWord s, s.lN, s.rxq, s.rxcnt)) =
      some ([[0xFF, 0xFF, 0x01, 0x04, 0x02, 0x38, 0x02, 0xBE]], 0x0041, 8, [], 0) := by decide

/-- V6: verdict `io_error`; R202: `ELAPSED` is as before. -/
theorem test_cmdRead_io_error :
    (next? (exec .cmdRead { stale with verdict := some .ioError })).map
        (fun s => (statusWord s, s.rxcnt, s.elapsed, frameOut s)) =
      some (0x000E, 0, 7, [0xFF, 0xFF, 0x01, 0x04, 0x02, 0x38, 0x02, 0xBE]) := by decide

/-- R136's example. -/
theorem test_cmdWrite_emits_the_move :
    (next? (step ((moveIdle 6).withFetchWord 16 0x0002))).map (fun s => (s.emitted, statusWord s, s.lN)) =
      some ([[0xFF, 0xFF, 0x01, 0x09, 0x03, 0x2A, 0x00, 0x08, 0x00, 0x00, 0xE8, 0x03, 0xD5]], 0x0041, 6) := by decide

/-- V6: `ACKLEN` 262 is `ARG`, 261 is legal. -/
theorem test_cmdWrite_acklen_bound :
    (next? (exec .cmdWrite (moveIdle 262))).map statusWord = some 0x0016 ∧
      (next? (exec .cmdWrite (moveIdle 261))).map (fun s => (statusWord s, s.lN)) = some (0x0041, 261) := by decide

/-- R137's example. -/
theorem test_cmdAction_emits :
    (next? (step ((idle .ok).withFetchWord 16 0x0003))).map (fun s => (s.emitted, statusWord s, s.lN)) =
      some ([[0xFF, 0xFF, 0x01, 0x02, 0x05, 0xF7]], 0x0041, 6) := by decide

theorem test_cmdAction_acklen_bound :
    (next? (exec .cmdAction { idle .ok with acklen := 262 })).map statusWord = some 0x0016 := by decide

/-- R138's example: all operands 0, nothing flushed, nothing emitted. -/
theorem test_cmdBuildRead_builds_only :
    (next? (step ({ State.reset with rxq := [0x55] }.withFetchWord 16 0x0005))).map
        (fun s => (frameOut s, statusWord s, s.rxq, s.emitted)) =
      some ([0xFF, 0xFF, 0x00, 0x04, 0x02, 0x00, 0x00, 0xF9], 0x0002, [0x55], []) := by decide

/-- R139's example, and V6: `ACKLEN` 511 is not checked for a build. -/
theorem test_cmdBuildWrite_ignores_acklen :
    (next? (step ({ idle .ok with addr := 5, acklen := 511 }.withFetchWord 16 0x0006))).map
        (fun s => (frameOut s, statusWord s)) =
      some ([0xFF, 0xFF, 0x01, 0x03, 0x03, 0x05, 0xF3], 0x0002) := by decide

/-- R140's example. -/
theorem test_cmdBuildAction_builds_only :
    (next? (step ({ State.reset with id := 0xFE }.withFetchWord 16 0x0007))).map
        (fun s => (frameOut s, statusWord s)) =
      some ([0xFF, 0xFF, 0xFE, 0x02, 0x05, 0xFA], 0x0002) := by decide

/-- A wire instruction is run by its `BUILD` (R92, R102); a byte that names none is placed as nothing (R87). -/
theorem test_wire_row_is_placed_as_its_build :
    (State.reset.withFetchWord 8 0x03).host = [.write 0x000 0x0006] ∧
      (State.reset.withFetchWord 8 0x01).events = [] := by decide

/-! ### The engine (V5, V6) -/

theorem test_whole_response_at_once :
    (next? (deliver .tick (waitRead 2 goodResp))).map
        (fun s => (statusWord s, s.rxcnt, s.elapsed, memRead 0x400 s, memRead 0x401 s, memRead 0x402 s)) =
      some (0x0022, 8, 0, 0x0000, 0x0008, 0x0000) := by decide

theorem test_bad_checksum_shows_no_payload :
    (next? (deliver .tick (waitRead 2 badResp))).map (fun s => (statusWord s, memRead 0x401 s)) =
      some (0x000A, 0x0000) := by decide

theorem test_timeout_at_the_thousandth_tick :
    (next? (deliver .tick (waitRead 998 []))).map (fun s => (statusWord s, s.elapsed)) = some (0x0041, 999) ∧
      (next? (deliver .tick (waitRead 999 []))).map (fun s => (statusWord s, s.elapsed)) = some (0x0006, 1000) ∧
      (next? (deliver .tick (waitRead 999 [0xFF]))).map (fun s => (statusWord s, s.rxcnt, s.elapsed)) =
        some (0x0081, 1, 0) := by decide

theorem test_short_read_and_short_acknowledgement :
    (next? (deliver .tick (collectRead 3 1999 goodResp))).map (fun s => (statusWord s, s.rxcnt, s.elapsed)) =
        some (0x0012, 3, 2000) ∧
      (next? (deliver .tick (collectAck 1 1999))).map (fun s => (statusWord s, s.rxcnt, s.elapsed)) =
        some (0x0002, 1, 2000) := by decide

theorem test_read_failure :
    (next? (deliver .rxError (waitRead 5 []))).map (fun s => (statusWord s, s.elapsed)) = some (0x000E, 5) ∧
      (next? (deliver .rxError (idle .ok))).map statusWord = some 0x0000 := by decide

/-! ### The host port (V7) and the host side (V8) -/

theorem test_csr_accesses :
    (next? (memWrite 0x002 0x1234 State.reset)).map (memRead 0x002) = some 0x0034 ∧
      (next? (memWrite 0x006 0xFFFF State.reset)).map (memRead 0x006) = some 0x01FF ∧
      (next? (memWrite 0x001 0xFFFF State.reset)).map (memRead 0x001) = some 0x0000 ∧
      (next? (memWrite 0x00A 0x1234 State.reset)).map (memRead 0x00A) = some 0x0000 ∧
      (next? (memWrite 0x1FC 0x0012 State.reset)).map (memRead 0x1FC) = some 0x0000 ∧
      memRead 0x006 State.reset = 0x0006 := by decide

/-- R92: `WAITDONE` reads `STATUS` again and again until `DONE` is 1. -/
theorem test_waitdone_stays_until_done :
    (next? (hostTurn { waitRead 0 [] with host := [.waitDone] })).map (fun s => (s.host, s.reads)) =
        some ([.waitDone], [0x0041]) ∧
      (next? (hostTurn { State.reset with done := true, host := [.waitDone] })).map (fun s => (s.host, s.reads)) =
        some ([], [0x0002]) := by decide

theorem test_scale_is_division_not_multiplication :
    scale .presentLoad 3 = .float (Binary64.ofBits 0x3FD3333333333333) ∧
      scale .presentLoad 255 = .float (Binary64.ofBits 0x4039800000000000) ∧
      scale .presentVoltage 120 = .float (Binary64.ofBits 0x4028000000000000) ∧
      scale .movingStatus 2 = .boolean false := by decide +kernel

/-- V8: angles 0, 1, 90, and 93 I9's angle one ulp below -31.9921875. -/
theorem test_angle_vectors :
    (angleToPosition (Binary64.ofBits 0x0000000000000000)).toOption = some 2048 ∧
      (angleToPosition (Binary64.ofBits 0x3FF0000000000000)).toOption = some 2070 ∧
      (angleToPosition (Binary64.ofBits 0x4056800000000000)).toOption = some 4095 ∧
      (angleToPosition (Binary64.ofBits 0xC03FFE0000000001)).toOption = some 1320 ∧
      (angleToPosition (Binary64.ofBits 0x4056C00000000000)).toOption = none := by decide +kernel

/-- S11: a move with no answer fails with TimeoutError; a late or garbage answer is enough for success (R115). -/
theorem test_move_results :
    (next? (deliver .tick (waitAck 999 []))).map moveResult = some (.raised .timeoutError) ∧
      (next? (deliver .tick (collectAck 1 1999))).map moveResult = some (.value ()) ∧
      (next? (deliver .rxError (waitAck 0 []))).map moveResult = some (.raised .ioError) ∧
      rotateToPositionResult 1 4096 0 (idle .ok) = .raised .rangeError := by decide

/-- R103's request for `PRESENT_POSITION`, from the host's accesses: `XREAD 1, 56, 2`, then two payload bytes. -/
theorem test_read_program_of_presentPosition :
    readProgram 1 .presentPosition =
      [.write 0x002 1, .write 0x003 56, .write 0x004 2, .write 0x000 0x0001, .waitDone, .read 0x400, .read 0x401] := by
  decide

/-! ### Witnesses: a concrete state and operands for the hypotheses of each obligation -/

theorem standard_ticks : Config.standard.respTicks = 1000 ∧ Config.standard.rdTicks = 2000 := by decide

theorem latch_read : (8 : BitVec 9).toNat ≤ maxResp ∧ (true = true → (8 : BitVec 9).toNat = 6 + (2 : Byte).toNat) ∧
    (true = false → (2 : Byte) = 0) := by decide

theorem latch_ack (n : BitVec 9) (h : n.toNat ≤ maxResp) :
    n.toNat ≤ maxResp ∧ (false = true → n.toNat = 6 + (0 : Byte).toNat) ∧ (false = false → (0 : Byte) = 0) :=
  ⟨h, by simp, by simp⟩

theorem elapsed_fits {e : BitVec 16} (he : e.toNat < 2000) :
    e.toNat ≤ max Config.standard.respTicks Config.standard.rdTicks := by
  have := standard_ticks
  omega

/-- Any state in flight of the helpers' shape meets the invariant. -/
theorem waitRead_inv (e : BitVec 16) (q : List Byte) (he : e.toNat < 1000) (hq : q.length ≤ 4096) :
    StateInv (waitRead e q) :=
  ⟨(by decide : Config.standard.accepted = true), rfl, rfl, .inl rfl, rfl, hq, latch_read,
    elapsed_fits (e := e) (Nat.lt_of_lt_of_le he (by decide)), fun _ => ⟨rfl, standard_ticks.1 ▸ he⟩, nofun, fun _ => ⟨rfl, rfl, rfl⟩, nofun,
    fun h => absurd rfl h, trivial⟩

theorem waitAck_inv (e : BitVec 16) (q : List Byte) (he : e.toNat < 1000) (hq : q.length ≤ 4096) :
    StateInv (waitAck e q) :=
  ⟨(by decide : Config.standard.accepted = true), rfl, rfl, .inl rfl, rfl, hq, latch_ack 6 (by decide),
    elapsed_fits (e := e) (Nat.lt_of_lt_of_le he (by decide)), fun _ => ⟨rfl, standard_ticks.1 ▸ he⟩, nofun, fun _ => ⟨rfl, rfl, rfl⟩, nofun,
    fun h => absurd rfl h, trivial⟩

theorem collectRead_inv (n : BitVec 9) (e : BitVec 16) (he : e.toNat < 2000) (h1 : 1 ≤ n.toNat) (h2 : n.toNat < 8) :
    StateInv (collectRead n e goodResp) := by
  refine ⟨(by decide : Config.standard.accepted = true), rfl, rfl, .inl rfl, ?_, Nat.zero_le _, latch_read,
    elapsed_fits he, nofun, fun _ => ⟨rfl, h1, h2, standard_ticks.2 ▸ he⟩, fun _ => ⟨rfl, rfl, rfl⟩, nofun,
    fun h => absurd rfl h, trivial⟩
  refine (Memory.good_iff _ _).2 ⟨Memory.wf_ofBytes 0 _, Memory.below_mono (Memory.below_ofBytes _) ?_⟩
  simp [goodResp, maxResp]

theorem collectAck_inv (n : BitVec 9) (e : BitVec 16) (he : e.toNat < 2000) (h1 : 1 ≤ n.toNat) (h2 : n.toNat < 6) :
    StateInv (collectAck n e) :=
  ⟨(by decide : Config.standard.accepted = true), rfl, rfl, .inl rfl, rfl, Nat.zero_le _, latch_ack 6 (by decide),
    elapsed_fits he, nofun, fun _ => ⟨rfl, h1, h2, standard_ticks.2 ▸ he⟩, fun _ => ⟨rfl, rfl, rfl⟩, nofun,
    fun h => absurd rfl h, trivial⟩

theorem idle_inv (v : Verdict) : StateInv (idle v) :=
  ⟨(by decide : Config.standard.accepted = true), rfl, rfl, .inl rfl, rfl, Nat.zero_le _, latch_ack 0 (by decide),
    Nat.zero_le _, nofun, nofun, fun h => absurd rfl h, nofun, fun h => absurd rfl h, trivial⟩

theorem witness_WireInstructionBytesDecode :
    Config.standard.codesDistinct = true ∧ (0x01 : Byte) ≠ 0x02 ∧ (0x01 : Byte) ≠ Config.standard.opWrite ∧
      (0x01 : Byte) ≠ Config.standard.opAction := by decide

theorem witness_DecodeOfEncodeIsTheInstruction : Config.standard.codesDistinct = true := by decide

theorem witness_CommandFrameDecodesToItself :
    Config.standard.codesDistinct = true ∧ (CommandFrame.mk 0xFF (.write 0 (List.replicate 252 0xFF))).wellFormed = true ∧
      (CommandFrame.mk 1 (.read 0xFF 0xFF)).wellFormed = true ∧ (CommandFrame.mk 1 .action).wellFormed = true := by decide +kernel

theorem witness_AcceptedBytesAreTheFramesEncoding :
    decodeFrame Config.standard [0xFF, 0xFF, 0x01, 0x02, 0x05, 0xF7, 0x33] = .ok (⟨1, .action⟩, [0x33]) := by rfl

theorem witness_StepRunsTheDecodedInstruction :
    (State.reset.withFetchWord 16 1).cfg.accepted = true ∧ (State.reset.withFetchWord 16 1).events = [.host] ∧
      (State.reset.withFetchWord 16 1).host = [.write 0x000 1] ∧
      decode Config.standard (.host 1) = .ok .cmdRead :=
  ⟨by decide, rfl, rfl, rfl⟩

theorem witness_PlacedTableWordRunsNext :
    State.reset.cfg.accepted = true ∧ State.reset.cfg.opWrite = 0x03 ∧ State.reset.cfg.opAction = 0x05 ∧
      decodeTableWord 16 7 = some .cmdBuildAction ∧ decodeTableWord 8 3 = some .write ∧
      State.reset.phase = .idle ∧ (waitRead 0 []).phase ≠ .idle := by decide

theorem witness_StepNeedsAnEventAndAnAcceptedConfiguration :
    State.reset.cfg.accepted = true ∧ State.reset.events = [] ∧
      Config.accepted { Config.standard with pollMs := 3 } = false := by decide

theorem witness_ChecksumIsTheInvertedSumInAnyOrder :
    ([0x01, 0x04] : List Byte).Perm [0x04, 0x01] ∧
      (([0xF9, 0x02, 0x05] : List Byte).map BitVec.toNat).sum % 256 = 0 ∧
      (([0xF8, 0x02, 0x05] : List Byte).map BitVec.toNat).sum % 256 = 255 :=
  ⟨List.Perm.swap 4 1 [], by decide, by decide⟩

theorem witness_BuiltFramesPassTheirOwnChecksum :
    dataTooLong .write (dataIdle 252) = false ∧ 6 ≤ (waitAck 0 []).lN.toNat := by decide

theorem witness_ReadFrameBytes : (idle .ok).id = 1 ∧ (idle .ok).addr = 56 ∧ (idle .ok).count = 2 := by decide

theorem witness_WriteFrameBytes :
    (dataIdle 252).dlen.toNat ≤ 252 ∧ 252 < (dataIdle 253).dlen.toNat ∧
      (∀ i < (dataIdle 2).dlen.toNat, (Memory.ofBytes 0 [0, 0, 9]).read i = (dataIdle 2).txdata.read i) ∧
      (moveIdle 6).cfg.opWrite = 0x03 ∧ (moveIdle 6).id = 1 ∧ (moveIdle 6).addr = 42 ∧ (moveIdle 6).dlen = 6 ∧
      (moveIdle 6).txdata.slice 0 6 = [0x00, 0x08, 0x00, 0x00, 0xE8, 0x03] := by decide

theorem witness_ActionFrameBytes :
    (idle .ok).cfg.opAction = 0x05 ∧ (idle .ok).id = 1 ∧ ({ idle .ok with id := 0xF9 } : State).id = 0xF9 := by decide

theorem witness_LengthByteFitsTheFrame :
    dataTooLong .write (dataIdle 252) = false ∧ dataTooLong .read (dataIdle 253) = false := by decide

theorem witness_AcceptedCommandStoresItsFrame :
    (dataIdle 252).phase = .idle ∧ illegalOperands .write false (dataIdle 252) = false ∧
      illegalOperands .write true { dataIdle 252 with acklen := 511 } = false ∧
      (buildFrame .write (dataIdle 252)).length ≤ 259 ∧ (buildFrame .action (idle .ok)).length ≤ 258 := by decide +kernel

theorem witness_WireInstructionsStoreTheirFrame :
    (dataIdle 252).phase = .idle ∧ (dataIdle 252).dlen.toNat ≤ 252 ∧ (waitRead 0 []).phase ≠ .idle ∧
      252 < (dataIdle 253).dlen.toNat := by decide

theorem witness_CmdReadCompletes :
    (idle .ok).phase = .idle ∧ nextVerdict (idle .ok) = .ok ∧ nextVerdict (idle .ioError) = .ioError := by decide

theorem witness_CmdWriteCompletes :
    (moveIdle 261).phase = .idle ∧ (moveIdle 261).dlen.toNat ≤ 252 ∧ (moveIdle 261).acklen.toNat ≤ 261 ∧
      nextVerdict (moveIdle 261) = .ok ∧ nextVerdict { moveIdle 0 with verdict := some .ioError } = .ioError ∧
      252 < (dataIdle 253).dlen.toNat ∧ 261 < (moveIdle 262).acklen.toNat := by decide

theorem witness_CmdActionCompletes :
    (idle .ok).phase = .idle ∧ ({ idle .ok with acklen := 261 } : State).acklen.toNat ≤ 261 ∧
      nextVerdict (idle .ok) = .ok ∧ nextVerdict (idle .ioError) = .ioError ∧ 261 < (moveIdle 262).acklen.toNat := by
  decide

theorem witness_BuildOnlyCommandsComplete :
    (dataIdle 252).phase = .idle ∧ (dataIdle 252).dlen.toNat ≤ 252 ∧ 252 < (dataIdle 253).dlen.toNat := by decide

theorem witness_BusyIgnoresEveryCommand : (waitRead 0 []).phase ≠ .idle ∧ (collectAck 1 0).phase ≠ .idle := by decide

theorem witness_CommandWriteIsTheAcceptOfTheRule : (idle .ok).phase = .idle := by decide

theorem witness_ExactlyTheIllegalCommandsEndArg :
    (moveIdle 262).phase = .idle ∧ illegalValue 2 (moveIdle 262) = true ∧ illegalValue 2 (moveIdle 261) = false ∧
      illegalValue 6 (dataIdle 253) = true ∧ illegalValue 6 (dataIdle 252) = false ∧ illegalValue 8 (idle .ok) = true := by
  decide

theorem witness_EveryOtherCmdValueIsIllegal :
    (0x8001 : Word) ∉ ([0x0001, 0x0002, 0x0003, 0x0005, 0x0006, 0x0007] : List Word) ∧ (idle .ok).phase = .idle := by
  decide

theorem witness_ArrivingByteIsQueuedOrDropped :
    ((idle .ok).phase = .idle ∧ (idle .ok).rxq.length < (idle .ok).cfg.rxqCap) ∧
      ((waitRead 0 [1, 2]).phase = .wait ∧
        ({ waitRead 0 [1, 2] with cfg := { Config.standard with rxqCap := 2 } } : State).cfg.rxqCap ≤
          (waitRead 0 [1, 2]).rxq.length) := by decide

/-- The four outcomes of a tick in `WAIT`, each at the boundary of its range. -/
theorem witness_WaitTickOutcomes :
    (StateInv (waitRead 998 []) ∧ (waitRead 998 []).elapsed.toNat + 1 < (waitRead 998 []).cfg.respTicks) ∧
      (StateInv (waitRead 999 []) ∧ (waitRead 999 []).elapsed.toNat + 1 = (waitRead 999 []).cfg.respTicks) ∧
      (StateInv (waitRead 999 (goodResp.take 7)) ∧
        (waitRead 999 (goodResp.take 7)).rxq.length < (waitRead 999 (goodResp.take 7)).lN.toNat) ∧
      (StateInv (waitRead 0 goodResp) ∧ (waitRead 0 goodResp).lN.toNat ≤ (waitRead 0 goodResp).rxq.length) ∧
      StateInv (waitAck 0 (goodResp.take 6)) ∧
        (waitAck 0 (goodResp.take 6)).lN.toNat ≤ (waitAck 0 (goodResp.take 6)).rxq.length :=
  ⟨⟨waitRead_inv _ _ (by decide) (by decide), by decide⟩, ⟨waitRead_inv _ _ (by decide) (by decide), by decide⟩,
    ⟨waitRead_inv _ _ (by decide) (by decide), by decide⟩, ⟨waitRead_inv _ _ (by decide) (by decide), by decide⟩,
    waitAck_inv _ _ (by decide) (by decide), by decide⟩

/-- Both outcomes of a check come about. -/
theorem witness_check_passes_and_fails :
    validate (readDone goodResp) = true ∧ validate (readDone badResp) = false := by decide

theorem witness_CollectedByteOutcomes :
    (StateInv (collectRead 6 0 goodResp) ∧ (collectRead 6 0 goodResp).rxcnt.toNat + 1 < (collectRead 6 0 goodResp).lN.toNat) ∧
      (StateInv (collectRead 7 0 goodResp) ∧
        (collectRead 7 0 goodResp).rxcnt.toNat + 1 = (collectRead 7 0 goodResp).lN.toNat) ∧
      StateInv (collectAck 5 0) ∧ (collectAck 5 0).rxcnt.toNat + 1 = (collectAck 5 0).lN.toNat :=
  ⟨⟨collectRead_inv _ _ (by decide) (by decide) (by decide), by decide⟩,
    ⟨collectRead_inv _ _ (by decide) (by decide) (by decide), by decide⟩,
    collectAck_inv _ _ (by decide) (by decide) (by decide), by decide⟩

theorem witness_CollectTickOutcomes :
    (StateInv (collectRead 1 1998 goodResp) ∧
        (collectRead 1 1998 goodResp).elapsed.toNat + 1 < (collectRead 1 1998 goodResp).cfg.rdTicks) ∧
      (StateInv (collectRead 7 1999 goodResp) ∧
        (collectRead 7 1999 goodResp).elapsed.toNat + 1 = (collectRead 7 1999 goodResp).cfg.rdTicks) ∧
      StateInv (collectAck 1 1999) ∧ (collectAck 1 1999).lValidate = false :=
  ⟨⟨collectRead_inv _ _ (by decide) (by decide) (by decide), by decide⟩,
    ⟨collectRead_inv _ _ (by decide) (by decide) (by decide), by decide⟩,
    collectAck_inv _ _ (by decide) (by decide) (by decide), by decide⟩

theorem witness_IdleTickAndReadFailure : (idle .ok).phase = .idle ∧ (collectAck 1 0).phase ≠ .idle := by decide

theorem witness_ValidatorJudgesTheChecksumOnly :
    6 ≤ (readDone goodResp).lN.toNat ∧ (readDone goodResp).rxbuf.wf = true ∧
      (readDone (0x00 :: goodResp.tail)).lN = (readDone goodResp).lN ∧
      ∀ i < (readDone goodResp).lN.toNat, 2 ≤ i →
        (readDone (0x00 :: goodResp.tail)).rxbuf.read i = (readDone goodResp).rxbuf.read i := by decide

theorem witness_OneChangedByteFailsTheCheck :
    (readDone goodResp).rxbuf.wf = true ∧ (readDone goodResp).lValidate = true ∧ 6 ≤ (readDone goodResp).lN.toNat ∧
      (readDone goodResp).lN.toNat ≤ 261 ∧ validate (readDone goodResp) = true ∧ 7 < (readDone goodResp).lN.toNat ∧
      (0xF3 : Byte) ≠ (readDone goodResp).rxbuf.read 7 ∧ (0x00 : Byte) ≠ (readDone goodResp).rxbuf.read 2 := by decide

theorem witness_PortReadsBackWhatWasWritten :
    (idle .ok).txdata.wf = true ∧ (next? (memWrite 0x1FB 0x1234 (idle .ok))).isSome = true ∧
      (next? (memWrite 0x1FC 0x1234 (idle .ok))).isSome = true := by decide

theorem witness_ByteStoreLaws : Memory.wf [(0, 1), (251, 0xFF)] = true ∧ Memory.wf [] = true := by decide

/-- A step from a state of the invariant and with a whole frame stored. -/
theorem witness_StepKeepsTheInvariant :
    StateInv { waitRead 0 goodResp with events := [.tick] } ∧ FrameIntact { waitRead 0 goodResp with events := [.tick] } ∧
      (next? (step { waitRead 0 goodResp with events := [.tick] })).isSome = true :=
  ⟨inv_outside (waitRead_inv 0 goodResp (by decide) (by decide)) _ _ _ _ _, .inl rfl, by decide⟩

theorem witness_StepKeepsTheStoredFrameIntact :
    FrameIntact { idle .ok with txlen := 6, txframe := Memory.ofBytes 0 [0xFF, 0xFF, 0x01, 0x02, 0x05, 0xF7] } :=
  .inr (by decide)

theorem witness_InvariantStatesNeverFault :
    StateInv { idle .ok with events := [.host], host := [.write 0x000 0x8001] } :=
  inv_outside (idle_inv .ok) _ _ _ _ _

theorem witness_PhaseFollowsTheTransitionTable :
    (next? (deliver .tick (waitRead 0 goodResp))).map (fun t => t.phase) = some .idle ∧
      (next? (deliver .tick (waitRead 0 [1]))).map (fun t => t.phase) = some .collect ∧
      (next? (deliver .rxError (waitRead 0 []))).map (fun t => t.phase) = some .idle := by decide

theorem witness_OutcomeStaysUntilTheNextCommand :
    stale.phase = .idle ∧ stale.done = true ∧ commandNext { stale with host := [.write 2 7] } = false ∧
      (next? (deliver .host { stale with host := [.write 2 7] })).isSome = true ∧
      (next? (deliver (.rx 1) stale)).isSome = true := by decide

theorem witness_OnlyAnAcceptedCommandEmits :
    (next? (deliver .host { idle .ok with host := [.write 0 1] })).map (fun t => t.emitted.length) = some 1 := by decide

theorem witness_AcknowledgementsAreNotJudged :
    StateInv (waitAck 999 []) ∧ (waitAck 999 []).phase ≠ .idle ∧ (waitAck 999 []).lValidate = false ∧
      (next? (deliver .tick (waitAck 999 []))).map (fun t => t.err) = some .timeout :=
  ⟨waitAck_inv _ _ (by decide) (by decide), by decide, rfl, by decide⟩

theorem witness_NoHostAccessEndsATransaction :
    (waitRead 0 []).phase ≠ .idle ∧
      (next? (hostTurn { waitRead 0 [] with host := [.write 0 3] })).isSome = true := by decide

theorem witness_OperandWritesDoNotReachTheTransaction :
    (∀ l ∈ ([.w 2 9, .rx [1], .tick 1, .r 1, .rxerr] : List Line), l.quiet = true) ∧
      (next? (runLines [.w 2 9, .rx [1], .tick 1, .r 1, .rxerr] (waitRead 0 []))).isSome = true := by decide

theorem witness_EveryTransactionEnds :
    StateInv { waitRead 0 [] with events := List.replicate 3000 .tick } ∧ (waitRead 0 []).phase ≠ .idle ∧
      (waitRead 0 []).cfg.respTicks + (waitRead 0 []).cfg.rdTicks ≤ 3000 :=
  ⟨inv_outside (waitRead_inv 0 [] (by decide) (by decide)) _ _ _ _ _, by decide, by decide⟩

theorem tickCount_replicate (n : Nat) : tickCount (List.replicate n .tick) = n := by
  induction n with
  | zero => rfl
  | succ n ih => simp only [List.replicate_succ, tickCount, ih]; simp; omega

/-- One state for each clause: the first and the last tick it speaks of. -/
theorem witness_TimeoutComesAtExactlyTheDeadline :
    StateInv { waitRead 0 [] with events := List.replicate 1000 .tick ++ [.rx 1] } ∧ (waitRead 0 []).phase = .wait ∧
      (waitRead 0 []).elapsed = 0 ∧ (waitRead 0 []).rxq = [] ∧ 999 < (waitRead 0 []).cfg.respTicks ∧
      1000 ≤ (waitRead 0 []).cfg.respTicks ∧ 1 ≤ (waitRead 0 []).cfg.rxqCap ∧ 2 ≤ (waitRead 0 []).lN.toNat ∧
      StateInv { waitRead 0 [] with events := List.replicate (1 - 1) .tick ++ [.rx 1, .tick] } :=
  ⟨inv_outside (waitRead_inv 0 [] (by decide) (by decide)) _ _ _ _ _, rfl, rfl, rfl, by decide, by decide, by decide,
    by decide, inv_outside (waitRead_inv 0 [] (by decide) (by decide)) _ _ _ _ _⟩

/-- A response in two parts, and one that comes whole before the tick; passing and failing. -/
theorem witness_ReadResponseIsDeliveredOrRefused :
    StateInv (waitRead 0 []) ∧ (waitRead 0 []).lValidate = true ∧ goodResp.take 3 ≠ [] ∧
      (goodResp.take 3 ++ goodResp.drop 3).length = (waitRead 0 []).lN.toNat ∧
      (goodResp ++ []).length = (waitRead 0 []).lN.toNat ∧ goodResp.length ≤ (waitRead 0 []).cfg.rxqCap ∧
      ck ((goodResp.drop 2).take 5) = goodResp.getD 7 0 ∧ ck ((badResp.drop 2).take 5) ≠ badResp.getD 7 0 :=
  ⟨waitRead_inv 0 [] (by decide) (by decide), rfl, by decide, by decide, by decide, by decide, by decide, by decide⟩

theorem witness_ReadResultFollowsTheOutcome :
    DeviceReg.presentCurrent ≠ .movingStatus ∧ DeviceReg.presentCurrent ≠ .presentLoad ∧
      DeviceReg.presentCurrent ≠ .presentVoltage ∧
      (DeviceReg.presentCurrent, (69 : Word), (2 : Word)) ∈
        ([(.movingStatus, 66, 1), (.presentCurrent, 69, 2)] : List (DeviceReg × Word × Word)) := by decide

theorem witness_ScaledReadingIsTheNearestQuotient :
    (65535 : Nat) ≤ 65535 ∧ (Binary64.finite false (2 ^ 52) 0).canonical = true := by decide

theorem witness_AngleMappingIsMonotonic :
    Binary64.ofBits 0x3FF0000000000000 = .finite false (2 ^ 52) (-52) ∧
      (Binary64.finite false (2 ^ 52) (-52)).canonical = true ∧
      (Binary64.finite false (2 ^ 52) (-52)).lt (.finite false 0 (-1074)) = false ∧
      (angleToPosition (.finite false 0 (-1074))).toOption = some 2048 ∧
      (angleToPosition (.finite false (2 ^ 52) (-52))).toOption = some 2070 := by decide +kernel

theorem witness_RangeChecksComeFirst :
    (angleToPosition (Binary64.ofBits 0x4056800000000000)).toOption = some 4095 ∧
      (Binary64.round false 90 1).lt (Binary64.ofBits 0x4056C00000000000) = true ∧
      (Binary64.ofBits 0xC056C00000000000).lt (Binary64.round true 90 1) = true := by decide +kernel

theorem witness_MoveEmitsTheMoveFrame :
    StateInv { idle .ok with host := moveTo 1 4095 2048, events := List.replicate 11 .host } ∧
      (idle .ok).phase = .idle ∧ nextVerdict (idle .ok) = .ok ∧ (moveTo 1 4095 2048).length = 12 :=
  ⟨inv_outside (idle_inv .ok) _ _ _ _ _, rfl, rfl, by decide⟩

/-- All three rows, a sending command with the largest legal operands, and one that is refused. -/
theorem witness_CommandsRunTheirWireInstruction :
    (dataIdle 252).phase = .idle ∧ illegalOperands .write false { dataIdle 252 with acklen := 261 } = false ∧
      illegalOperands .read false (dataIdle 253) = false ∧ illegalOperands .action false (idle .ok) = false ∧
      illegalOperands .write false (dataIdle 253) = true := by decide

/-- Each clause of the last three at a boundary: the angles, a move in flight that ends, an emit that fails. -/
theorem witness_MoveResultFollowsTheOutcome :
    ((angleToPosition (Binary64.ofBits 0x4056800000000000)).toOption = some 4095 ∧
        (Binary64.round false 90 1).lt (Binary64.ofBits 0x4056C00000000000) = true ∧
        (Binary64.ofBits 0xC056C00000000000).lt (Binary64.round true 90 1) = true) ∧
      (StateInv (waitAck 999 []) ∧ StateInv (collectAck 5 0) ∧ (waitAck 999 []).phase ≠ .idle ∧
        (collectAck 5 0).phase ≠ .idle ∧ (waitAck 999 []).lValidate = false ∧ (collectAck 5 0).lValidate = false) ∧
      (next? (deliver .tick (waitAck 999 []))).map (fun t => t.phase) = some .idle ∧
      (next? (deliver (.rx 0) (collectAck 5 0))).map (fun t => t.phase) = some .idle ∧
      (next? (deliver .rxError (collectAck 5 0))).map (fun t => t.phase) = some .idle ∧
      nextVerdict { moveIdle 261 with verdict := some .ioError } = .ioError ∧
      (moveIdle 261).phase = .idle ∧ (moveIdle 261).dlen.toNat ≤ 252 ∧ (moveIdle 261).acklen.toNat ≤ 261 :=
  ⟨by decide +kernel, ⟨waitAck_inv _ _ (by decide) (by decide), collectAck_inv _ _ (by decide) (by decide) (by decide),
    by decide, by decide, rfl, rfl⟩, by decide⟩

end Sys2Proof.Tests
end

section
/-! PROOFS. Scope: the step on an accepted and on a refused configuration, and the step in which the host writes `CMD`
(R7, R11, R32, R63, R130). -/

namespace Sys2Proof.Machine

/-! ### The step -/

/-- With no event to come a step stutters (log 7). -/
theorem step_no_event {s : State} (hc : s.cfg.accepted = true) (h : s.events = []) : step s = .next s := by
  simp [step, stepChecked, hc, stepEvents, h]

theorem step_not_accepted {s : State} (hc : s.cfg.accepted = false) : step s = .refused .badConfiguration := by
  simp [step, stepChecked, hc]

/-- A host turn whose operation is a write to `CMD` is a command write at the state without that operation. -/
theorem hostTurn_write_cmd {s : State} {v : Word} {ops : List HostOp} (h : s.host = .write 0x000 v :: ops) :
    hostTurn s = commandWrite v { s with host := ops } := by
  simp [hostTurn, h, hostOpStep, memWrite]

theorem commandWrite_of_decode {s : State} {v : Word} {i : Instr} (h : decode s.cfg (.host v) = .ok i) :
    commandWrite v s = exec i s := by
  simp [commandWrite, h]

/-! ### The accepted configurations -/

/-- `Config.accepted` read as a proposition, with R7's whole tick counts as divisibility. -/
theorem accepted_iff (c : Config) : c.accepted = true ↔
    0 < c.pollMs ∧ c.pollMs ∣ c.respTimeoutMs ∧ c.pollMs ∣ c.rdTimeoutMs ∧
      (1 ≤ c.respTicks ∧ c.respTicks ≤ 65535) ∧ 1 ≤ c.rdTicks ∧ c.rdTicks ≤ 65535 := by
  simp only [Config.accepted, Bool.and_eq_true, bne_iff_ne, beq_iff_eq, decide_eq_true_eq, max_le_iff,
    Nat.dvd_iff_mod_eq_zero, Nat.pos_iff_ne_zero]
  tauto

/-! ### The obligations -/

/-- Settles O6: the step delivers the host event, whose turn is the write to `CMD`, which runs the decoded
instruction. -/
theorem stepRunsTheDecodedInstruction : Obligations.StepRunsTheDecodedInstruction := by
  unfold Obligations.StepRunsTheDecodedInstruction
  intro s v i ops es hc he hh hd
  calc step s = hostTurn { s with events := es } := step_event hc he
    _ = commandWrite v { s with events := es, host := ops } := hostTurn_write_cmd hh
    _ = exec i { s with events := es, host := ops } := commandWrite_of_decode hd

/-- Settles O8: one lemma for each of the two steps, and `accepted_iff` with the tick counts written as quotients. -/
theorem stepNeedsAnEventAndAnAcceptedConfiguration : Obligations.StepNeedsAnEventAndAnAcceptedConfiguration := by
  unfold Obligations.StepNeedsAnEventAndAnAcceptedConfiguration
  refine ⟨fun _ => step_no_event, fun _ => step_not_accepted, fun c => ?_⟩
  simpa only [Config.respTicks, Config.rdTicks, and_assoc] using accepted_iff c

end Sys2Proof.Machine
end

section
/-! PROOFS. Scope: the invariant of a run and the stored frame, from one step to the next (R34, R80, R81, R101, R106,
R152, R202). -/

namespace Sys2Proof.Machine

/-! ### The invariant -/

/-- Reset ends in the invariant from any state whose configuration is not refused (R230, R45). -/
theorem inv_resetStep {s : State} (hc : s.cfg.accepted = true) : StateInv (resetStep s) where
  config := hc
  txdata := rfl
  txframe := rfl
  txlen := .inl rfl
  rxbuf := rfl
  rxq := Nat.zero_le _
  latched := ⟨Nat.zero_le _, nofun, fun _ => rfl⟩
  elapsed := Nat.zero_le _
  waiting := nofun
  collecting := nofun
  inFlight := fun hp => absurd rfl hp
  payload := nofun
  outcome := fun he => absurd rfl he
  recorded := trivial

theorem inv_rxErrorStep {s : State} (h : StateInv s) : StateInv (rxErrorStep s) := by
  unfold rxErrorStep
  split_ifs
  · exact inv_finish h.base .io trivial
  · exact h

theorem inv_commandWrite {s : State} (h : StateInv s) (v : Word) : ∃ t, commandWrite v s = .next t ∧ StateInv t := by
  rcases commandWrite_cases v s with e | ⟨op, n, e⟩
  · exact ⟨_, e, inv_illegal h⟩
  · exact ⟨_, e, inv_command h op n⟩

theorem inv_recordRead {s : State} (h : StateInv s) (v : Word) : StateInv (recordRead v s) :=
  inv_outside h s.host s.events s.verdict (s.reads ++ [v]) s.emitted

theorem inv_hostOpStep {s : State} (h : StateInv s) (op : HostOp) :
    ∃ t, hostOpStep op s = .next t ∧ StateInv t := by
  cases op with
  | read a => exact ⟨_, rfl, inv_recordRead h _⟩
  | write a v =>
    simp only [hostOpStep, memWrite]
    split_ifs
    · exact inv_commandWrite h v
    · exact ⟨_, rfl, inv_storeCsr h a v⟩
  | waitDone =>
    simp only [hostOpStep]
    split_ifs
    · exact ⟨_, rfl, inv_recordRead h _⟩
    · exact ⟨_, rfl, inv_outside (inv_recordRead h _) (.waitDone :: s.host) s.events s.verdict _ s.emitted⟩

theorem inv_hostTurn {s : State} (h : StateInv s) : ∃ t, hostTurn s = .next t ∧ StateInv t := by
  unfold hostTurn
  split
  · exact ⟨_, rfl, h⟩
  · next op rest _ => exact inv_hostOpStep (inv_outside h rest s.events s.verdict s.reads s.emitted) op

/-- Every event ends in a next state of the invariant: it neither faults nor is refused. -/
theorem inv_deliver {s : State} (h : StateInv s) (e : Event) : ∃ t, deliver e s = .next t ∧ StateInv t := by
  cases e with
  | host => exact inv_hostTurn h
  | rx b => exact inv_rx h b
  | rxError => exact ⟨_, rfl, inv_rxErrorStep h⟩
  | tick => exact inv_tick h
  | reset => exact ⟨_, rfl, inv_resetStep h.config⟩
  | verdict v => exact ⟨_, rfl, inv_outside h s.host s.events (some v) s.reads s.emitted⟩

/-- The state an event is delivered to is the state before the step but for the events to come. -/
theorem inv_events {s : State} (h : StateInv s) (es : List Event) : StateInv { s with events := es } :=
  inv_outside h s.host es s.verdict s.reads s.emitted

/-- Progress and preservation together: from a state of the invariant the step goes on, to a state of the invariant. -/
theorem inv_step {s : State} (h : StateInv s) : ∃ t, step s = .next t ∧ StateInv t := by
  cases he : s.events with
  | nil => exact ⟨s, step_no_event h.config he, h⟩
  | cons e es =>
    rw [step_event h.config he]
    exact inv_deliver (inv_events h es) e

/-- Settles O41, by the operation that the next event runs. -/
theorem stepKeepsTheInvariant : Obligations.StepKeepsTheInvariant := by
  unfold Obligations.StepKeepsTheInvariant
  intro s t h hst
  obtain ⟨t', hst', ht'⟩ := inv_step h
  rw [hst] at hst'
  cases hst'
  exact ht'

/-- Settles O43. -/
theorem invariantStatesNeverFault : Obligations.InvariantStatesNeverFault := by
  unfold Obligations.InvariantStatesNeverFault
  intro s h
  obtain ⟨t, hst, -⟩ := inv_step h
  exact ⟨t, hst⟩

/-- Settles O40: the reset state is what the reset event makes of itself. -/
theorem resetMeetsTheInvariant : Obligations.ResetMeetsTheInvariant := by
  unfold Obligations.ResetMeetsTheInvariant
  exact ⟨inv_resetStep (s := State.reset) (by decide), .inl rfl⟩

/-! ### What delivering an event can do -/

/-- A delivery that answers a next state is an engine step, a host turn, a reset, or the fixing of a verdict. -/
theorem deliver_cases {e : Event} {s t : State} (h : deliver e s = .next t) :
    EngineFrame s t ∨ (e = .host ∧ hostTurn s = .next t) ∨ (e = .reset ∧ t = resetStep s) ∨
      ∃ v, e = .verdict v ∧ t = { s with verdict := some v } := by
  cases e with
  | host => exact .inr (.inl ⟨rfl, h⟩)
  | rx b => exact .inl (rxStep_frame h)
  | rxError =>
    cases h
    exact .inl (rxErrorStep_frame s)
  | tick => exact .inl (tickStep_frame h)
  | reset =>
    cases h
    exact .inr (.inr (.inl ⟨rfl, rfl⟩))
  | verdict v =>
    cases h
    exact .inr (.inr (.inr ⟨v, rfl, rfl⟩))

/-- A step changes nothing, or it delivers the next event. -/
theorem step_cases {s t : State} (h : step s = .next t) :
    t = s ∨ ∃ e es, s.events = e :: es ∧ deliver e { s with events := es } = .next t := by
  cases hc : s.cfg.accepted with
  | false =>
    rw [step_not_accepted hc] at h
    cases h
  | true =>
    cases he : s.events with
    | nil =>
      rw [step_no_event hc he] at h
      cases h
      exact .inl rfl
    | cons e es =>
      rw [step_event hc he] at h
      exact .inr ⟨e, es, rfl, h⟩

/-! ### The stored frame -/

/-- The condition speaks of `TXLEN` and `TXFRAME` only. -/
theorem frameIntact_congr {s t : State} (h : FrameIntact s) (hl : t.txlen = s.txlen) (hf : t.txframe = s.txframe) :
    FrameIntact t := by
  unfold FrameIntact at *
  rwa [hl, hf]

/-- What a built frame says of its own length: byte 3 of `P + 6` bytes is `P + 2` (R81), and it fits the byte. -/
theorem lengthByte_toNat {op : Op} {s : State} (h : dataTooLong op s = false) :
    (BitVec.ofNat 8 (2 + (frameOf op s).body.params.length)).toNat + 4 = (buildFrame op s).length := by
  have := params_length_le (frameOf_wellFormed h)
  rw [BitVec.toNat_ofNat, length_buildFrame]
  omega

/-- A frame built from data that fits is stored intact (R80, R81, R101, R106). -/
theorem frameIntact_of_stored {op : Op} {s t : State} (h : dataTooLong op s = false)
    (hl : t.txlen = BitVec.ofNat 9 (buildFrame op s).length) (hf : t.txframe = Memory.ofBytes 0 (buildFrame op s)) :
    FrameIntact t := by
  obtain ⟨hmin, hmax⟩ := buildFrame_length_le h
  have hlen : t.txlen.toNat = (buildFrame op s).length := by
    rw [hl, BitVec.toNat_ofNat]
    omega
  have hread (i : Nat) : t.txframe.read i = (buildFrame op s).getD i 0 := by rw [hf, Memory.read_ofBytes_zero]
  have hbody : (frameBodyBytes s.cfg (frameOf op s)).length = (buildFrame op s).length - 3 := by simp
  have hdrop : (buildFrame op s).drop 2 =
      frameBodyBytes s.cfg (frameOf op s) ++ [ck (frameBodyBytes s.cfg (frameOf op s))] := rfl
  refine .inr ⟨hread 0, hread 1, ?_, ?_⟩
  · rw [hread, hlen]
    exact lengthByte_toNat h
  · have hslice : t.txframe.slice 2 (t.txlen.toNat - 3) = frameBodyBytes s.cfg (frameOf op s) := by
      rw [Memory.slice_eq_take_drop (bs := buildFrame op s) (by omega) fun i _ => hread _, hdrop, hlen, ← hbody,
        List.take_left]
    have hlast : t.txframe.read (t.txlen.toNat - 1) = ck (frameBodyBytes s.cfg (frameOf op s)) := by
      have hi : (buildFrame op s).length - 1 = 2 + (frameBodyBytes s.cfg (frameOf op s)).length := by omega
      rw [hread, hlen, hi, List.getD_eq_getElem?_getD, ← List.getElem?_drop, hdrop, List.getElem?_concat_length,
        Option.getD_some]
    rw [hslice, hlast]

/-- A command leaves the stored frame as it was, or stores a built one (R106). -/
theorem frameIntact_command {s : State} (h : FrameIntact s) (op : Op) (n : Bool) : FrameIntact (command op n s) := by
  rcases command_cases op n s with ⟨-, e⟩ | ⟨-, -, e⟩ | ⟨-, -, hl, e⟩ | ⟨-, -, hl, -, e⟩ | ⟨-, -, hl, -, e⟩ <;> rw [e]
  · exact h
  · exact frameIntact_congr h rfl rfl
  all_goals exact frameIntact_of_stored (dataTooLong_of_legal hl) rfl rfl

theorem frameIntact_illegalCommand {s : State} (h : FrameIntact s) : FrameIntact (illegalCommand s) := by
  rcases illegalCommand_cases s with ⟨-, e⟩ | ⟨-, e⟩ <;> rw [e]
  · exact h
  · exact frameIntact_congr h rfl rfl

theorem frameIntact_hostTurn {s t : State} (h : FrameIntact s) (ht : hostTurn s = .next t) : FrameIntact t := by
  rcases hostTurn_cases s t ht with ⟨-, e⟩ | ⟨-, rest, rfl | ⟨op, n, rfl⟩⟩
  · rw [e]
    exact frameIntact_congr h rfl rfl
  · exact frameIntact_illegalCommand (frameIntact_congr h rfl rfl)
  · exact frameIntact_command (s := { s with host := rest }) (frameIntact_congr h rfl rfl) op n

theorem frameIntact_deliver {e : Event} {s t : State} (h : FrameIntact s) (ht : deliver e s = .next t) :
    FrameIntact t := by
  rcases deliver_cases ht with hf | ⟨-, hh⟩ | ⟨-, rfl⟩ | ⟨v, -, rfl⟩
  · rw [hf]
    exact frameIntact_congr h rfl rfl
  · exact frameIntact_hostTurn h hh
  · exact .inl rfl
  · exact frameIntact_congr h rfl rfl

/-- Settles O42: an event leaves the stored frame alone, empties it (reset), or stores a frame built from data that
fits. -/
theorem stepKeepsTheStoredFrameIntact : Obligations.StepKeepsTheStoredFrameIntact := by
  unfold Obligations.StepKeepsTheStoredFrameIntact
  intro s t h hst
  rcases step_cases hst with rfl | ⟨e, es, -, hd⟩
  · exact h
  · exact frameIntact_deliver (s := { s with events := es }) (frameIntact_congr h rfl rfl) hd

end Sys2Proof.Machine
end

section
/-! PROOFS. Scope: how long a transaction may still take, and that it ends (R43, R143, R146, R153). -/

namespace Sys2Proof.Machine

/-! ### Ticks still to come -/

theorem ticksLeft_idle {s : State} (h : s.phase = .idle) : ticksLeft s = 0 := by simp [ticksLeft, h]

theorem ticksLeft_wait {s : State} (h : s.phase = .wait) :
    ticksLeft s = s.cfg.respTicks - s.elapsed.toNat + s.cfg.rdTicks := by simp [ticksLeft, h]

theorem ticksLeft_collect {s : State} (h : s.phase = .collect) : ticksLeft s = s.cfg.rdTicks - s.elapsed.toNat := by
  simp [ticksLeft, h]

theorem ticksLeft_le (s : State) : ticksLeft s ≤ s.cfg.respTicks + s.cfg.rdTicks := by
  cases hp : s.phase with
  | idle => simp [ticksLeft_idle hp]
  | wait =>
    rw [ticksLeft_wait hp]
    omega
  | collect =>
    rw [ticksLeft_collect hp]
    omega

/-- In flight the deadline is still to come (R152). -/
theorem ticksLeft_pos {s : State} (h : StateInv s) (hp : s.phase ≠ .idle) : 0 < ticksLeft s := by
  cases hq : s.phase with
  | idle => exact absurd hq hp
  | wait =>
    obtain ⟨-, hlt⟩ := h.waiting hq
    rw [ticksLeft_wait hq]
    omega
  | collect =>
    obtain ⟨-, -, -, hlt⟩ := h.collecting hq
    rw [ticksLeft_collect hq]
    omega

/-- The ticks left depend on the phase, the parameters and `ELAPSED` only. -/
theorem ticksLeft_congr {s t : State} (hp : t.phase = s.phase) (hc : t.cfg = s.cfg) (he : t.elapsed = s.elapsed) :
    ticksLeft t = ticksLeft s := by
  simp only [ticksLeft, hp, hc, he]

/-! ### One event in flight -/

theorem check_idle {s t : State} (h : check s = .next t) : t.phase = .idle := by
  rcases check_cases s with ⟨-, e⟩ | ⟨-, -, e⟩ | ⟨-, -, e⟩ | ⟨-, -, e⟩ <;> rw [e] at h <;> cases h <;> rfl

/-- A check that may be due ends the transaction or changes nothing (R144, R145). -/
theorem checkIfComplete_next {s t : State} (h : checkIfComplete s = .next t) : t.phase = .idle ∨ t = s := by
  rw [checkIfComplete_eq] at h
  split_ifs at h
  · exact .inl (check_idle h)
  · cases h
    exact .inr rfl

theorem ticksLeft_checkIfComplete {s t : State} (h : checkIfComplete s = .next t) : ticksLeft t ≤ ticksLeft s := by
  rcases checkIfComplete_next h with hi | rfl
  · simp [ticksLeft_idle hi]
  · exact le_rfl

theorem ticksLeft_enqueue (b : Byte) (s : State) : ticksLeft (enqueue b s) = ticksLeft s := by
  unfold enqueue
  split_ifs
  · exact ticksLeft_congr rfl rfl rfl
  · rfl

theorem ticksLeft_rx {s t : State} {b : Byte} (h : rxStep b s = .next t) : ticksLeft t ≤ ticksLeft s := by
  unfold rxStep at h
  split at h
  · cases h
    exact (ticksLeft_enqueue b s).le
  · cases h
    exact (ticksLeft_enqueue b s).le
  · unfold collectByte at h
    split_ifs at h
    exact (ticksLeft_checkIfComplete h).trans (ticksLeft_congr rfl rfl rfl).le

/-- Counting a tick that does not end the transaction takes one from the ticks left. -/
theorem ticksLeft_countTick {s : State} (h : StateInv s) (hp : s.phase ≠ .idle) :
    ticksLeft (countTick s) < ticksLeft s := by
  have hinc : s.elapsed.toNat < max s.cfg.respTicks s.cfg.rdTicks →
      (countTick s).elapsed.toNat = s.elapsed.toNat + 1 := elapsed_succ_toNat h.config
  cases hq : s.phase with
  | idle => exact absurd hq hp
  | wait =>
    obtain ⟨-, hlt⟩ := h.waiting hq
    rw [ticksLeft_wait (s := countTick s) hq, ticksLeft_wait hq, hinc (lt_max_of_lt_left hlt), countTick_cfg]
    omega
  | collect =>
    obtain ⟨-, -, -, hlt⟩ := h.collecting hq
    rw [ticksLeft_collect (s := countTick s) hq, ticksLeft_collect hq, hinc (lt_max_of_lt_right hlt), countTick_cfg]
    omega

/-- Entering `COLLECT` before the deadline gives the read deadline alone (R144). -/
theorem ticksLeft_enterCollect {s t : State} (h : enterCollect s = .next t) : ticksLeft t ≤ s.cfg.rdTicks := by
  unfold enterCollect at h
  split_ifs at h
  exact ticksLeft_checkIfComplete h

/-- Every tick in flight takes at least one from the ticks left (R143, R146). -/
theorem ticksLeft_tick {s t : State} (h : StateInv s) (hp : s.phase ≠ .idle) (ht : tickStep s = .next t) :
    ticksLeft t < ticksLeft s := by
  have hpos := ticksLeft_pos h hp
  have hcount := ticksLeft_countTick h hp
  unfold tickStep at ht
  split at ht
  · next hq => exact absurd hq hp
  · next hq =>
    unfold waitTick at ht
    split_ifs at ht
    · obtain ⟨-, hlt⟩ := h.waiting hq
      have hle : ticksLeft t ≤ s.cfg.rdTicks := ticksLeft_enterCollect ht
      rw [ticksLeft_wait hq]
      omega
    · cases ht
      exact hpos
    · cases ht
      exact hcount
  · unfold collectTick at ht
    split_ifs at ht
    · cases ht
      exact hpos
    · rw [ticksLeft_idle (check_idle ht)]
      exact hpos
    · cases ht
      exact hcount

theorem ticksLeft_rxErrorStep (s : State) : ticksLeft (rxErrorStep s) ≤ ticksLeft s := by
  unfold rxErrorStep
  split_ifs
  · exact Nat.zero_le _
  · exact le_rfl

theorem illegalCommand_busy {s : State} (h : s.phase ≠ .idle) : illegalCommand s = s := by
  simp [illegalCommand, busy_of_not_idle h]

/-- A host turn in flight moves no tick (R71, R130). -/
theorem ticksLeft_hostTurn {s t : State} (hp : s.phase ≠ .idle) (h : hostTurn s = .next t) :
    ticksLeft t = ticksLeft s := by
  rcases hostTurn_cases s t h with ⟨-, e⟩ | ⟨-, rest, e | ⟨op, n, e⟩⟩
  · rw [e]
    exact ticksLeft_congr rfl rfl rfl
  · rw [e, illegalCommand_busy (s := { s with host := rest }) hp]
    exact ticksLeft_congr rfl rfl rfl
  · rw [e, command_busy (s := { s with host := rest }) hp]
    exact ticksLeft_congr rfl rfl rfl

/-- Delivering an event in flight pays for itself: a tick takes a tick, and no event gives one back. -/
theorem ticksLeft_deliver {e : Event} {s t : State} (h : StateInv s) (hp : s.phase ≠ .idle)
    (hd : deliver e s = .next t) : ticksLeft t + (if e = .tick then 1 else 0) ≤ ticksLeft s := by
  cases e with
  | host => exact (ticksLeft_hostTurn hp hd).le
  | rx b => exact ticksLeft_rx hd
  | rxError =>
    cases hd
    exact ticksLeft_rxErrorStep s
  | tick => exact ticksLeft_tick h hp hd
  | reset =>
    cases hd
    exact Nat.zero_le _
  | verdict v =>
    cases hd
    exact (ticksLeft_congr rfl rfl rfl).le

/-! ### The events to come -/

theorem command_events (op : Op) (n : Bool) (s : State) : (command op n s).events = s.events := by
  rcases command_cases op n s with ⟨-, e⟩ | ⟨-, -, e⟩ | ⟨-, -, -, e⟩ | ⟨-, -, -, -, e⟩ | ⟨-, -, -, -, e⟩ <;> rw [e]

theorem illegalCommand_events (s : State) : (illegalCommand s).events = s.events := by
  rcases illegalCommand_cases s with ⟨-, e⟩ | ⟨-, e⟩ <;> rw [e]

/-- Delivering an event does not touch the events after it. -/
theorem deliver_events {e : Event} {s t : State} (h : deliver e s = .next t) : t.events = s.events := by
  rcases deliver_cases h with hf | ⟨-, hh⟩ | ⟨-, rfl⟩ | ⟨v, -, rfl⟩
  · rw [hf]
  · rcases hostTurn_cases s t hh with ⟨-, e⟩ | ⟨-, rest, rfl | ⟨op, n, rfl⟩⟩
    · rw [e]
    · exact illegalCommand_events _
    · exact command_events op n _
  · rfl
  · rfl

/-! ### A run ends the transaction -/

theorem run_succ {s t : State} (h : step s = .next t) (k : Nat) :
    Host.Core.run core (k + 1) s = Host.Core.run core k t := by
  have hcore : core.step s = .next t := h
  simp only [Host.Core.run, hcore]

/-- Enough ticks among the events to come bring `IDLE` within those events (R153). -/
theorem run_reaches_idle (es : List Event) (s : State) (h : StateInv s) (he : s.events = es)
    (ht : ticksLeft s ≤ tickCount es) :
    ∃ k t, k ≤ es.length ∧ Host.Core.run core k s = .next t ∧ t.phase = .idle := by
  induction es generalizing s with
  | nil =>
    have hp : s.phase = .idle := by_contra fun hp => absurd (ticksLeft_pos h hp) (not_lt.2 ht)
    exact ⟨0, s, le_rfl, rfl, hp⟩
  | cons e es ih =>
    by_cases hp : s.phase = .idle
    · exact ⟨0, s, Nat.zero_le _, rfl, hp⟩
    · have h0 : StateInv { s with events := es } := inv_events h es
      obtain ⟨t, hd, hi⟩ := inv_deliver h0 e
      have hstep : step s = .next t := (step_event h.config he).trans hd
      have hpay : ticksLeft t + (if e = .tick then 1 else 0) ≤ ticksLeft { s with events := es } :=
        ticksLeft_deliver h0 hp hd
      have hsame : ticksLeft { s with events := es } = ticksLeft s := ticksLeft_congr rfl rfl rfl
      have hcount : tickCount (e :: es) = (if e = .tick then 1 else 0) + tickCount es := rfl
      obtain ⟨k, u, hk, hrun, hu⟩ := ih t hi (deliver_events hd) (by omega)
      exact ⟨k + 1, u, Nat.succ_le_succ hk, (run_succ hstep k).trans hrun, hu⟩

/-- Settles O50: the ticks left of a state in flight are at most both deadlines together. -/
theorem everyTransactionEnds : Obligations.EveryTransactionEnds := by
  unfold Obligations.EveryTransactionEnds
  intro s h _ ht
  exact run_reaches_idle s.events s h rfl ((ticksLeft_le s).trans ht)

end Sys2Proof.Machine
end

section
/-! PROOFS. Scope: the laws of a byte store, and what the host reads at its port (R22, R24, R33 to R35, R37, R45, R61,
R62, R201). -/

namespace Sys2Proof.Machine

/-! ### A byte store is what it reads -/

/-- An index that reads nonzero is listed, with the byte it reads. -/
theorem Memory.mem_of_read_ne_zero {m : Memory} {a : Nat} (h : m.read a ≠ 0) : (a, m.read a) ∈ m := by
  induction m with
  | nil => exact absurd rfl h
  | cons c m ih =>
    obtain ⟨k, v⟩ := c
    rw [Memory.read_cons] at h ⊢
    split_ifs at h ⊢ with hk
    · simp [hk]
    · exact List.mem_cons_of_mem _ (ih h)

/-- In the canonical form the entries are exactly the nonzero reads. -/
theorem Memory.mem_iff_read {m : Memory} (h : m.wf = true) (c : Host.Cell) :
    c ∈ m ↔ m.read c.1 = c.2 ∧ c.2 ≠ 0 := by
  constructor
  · intro hc
    exact ⟨Memory.read_of_mem h hc, ((Memory.wf_iff m).1 h).2 c hc⟩
  · rintro ⟨hr, h0⟩
    have hm : (c.1, m.read c.1) ∈ m := Memory.mem_of_read_ne_zero (hr ▸ h0)
    rwa [hr] at hm

/-- Canonical stores that read alike are equal: they list the same entries, in the same strict order. -/
theorem Memory.ext_of_read {m k : Memory} (hm : m.wf = true) (hk : k.wf = true) (h : ∀ i, m.read i = k.read i) :
    m = k := by
  have hanti : Std.Antisymm fun x y : Host.Cell => x.1 < y.1 := ⟨fun _ _ h1 h2 => absurd h1 (lt_asymm h2)⟩
  have hirr : Std.Irrefl fun x y : Host.Cell => x.1 < y.1 := ⟨fun _ => lt_irrefl _⟩
  refine ((Memory.wf_iff m).1 hm).1.eq_of_mem_iff ((Memory.wf_iff k).1 hk).1 fun c => ?_
  rw [Memory.mem_iff_read hm, Memory.mem_iff_read hk, h]

/-- Settles O39. -/
theorem byteStoreLaws : Obligations.ByteStoreLaws := by
  unfold Obligations.ByteStoreLaws
  refine ⟨fun m a b i h => ⟨Memory.wf_write h a b, ?_⟩, fun m k => Memory.ext_of_read⟩
  simp only [Memory.read_write h, eq_comm]

/-! ### The fields of `STATUS` -/

theorem busy_iff (s : State) : s.busy = true ↔ s.phase ≠ .idle := by simp [State.busy]

/-- The layout of `STATUS` (R24), bit by bit. -/
theorem statusWord_getLsbD (s : State) (i : Nat) : (statusWord s).getLsbD i =
    if i = 0 then s.busy else if i = 1 then s.done else if i < 5 then s.err.code.getLsbD (i - 2)
    else if i = 5 then s.pvalid else if i < 8 then s.phase.code.getLsbD (i - 6) else false := by
  unfold statusWord
  rw [BitVec.append_ofBool, BitVec.append_ofBool, BitVec.append_ofBool, BitVec.getLsbD_concat, BitVec.getLsbD_concat,
    BitVec.getLsbD_append, BitVec.getLsbD_concat, BitVec.getLsbD_append]
  simp only [Nat.sub_sub, BitVec.ofNat_eq_ofNat, BitVec.getLsbD_zero]
  grind

theorem statusWord_busy (s : State) : (statusWord s).getLsbD 0 = s.busy := statusWord_getLsbD s 0

theorem statusWord_done (s : State) : (statusWord s).getLsbD 1 = s.done := statusWord_getLsbD s 1

theorem statusWord_pvalid (s : State) : (statusWord s).getLsbD 5 = s.pvalid := statusWord_getLsbD s 5

theorem statusWord_err (s : State) : (statusWord s).extractLsb' 2 3 = s.err.code := by
  ext i hi
  rw [BitVec.getElem_extractLsb', statusWord_getLsbD]
  simp (disch := omega) only [if_neg, if_pos, Nat.add_sub_cancel_left, BitVec.getLsbD_eq_getElem]

theorem statusWord_phase (s : State) : (statusWord s).extractLsb' 6 2 = s.phase.code := by
  ext i hi
  rw [BitVec.getElem_extractLsb', statusWord_getLsbD]
  simp (disch := omega) only [if_neg, if_pos, Nat.add_sub_cancel_left, BitVec.getLsbD_eq_getElem]

theorem statusWord_zero (s : State) : (statusWord s).extractLsb' 8 8 = 0 := by
  ext i hi
  rw [BitVec.getElem_extractLsb', statusWord_getLsbD]
  simp (disch := omega) only [if_neg, BitVec.ofNat_eq_ofNat, BitVec.getElem_zero]

/-- Settles O38. -/
theorem statusWordFields : Obligations.StatusWordFields := by
  unfold Obligations.StatusWordFields
  intro s
  rw [statusWord_busy, statusWord_err, statusWord_phase]
  refine ⟨busy_iff s, statusWord_done s, ?_, statusWord_pvalid s, ?_, statusWord_zero s⟩
  · cases s.err <;> decide
  · cases s.phase <;> decide

/-! ### Reads at the port -/

/-- A reserved address reads 0 (R62). -/
theorem memRead_reserved (s : State) {a : HostAddr} (h : (0x00A ≤ a.toNat ∧ a.toNat ≤ 0x0FF) ∨
    (0x1FC ≤ a.toNat ∧ a.toNat ≤ 0x1FF) ∨ (0x303 ≤ a.toNat ∧ a.toNat ≤ 0x3FF) ∨ 0x4FF ≤ a.toNat) :
    memRead a s = 0 := by
  unfold memRead
  simp (disch := omega) only [if_neg]

/-- Settles O35: each fixed address by evaluation, the three byte ranges and the reserved ones by their lemmas. -/
theorem hostReadsFollowTheMap : Obligations.HostReadsFollowTheMap := by
  unfold Obligations.HostReadsFollowTheMap
  refine ⟨fun _ _ => rfl, fun s => ?_⟩
  exact ⟨rfl, rfl, rfl, rfl, rfl, rfl, rfl, rfl, rfl, rfl, fun _ => memRead_txdata s, fun _ => memRead_txframe s,
    fun _ => memRead_payload s, fun _ => memRead_reserved s⟩

/-- Settles O34: the reset state is one closed state, and its stores are empty. -/
theorem resetValues : Obligations.ResetValues := by
  unfold Obligations.ResetValues
  have hstores (i : Nat) :
      State.reset.txdata.read i = 0 ∧ State.reset.txframe.read i = 0 ∧ State.reset.rxbuf.read i = 0 :=
    ⟨Memory.read_nil i, Memory.read_nil i, Memory.read_nil i⟩
  exact ⟨rfl, rfl, rfl, rfl, rfl, rfl, rfl, rfl, rfl, rfl, hstores, rfl, rfl, rfl, rfl, rfl⟩

end Sys2Proof.Machine
end

section
/-! PROOFS. Scope: the host's writes and what they leave at the port (R61 to R64, R66, R70). -/

namespace Sys2Proof.Machine

/-! ### What a host write stores -/

/-- A write to a location other than `CMD` always goes on. -/
theorem memWrite_of_ne {a : HostAddr} (h : a ≠ 0) (v : Word) (s : State) :
    memWrite a v s = .next (storeCsr a v s) := if_neg h

/-- The map of R63, register by register: each takes its own bits under a write to its own address only. -/
theorem storeCsr_eq (a : HostAddr) (v : Word) (s : State) : storeCsr a v s = { s with
    id     := if a.toNat = 0x002 then v.setWidth 8 else s.id
    addr   := if a.toNat = 0x003 then v.setWidth 8 else s.addr
    count  := if a.toNat = 0x004 then v.setWidth 8 else s.count
    dlen   := if a.toNat = 0x005 then v.setWidth 8 else s.dlen
    acklen := if a.toNat = 0x006 then v.setWidth 9 else s.acklen
    txdata := if 0x100 ≤ a.toNat ∧ a.toNat ≤ 0x1FB then s.txdata.write (a.toNat - 0x100) (v.setWidth 8)
      else s.txdata } := by
  unfold storeCsr
  rcases show a.toNat = 0x002 ∨ a.toNat = 0x003 ∨ a.toNat = 0x004 ∨ a.toNat = 0x005 ∨ a.toNat = 0x006 ∨
      (0x100 ≤ a.toNat ∧ a.toNat ≤ 0x1FB) ∨
      (a.toNat < 0x002 ∨ (0x006 < a.toNat ∧ a.toNat < 0x100) ∨ 0x1FB < a.toNat)
    by omega with h | h | h | h | h | h | h <;> simp (disch := omega) only [if_pos, if_neg]

/-- Read-only and reserved locations ignore a write (R63, R64). -/
theorem storeCsr_ignored {a : HostAddr}
    (h : a.toNat = 0x001 ∨ (0x007 ≤ a.toNat ∧ a.toNat ≤ 0x0FF) ∨ 0x1FC ≤ a.toNat) (v : Word) (s : State) :
    storeCsr a v s = s := by
  rw [storeCsr_eq]
  simp (disch := omega) only [if_neg]

theorem storeCsr_txdata {i : Nat} (h : i ≤ 251) (v : Word) (s : State) :
    storeCsr (BitVec.ofNat 11 (0x100 + i)) v s = { s with txdata := s.txdata.write i (v.setWidth 8) } := by
  rw [storeCsr_eq, toNat_hostAddr (by omega)]
  simp (disch := omega) only [if_neg, if_pos, Nat.add_sub_cancel_left]

/-- A write changes the operand registers only. -/
theorem withOperands_storeCsr (a : HostAddr) (v : Word) (s : State) :
    withOperands s (storeCsr a v s) = storeCsr a v s := by
  rw [storeCsr_eq]
  rfl

theorem storeCsr_verdict (a : HostAddr) (v : Word) (s : State) (w : Option Verdict) :
    storeCsr a v { s with verdict := w } = { storeCsr a v s with verdict := w } := by
  rw [storeCsr_eq, storeCsr_eq]

/-- A value that decodes to no command is illegal (R89). -/
theorem commandWrite_of_reject {s : State} {v : Word} {e : Reject} (h : decode s.cfg (.host v) = .error e) :
    commandWrite v s = .next (illegalCommand s) := by
  simp [commandWrite, h]

theorem memWrite_txdata {i : Nat} (h : i ≤ 251) (v : Word) (s : State) :
    memWrite (BitVec.ofNat 11 (0x100 + i)) v s = .next { s with txdata := s.txdata.write i (v.setWidth 8) } := by
  have h0 : BitVec.ofNat 11 (0x100 + i) ≠ 0 := fun h0 => by
    have := congrArg BitVec.toNat h0
    rw [toNat_hostAddr (by omega)] at this
    simp at this
  rw [memWrite_of_ne h0, storeCsr_txdata h]

theorem memWrite_ignored {a : HostAddr}
    (h : a.toNat = 0x001 ∨ (0x007 ≤ a.toNat ∧ a.toNat ≤ 0x0FF) ∨ 0x1FC ≤ a.toNat) (v : Word) (s : State) :
    memWrite a v s = .next s := by
  have h0 : a ≠ 0 := by
    rintro rfl
    simp at h
  rw [memWrite_of_ne h0, storeCsr_ignored h]

/-- Settles O36: `CMD` by the decoder, the fixed addresses by evaluation, the others by their lemmas. -/
theorem hostWritesFollowTheMap : Obligations.HostWritesFollowTheMap := by
  unfold Obligations.HostWritesFollowTheMap
  intro v s
  exact ⟨fun _ hi => commandWrite_of_decode hi, fun _ he => commandWrite_of_reject he, rfl, rfl, rfl, rfl, rfl,
    fun _ hi => memWrite_txdata hi v s, fun _ ha => memWrite_ignored ha v s⟩

/-! ### What a host write leaves at the port -/

/-- A read shows an operand register at its own address only (R61). -/
theorem memRead_withOperands {s o : State} {b : HostAddr} (hid : b.toNat = 0x002 → o.id = s.id)
    (haddr : b.toNat = 0x003 → o.addr = s.addr) (hcount : b.toNat = 0x004 → o.count = s.count)
    (hdlen : b.toNat = 0x005 → o.dlen = s.dlen) (hack : b.toNat = 0x006 → o.acklen = s.acklen)
    (hdata : 0x100 ≤ b.toNat ∧ b.toNat ≤ 0x1FB →
      o.txdata.read (b.toNat - 0x100) = s.txdata.read (b.toNat - 0x100)) :
    memRead b (withOperands s o) = memRead b s := by
  unfold memRead
  exact ite_congr rfl (fun _ => rfl) fun _ => ite_congr rfl (fun h => congrArg _ (hid h)) fun _ =>
    ite_congr rfl (fun h => congrArg _ (haddr h)) fun _ => ite_congr rfl (fun h => congrArg _ (hcount h)) fun _ =>
    ite_congr rfl (fun h => congrArg _ (hdlen h)) fun _ => ite_congr rfl (fun h => congrArg _ (hack h)) fun _ =>
    ite_congr rfl (fun _ => rfl) fun _ => ite_congr rfl (fun _ => rfl) fun _ => ite_congr rfl (fun _ => rfl) fun _ =>
    ite_congr rfl (fun h => congrArg _ (hdata h)) fun _ => rfl

/-- A write leaves every address but its own as it was (R66). -/
theorem memRead_storeCsr_of_ne {s : State} (hw : s.txdata.wf = true) {a b : HostAddr} (h : b ≠ a) (v : Word) :
    memRead b (storeCsr a v s) = memRead b s := by
  have hne : b.toNat ≠ a.toNat := fun e => h (BitVec.eq_of_toNat_eq e)
  rw [← withOperands_storeCsr, storeCsr_eq]
  refine memRead_withOperands (fun _ => if_neg (by omega)) (fun _ => if_neg (by omega)) (fun _ => if_neg (by omega))
    (fun _ => if_neg (by omega)) (fun _ => if_neg (by omega)) fun _ => ?_
  dsimp only
  split_ifs
  · rw [Memory.read_write hw, if_neg (by omega)]
  · rfl

/-- Dropping the bits above the low `k` is masking them (R63). -/
theorem setWidth_setWidth_eq_and (v : Word) (k : Nat) :
    (v.setWidth k).setWidth 16 = v &&& BitVec.ofNat 16 (2 ^ k - 1) := by
  refine BitVec.eq_of_getLsbD_eq fun i hi => ?_
  rw [BitVec.getLsbD_setWidth, BitVec.getLsbD_setWidth, BitVec.getLsbD_and, BitVec.getLsbD_ofNat,
    Nat.testBit_two_pow_sub_one]
  simp only [hi, decide_true, Bool.true_and, Bool.and_comm]

/-- The registers of one byte read back bits 7:0 of what was written. -/
theorem memRead_storeCsr_byte {s : State} (hw : s.txdata.wf = true) {a : HostAddr}
    (h : (0x002 ≤ a.toNat ∧ a.toNat ≤ 0x005) ∨ (0x100 ≤ a.toNat ∧ a.toNat ≤ 0x1FB)) (v : Word) :
    memRead a (storeCsr a v s) = (v.setWidth 8).setWidth 16 := by
  rw [storeCsr_eq]
  unfold memRead
  rcases h with h | h
  · rcases show a.toNat = 0x002 ∨ a.toNat = 0x003 ∨ a.toNat = 0x004 ∨ a.toNat = 0x005 by omega with h | h | h | h <;>
      simp (disch := omega) only [if_neg, if_pos]
  · simp (disch := omega) only [if_neg, if_pos]
    rw [Memory.read_write hw, if_pos rfl]

theorem memRead_storeCsr_acklen {a : HostAddr} (h : a.toNat = 0x006) (v : Word) (s : State) :
    memRead a (storeCsr a v s) = (v.setWidth 9).setWidth 16 := by
  rw [storeCsr_eq]
  unfold memRead
  simp (disch := omega) only [if_neg, if_pos]

/-- Settles O37: every other address keeps its read, the written one shows the value's own bits. -/
theorem portReadsBackWhatWasWritten : Obligations.PortReadsBackWhatWasWritten := by
  unfold Obligations.PortReadsBackWhatWasWritten
  intro s t a b v hw ha ht
  rw [memWrite_of_ne ha] at ht
  cases ht
  refine ⟨fun hb => memRead_storeCsr_of_ne hw hb v, fun h => ?_, fun h => ?_, fun h => by rw [storeCsr_ignored h]⟩
  · exact (memRead_storeCsr_byte hw h v).trans (setWidth_setWidth_eq_and v 8)
  · exact (memRead_storeCsr_acklen h v s).trans (setWidth_setWidth_eq_and v 9)

end Sys2Proof.Machine
end

section
/-! PROOFS. Scope: what stays as it is after `DONE` = 1 until the next command, and that operand writes and port reads
do not reach the transaction (R71, R72, R204, R207, R236). -/

namespace Sys2Proof.Machine

/-! ### The results of a finished command -/

/-- Alike in all that the host can read of a finished command. -/
structure SameResults (s t : State) : Prop where
  phase : t.phase = s.phase
  done : t.done = s.done
  err : t.err = s.err
  pvalid : t.pvalid = s.pvalid
  rxcnt : t.rxcnt = s.rxcnt
  elapsed : t.elapsed = s.elapsed
  txlen : t.txlen = s.txlen
  txframe : t.txframe = s.txframe
  rxbuf : t.rxbuf = s.rxbuf
  lCount : t.lCount = s.lCount

theorem SameResults.refl (s : State) : SameResults s s := ⟨rfl, rfl, rfl, rfl, rfl, rfl, rfl, rfl, rfl, rfl⟩

theorem SameResults.statusWord_eq {s t : State} (h : SameResults s t) : statusWord t = statusWord s := by
  simp only [statusWord, State.busy, h.phase, h.done, h.err, h.pvalid]

/-- From 0x200 on the port shows results and reserved addresses only (R61). -/
theorem SameResults.memRead_eq {s t : State} (h : SameResults s t) {a : HostAddr} (ha : 0x200 ≤ a.toNat) :
    memRead a t = memRead a s := by
  unfold memRead
  simp (disch := omega) only [if_neg, h.txframe, h.pvalid, h.lCount, h.rxbuf]

theorem sameResults_enqueue (b : Byte) (s : State) : SameResults s (enqueue b s) := by
  unfold enqueue
  split_ifs
  · exact ⟨rfl, rfl, rfl, rfl, rfl, rfl, rfl, rfl, rfl, rfl⟩
  · exact .refl s

theorem sameResults_hostTurn {s t : State} (hc : commandNext s = false) (h : hostTurn s = .next t) :
    SameResults s t := by
  rcases hostTurn_cases s t h with ⟨-, e⟩ | ⟨hc', -⟩
  · rw [e]
    exact ⟨rfl, rfl, rfl, rfl, rfl, rfl, rfl, rfl, rfl, rfl⟩
  · simp [hc] at hc'

theorem rxStep_idle {s : State} (h : s.phase = .idle) (b : Byte) : rxStep b s = .next (enqueue b s) := by
  simp only [rxStep, h]

theorem rxErrorStep_idle {s : State} (h : s.phase = .idle) : rxErrorStep s = s := by
  simp [rxErrorStep, busy_of_idle h]

theorem tickStep_idle {s : State} (h : s.phase = .idle) : tickStep s = .next s := by
  simp only [tickStep, h]

/-- In `IDLE` only a `CMD` write and a reset change a result (R207). -/
theorem sameResults_deliver {s t : State} {e : Event} (hp : s.phase = .idle) (he : e ≠ .reset)
    (hc : e = .host → commandNext s = false) (h : deliver e s = .next t) : SameResults s t := by
  cases e with
  | host => exact sameResults_hostTurn (hc rfl) h
  | rx b =>
    cases (rxStep_idle hp b).symm.trans h
    exact sameResults_enqueue b s
  | rxError =>
    cases h
    rw [rxErrorStep_idle hp]
    exact .refl s
  | tick =>
    cases (tickStep_idle hp).symm.trans h
    exact .refl s
  | reset => exact absurd rfl he
  | verdict v =>
    cases h
    exact ⟨rfl, rfl, rfl, rfl, rfl, rfl, rfl, rfl, rfl, rfl⟩

/-- Settles O45: a quiet event in `IDLE` leaves the results alike, and the port shows them from 0x200 on. -/
theorem outcomeStaysUntilTheNextCommand : Obligations.OutcomeStaysUntilTheNextCommand := by
  unfold Obligations.OutcomeStaysUntilTheNextCommand
  intro s t e hp _ he hc hd
  have h : SameResults s t := sameResults_deliver hp he hc hd
  exact ⟨h.statusWord_eq, h.rxcnt, h.elapsed, h.txlen, h.txframe, h.rxbuf, fun _ => h.memRead_eq⟩

/-! ### Steps that do not look at the operand registers -/

/-- `s` with the operand registers and the read values of `o`: what `SameTransaction` lets differ. -/
def withPort (s o : State) : State := { withOperands s o with reads := o.reads }

theorem sameTransaction_iff (s t : State) : SameTransaction s t ↔ withPort s t = t := Iff.rfl

theorem SameTransaction.refl (s : State) : SameTransaction s s := rfl

theorem sameTransaction_withPort (s o : State) : SameTransaction s (withPort s o) := rfl

theorem SameTransaction.trans {s t u : State} (h1 : SameTransaction s t) (h2 : SameTransaction t u) :
    SameTransaction s u := by
  rw [sameTransaction_iff] at *
  rw [← h1] at h2
  exact h2

/-- `f` neither looks at the operand registers and the read values nor changes them. -/
def PortBlind (f : State → Outcome) : Prop :=
  ∀ s o, f (withPort s o) = andThen (f s) fun t => .next (withPort t o)

theorem andThen_eq_next {x : Outcome} {k : State → Outcome} {t : State} :
    andThen x k = .next t ↔ ∃ s, x = .next s ∧ k s = .next t := by
  cases x <;> simp [andThen]

/-- A step that is blind to the port takes states alike in the transaction to states alike in it. -/
theorem PortBlind.sameTransaction {f : State → Outcome} (hf : PortBlind f) {s r t : State} (h : SameTransaction s r)
    (ht : f r = .next t) : ∃ u, f s = .next u ∧ SameTransaction u t := by
  rw [sameTransaction_iff] at h
  rw [← h, hf, andThen_eq_next] at ht
  obtain ⟨u, hu, ht⟩ := ht
  cases ht
  exact ⟨u, hu, sameTransaction_withPort u r⟩

theorem PortBlind.next {f : State → State} (hf : ∀ s o, f (withPort s o) = withPort (f s) o) :
    PortBlind fun s => .next (f s) := fun s o => congrArg _ (hf s o)

theorem PortBlind.fault (r : Fault) : PortBlind fun _ => .fault r := fun _ _ => rfl

theorem PortBlind.comp {f : State → Outcome} {g : State → State} (hf : PortBlind f)
    (hg : ∀ s o, g (withPort s o) = withPort (g s) o) : PortBlind fun s => f (g s) := fun s o => by
  show f (g (withPort s o)) = _
  rw [hg]
  exact hf (g s) o

theorem PortBlind.andThen {f g : State → Outcome} (hf : PortBlind f) (hg : PortBlind g) :
    PortBlind fun s => andThen (f s) g := fun s o => by
  show Machine.andThen (f (withPort s o)) g = Machine.andThen (Machine.andThen (f s) g) _
  rw [hf]
  cases f s with
  | next t => exact hg t o
  | fault r => rfl
  | refused r => rfl

theorem PortBlind.ite {c : State → Prop} [DecidablePred c] {f g : State → Outcome}
    (hc : ∀ s o, c (withPort s o) ↔ c s) (hf : PortBlind f) (hg : PortBlind g) :
    PortBlind fun s => if c s then f s else g s := fun s o => by
  by_cases h : c s
  · simp only [hc, h, if_true]
    exact hf s o
  · simp only [hc, h, if_false]
    exact hg s o

/-! ### The engine -/

theorem portBlind_check : PortBlind check :=
  .ite (fun _ _ => Iff.rfl)
    (.ite (fun _ _ => Iff.rfl)
      (.ite (fun _ _ => Iff.rfl) (.next fun _ _ => rfl) (.next fun _ _ => rfl))
      (.fault _))
    (.next fun _ _ => rfl)

theorem portBlind_checkIfComplete : PortBlind checkIfComplete :=
  .ite (fun _ _ => Iff.rfl) portBlind_check (.next fun _ _ => rfl)

theorem portBlind_enterCollect : PortBlind enterCollect :=
  .ite (fun _ _ => Iff.rfl) (.comp portBlind_checkIfComplete fun _ _ => rfl) (.fault _)

theorem portBlind_collectByte (b : Byte) : PortBlind (collectByte b) :=
  .ite (fun _ _ => Iff.rfl) (.comp portBlind_checkIfComplete fun _ _ => rfl) (.fault _)

theorem enqueue_withPort (b : Byte) (s o : State) : enqueue b (withPort s o) = withPort (enqueue b s) o := by
  unfold enqueue
  rw [apply_ite (withPort · o)]
  rfl

theorem rxErrorStep_withPort (s o : State) : rxErrorStep (withPort s o) = withPort (rxErrorStep s) o := by
  unfold rxErrorStep
  rw [apply_ite (withPort · o)]
  rfl

theorem portBlind_waitTick : PortBlind waitTick :=
  .ite (fun _ _ => Iff.rfl) (.comp portBlind_enterCollect fun _ _ => rfl)
    (.ite (fun _ _ => Iff.rfl) (.next fun _ _ => rfl) (.next fun _ _ => rfl))

theorem portBlind_collectTick : PortBlind collectTick :=
  .ite (fun _ _ => Iff.rfl)
    (.ite (fun _ _ => Iff.rfl) (.next fun _ _ => rfl) (.comp portBlind_check fun _ _ => rfl))
    (.next fun _ _ => rfl)

theorem withPort_phase (s o : State) : (withPort s o).phase = s.phase := rfl

theorem portBlind_rxStep (b : Byte) : PortBlind (rxStep b) := fun s o => by
  unfold rxStep
  rw [withPort_phase]
  cases s.phase with
  | idle => exact congrArg _ (enqueue_withPort b s o)
  | wait => exact congrArg _ (enqueue_withPort b s o)
  | collect => exact portBlind_collectByte b s o

theorem portBlind_tickStep : PortBlind tickStep := fun s o => by
  unfold tickStep
  rw [withPort_phase]
  cases s.phase with
  | idle => rfl
  | wait => exact portBlind_waitTick s o
  | collect => exact portBlind_collectTick s o

/-! ### Host programs -/

theorem portBlind_rxAll (bs : List Byte) : PortBlind (rxAll bs) := by
  induction bs with
  | nil => exact .next fun _ _ => rfl
  | cons b bs ih => exact .andThen (portBlind_rxStep b) ih

theorem portBlind_ticks (n : Nat) : PortBlind (ticks n) := by
  induction n with
  | zero => exact .next fun _ _ => rfl
  | succ n ih => exact .andThen portBlind_tickStep ih

theorem portBlind_runLine {l : Line} (h : l.environment = true) : PortBlind (runLine l) := by
  cases l with
  | w a v => cases h
  | r a => cases h
  | rx bs => exact portBlind_rxAll bs
  | tick n => exact portBlind_ticks n
  | rxerr => exact .next rxErrorStep_withPort
  | verdict v => exact .next fun _ _ => rfl

theorem storeCsr_sameTransaction (a : HostAddr) (v : Word) (s : State) : SameTransaction s (storeCsr a v s) := by
  rw [storeCsr_eq]
  rfl

/-- A program's write to a location other than `CMD` uses no verdict. -/
theorem scriptWrite_of_ne {a : HostAddr} (h : a ≠ 0) (v : Word) (s : State) :
    scriptWrite a v s = .next (storeCsr a v s) := by
  unfold scriptWrite
  split
  · exact memWrite_of_ne h v s
  · next hv =>
    have hs : { s with verdict := none } = s := by rw [← hv]
    calc andThen (memWrite a v { s with verdict := some .ok }) (fun t => .next { t with verdict := none })
      _ = .next (storeCsr a v { s with verdict := none }) := by
        rw [memWrite_of_ne h, storeCsr_verdict a v s (some .ok), storeCsr_verdict a v s none]
        rfl
      _ = .next (storeCsr a v s) := by rw [hs]

/-- The host's own lines, `CMD` writes aside, leave the transaction alone. -/
theorem runLine_sameTransaction {l : Line} (hq : l.quiet = true) (he : l.environment = false) {s t : State}
    (h : runLine l s = .next t) : SameTransaction s t := by
  cases l with
  | w a v =>
    have ha : a ≠ 0 := by simpa [Line.quiet] using hq
    cases (scriptWrite_of_ne ha v s).symm.trans h
    exact storeCsr_sameTransaction a v s
  | r a =>
    cases h
    rfl
  | rx bs => cases he
  | tick n => cases he
  | rxerr => cases he
  | verdict v => cases he

/-- A quiet program and its environment lines alone, run from states alike in the transaction, end in such states. -/
theorem runLines_environment {ls : List Line} (hq : ∀ l ∈ ls, l.quiet = true) {s r t : State}
    (hs : SameTransaction s r) (h : runLines ls r = .next t) :
    ∃ u, runLines (ls.filter Line.environment) s = .next u ∧ SameTransaction u t := by
  induction ls generalizing s r with
  | nil =>
    cases h
    exact ⟨s, rfl, hs⟩
  | cons l ls ih =>
    obtain ⟨hl, hls⟩ := List.forall_mem_cons.1 hq
    obtain ⟨r', hr, ht⟩ := andThen_eq_next.1 h
    cases he : l.environment with
    | true =>
      obtain ⟨s', hs', hsame⟩ := (portBlind_runLine he).sameTransaction hs hr
      obtain ⟨u, hu, hut⟩ := ih hls hsame ht
      rw [List.filter_cons_of_pos he]
      exact ⟨u, andThen_eq_next.2 ⟨s', hs', hu⟩, hut⟩
    | false =>
      rw [List.filter_cons_of_neg (by simp [he])]
      exact ih hls (hs.trans (runLine_sameTransaction hl he hr)) ht

/-- Settles O49: both runs start in the same state, and no line of a quiet program takes them apart. -/
theorem operandWritesDoNotReachTheTransaction : Obligations.OperandWritesDoNotReachTheTransaction := by
  unfold Obligations.OperandWritesDoNotReachTheTransaction
  intro ls s t hq h
  exact runLines_environment hq (.refl s) h

end Sys2Proof.Machine
end

section
/-! PROOFS. Scope: the opcode map of the wire, and the frame decoder as the inverse of the frame encoder (R80 to R82,
R85 to R87, R100). -/

namespace Sys2Proof

open Machine

/-! ### The wire's opcode map -/

/-- The wire instruction of an operation. -/
def Op.wire : Op → Instr
  | .read   => .read
  | .write  => .write
  | .action => .action

theorem opOfByte_eq_some_iff {c : Config} (h : c.codesDistinct = true) (b : Byte) (op : Op) :
    opOfByte c b = some op ↔ b = opByte c op :=
  ⟨fun hb => (opByte_of_opOfByte hb).symm, fun hb => hb ▸ opOfByte_opByte h op⟩

/-- The wire decoder answers exactly the wire instructions, each by the operation its byte names. -/
theorem decodeWire_eq_ok_iff {c : Config} {b : Byte} {i : Instr} :
    decodeWire c b = .ok i ↔ ∃ op, opOfByte c b = some op ∧ op.wire = i := by
  unfold decodeWire
  cases h : opOfByte c b with
  | none => simp
  | some op => cases op <;> simp [Op.wire]

/-- A wire byte names an instruction exactly when it is that instruction's byte (R85). -/
theorem decodeWire_wire_iff {c : Config} (h : c.codesDistinct = true) (b : Byte) (op : Op) :
    decodeWire c b = .ok op.wire ↔ b = opByte c op := by
  have hinj (op' : Op) : op'.wire = op.wire ↔ op' = op := by cases op' <;> cases op <;> decide
  simp only [decodeWire_eq_ok_iff, hinj, exists_eq_right, opOfByte_eq_some_iff h]

theorem decodeWire_unknown {c : Config} {b : Byte} (hr : b ≠ opRead) (hw : b ≠ c.opWrite) (ha : b ≠ c.opAction) :
    decodeWire c b = .error .unknownInstr := by
  simp [decodeWire, opOfByte, hr, hw, ha]

/-! ### The frame decoder -/

theorem decodeBody_eq_ok_iff {op : Op} {ps : List Byte} {body : FrameBody} :
    decodeBody op ps = .ok body ↔ body.op = op ∧ body.params = ps :=
  ⟨decodeBody_ok, fun ⟨ho, hp⟩ => ho ▸ hp ▸ decodeBody_params body⟩

/-- A frame is well formed exactly when its parameters fit the length byte (R81, R82). -/
theorem wellFormed_iff_params_length {f : CommandFrame} : f.wellFormed = true ↔ f.body.params.length ≤ 253 := by
  refine ⟨params_length_le, fun h => ?_⟩
  obtain ⟨id, body⟩ := f
  cases body with
  | read addr count => rfl
  | write addr data =>
    have hl : data.length ≤ maxDlen := Nat.le_of_succ_le_succ h
    exact decide_eq_true hl
  | action => rfl

/-- `LEN` of a frame, as the encoder writes it (R81). -/
def lenByte (f : CommandFrame) : Byte := BitVec.ofNat 8 (2 + f.body.params.length)

/-- A length byte that counts the parameters is the encoder's, and leaves room for those of a well-formed frame only. -/
theorem eq_lenByte_iff {f : CommandFrame} {len : Byte} :
    len.toNat = f.body.params.length + 2 ↔ f.wellFormed = true ∧ len = lenByte f := by
  rw [wellFormed_iff_params_length, lenByte, ← BitVec.toNat_inj, BitVec.toNat_ofNat]
  have := len.isLt
  omega

theorem except_map_eq_ok_iff {ε α β : Type} {g : α → β} {x : Except ε α} {b : β} :
    x.map g = .ok b ↔ ∃ a, x = .ok a ∧ g a = b := by
  cases x <;> simp [Except.map]

/-- What the decoder accepts after the header: the operation's byte, as many parameters as `LEN` says, and the checksum
of all of them. -/
theorem decodeAfterHeader_eq_ok_iff {c : Config} {id len : Byte} {rest tail : List Byte} {f : CommandFrame} :
    decodeAfterHeader c id len rest = .ok (f, tail) ↔ ∃ instr,
      rest = instr :: f.body.params ++ ck (id :: len :: instr :: f.body.params) :: tail ∧
        len.toNat = f.body.params.length + 2 ∧ f.id = id ∧ opOfByte c instr = some f.body.op := by
  obtain ⟨fid, body⟩ := f
  constructor
  · intro h
    unfold decodeAfterHeader at h
    split_ifs at h with hlen hrest
    split at h
    · next instr params chk tail' htake hdrop =>
      split_ifs at h with hchk
      split at h
      · cases h
      · next op hop =>
        obtain ⟨body', hbody, hf⟩ := except_map_eq_ok_iff.1 h
        cases hf
        obtain ⟨rfl, rfl⟩ := decodeBody_eq_ok_iff.1 hbody
        have hcount := congrArg List.length htake
        simp only [List.length_take, List.length_cons] at hcount
        refine ⟨instr, ?_, by dsimp only; omega, rfl, hop⟩
        rw [← not_not.1 hchk, ← htake, ← hdrop, List.take_append_drop]
    · cases h
  · rintro ⟨instr, rfl, hlen, rfl, hop⟩
    have hn : len.toNat - 1 = (instr :: body.params).length := by simp [hlen]
    unfold decodeAfterHeader
    rw [if_neg (by omega), if_neg (by simp [hlen]), hn, List.take_left, List.drop_left]
    simp [hop, decodeBody_params, Except.map]

/-- What the decoder accepts begins with the two header bytes. -/
theorem decodeFrame_eq_ok_iff {c : Config} {bs tail : List Byte} {f : CommandFrame} :
    decodeFrame c bs = .ok (f, tail) ↔ ∃ id len rest,
      bs = hdr :: hdr :: id :: len :: rest ∧ decodeAfterHeader c id len rest = .ok (f, tail) := by
  constructor
  · intro h
    unfold decodeFrame at h
    split at h
    · next h0 h1 id len rest =>
      split_ifs at h with hh
      obtain ⟨rfl, rfl⟩ := not_or.1 hh |>.imp not_not.1 not_not.1
      exact ⟨id, len, rest, rfl, h⟩
    · cases h
  · rintro ⟨id, len, rest, rfl, h⟩
    simpa [decodeFrame] using h

theorem encodeFrame_append (c : Config) (f : CommandFrame) (tail : List Byte) :
    encodeFrame c f ++ tail = hdr :: hdr :: f.id :: lenByte f ::
      (opByte c f.body.op :: f.body.params ++
        ck (f.id :: lenByte f :: opByte c f.body.op :: f.body.params) :: tail) := by
  simp [encodeFrame, frameBodyBytes, lenByte]

/-! ### The obligations -/

/-- Settles O4: the encoded frame has the parts that the decoder asks for, with the operation's own byte. -/
theorem commandFrameDecodesToItself : Obligations.CommandFrameDecodesToItself := by
  unfold Obligations.CommandFrameDecodesToItself
  intro c f tail hc hf
  have hlen : (lenByte f).toNat = f.body.params.length + 2 := eq_lenByte_iff.2 ⟨hf, rfl⟩
  refine decodeFrame_eq_ok_iff.2 ⟨f.id, lenByte f, _, encodeFrame_append c f tail, ?_⟩
  exact decodeAfterHeader_eq_ok_iff.2 ⟨opByte c f.body.op, rfl, hlen, rfl, opOfByte_opByte hc f.body.op⟩

/-- Settles O5: the parts that the decoder asks for leave no choice but the encoder's. -/
theorem acceptedBytesAreTheFramesEncoding : Obligations.AcceptedBytesAreTheFramesEncoding := by
  unfold Obligations.AcceptedBytesAreTheFramesEncoding
  intro c bs f tail h
  obtain ⟨id, len, rest, rfl, h⟩ := decodeFrame_eq_ok_iff.1 h
  obtain ⟨instr, rfl, hlen, rfl, hop⟩ := decodeAfterHeader_eq_ok_iff.1 h
  obtain ⟨hf, rfl⟩ := eq_lenByte_iff.1 hlen
  obtain rfl := opByte_of_opOfByte hop
  exact ⟨(encodeFrame_append c f tail).symm, hf⟩

/-- Settles O14: every bound follows from the number of parameters of a frame whose data fits. -/
theorem lengthByteFitsTheFrame : Obligations.LengthByteFitsTheFrame := by
  unfold Obligations.LengthByteFitsTheFrame
  refine ⟨fun op s h => ?_, fun s => ⟨rfl, rfl⟩⟩
  have hbyte : ((buildFrame op s).getD 3 0).toNat = (frameOf op s).body.params.length + 2 :=
    eq_lenByte_iff.2 ⟨frameOf_wellFormed h, rfl⟩
  have hlen := length_buildFrame op s
  have hparams := params_length_le (frameOf_wellFormed h)
  omega

/-- Settles O2. -/
theorem wireInstructionBytesDecode : Obligations.WireInstructionBytesDecode := by
  unfold Obligations.WireInstructionBytesDecode
  refine ⟨fun c b h => ?_, rfl, rfl, fun s => ⟨rfl, rfl, rfl⟩⟩
  exact ⟨decodeWire_wire_iff h b .read, decodeWire_wire_iff h b .write, decodeWire_wire_iff h b .action,
    decodeWire_unknown⟩

/-- Settles O3: a wire instruction by its byte, a host command by evaluating the host decoder at its one value. -/
theorem decodeOfEncodeIsTheInstruction : Obligations.DecodeOfEncodeIsTheInstruction := by
  unfold Obligations.DecodeOfEncodeIsTheInstruction
  intro c i h
  cases i with
  | read => exact (decodeWire_wire_iff h _ .read).2 rfl
  | write => exact (decodeWire_wire_iff h _ .write).2 rfl
  | action => exact (decodeWire_wire_iff h _ .action).2 rfl
  | cmdRead => rfl
  | cmdWrite => rfl
  | cmdAction => rfl
  | cmdBuildRead => rfl
  | cmdBuildWrite => rfl
  | cmdBuildAction => rfl

end Sys2Proof
end

section
/-! PROOFS. Scope: the opcode map of the host commands, and the word of a table row as the next step (R85, R88, R89,
R92, R102, R130, R131). -/

namespace Sys2Proof

/-! ### The opcode map of the host commands -/

/-- A word is its reserved bits above `NOSEND` and `OP`. -/
theorem append_reservedBits (v : Word) : v.extractLsb' 3 13 ++ v.extractLsb' 0 3 = v :=
  (BitVec.extractLsb'_append_extractLsb'_eq_extractLsb' (start₁ := 0) (start₂ := 3) (x := v) rfl).trans
    BitVec.extractLsb'_eq_self

/-- The words whose reserved bits are 0 are the eight values of `OP` and `NOSEND` (R88). -/
theorem eq_of_reservedBits_zero {v : Word} (h : v.extractLsb' 3 13 = 0) :
    v = 0 ∨ v = 1 ∨ v = 2 ∨ v = 3 ∨ v = 4 ∨ v = 5 ∨ v = 6 ∨ v = 7 := by
  have hlow : ∀ b : BitVec 3, let w : Word := (0 : BitVec 13) ++ b
      w = 0 ∨ w = 1 ∨ w = 2 ∨ w = 3 ∨ w = 4 ∨ w = 5 ∨ w = 6 ∨ w = 7 := by decide
  rw [← append_reservedBits v, h]
  exact hlow _

/-- The values of R88's table are those with the reserved bits 0, but for the two with `OP` = `00` (R89). -/
theorem mem_commandValues_iff (v : Word) : v ∈ ([0x0001, 0x0002, 0x0003, 0x0005, 0x0006, 0x0007] : List Word) ↔
    v ≠ 0x0000 ∧ v ≠ 0x0004 ∧ v.extractLsb' 3 13 = 0 := by
  simp only [List.mem_cons, List.not_mem_nil, or_false]
  constructor
  · rintro (rfl | rfl | rfl | rfl | rfl | rfl) <;> decide
  · rintro ⟨h0, h4, h⟩
    simpa only [h0, h4, false_or] using eq_of_reservedBits_zero h

theorem decodeHost_of_reservedBits {v : Word} (h : v.extractLsb' 3 13 ≠ 0) :
    decodeHost v = .error .reservedBits := if_pos h

/-- Settles O1: with the reserved bits 0 there are eight words, and the decoder is evaluated at each. -/
theorem hostCommandValuesDecode : Obligations.HostCommandValuesDecode := by
  unfold Obligations.HostCommandValuesDecode
  intro v i
  constructor
  · intro h
    have hv : v.extractLsb' 3 13 = 0 := by
      by_contra hv
      cases (decodeHost_of_reservedBits hv).symm.trans h
    rcases eq_of_reservedBits_zero hv with rfl | rfl | rfl | rfl | rfl | rfl | rfl | rfl <;> cases h <;> decide
  · intro h
    simp only [List.mem_cons, Prod.mk.injEq, List.not_mem_nil, or_false] at h
    rcases h with ⟨rfl, rfl, -⟩ | ⟨rfl, rfl, -⟩ | ⟨rfl, rfl, -⟩ | ⟨rfl, rfl, -⟩ | ⟨rfl, rfl, -⟩ | ⟨rfl, rfl, -⟩ <;> rfl

/-- A value outside R88's table is no command. -/
theorem decodeHost_of_not_mem {v : Word}
    (hv : v ∉ ([0x0001, 0x0002, 0x0003, 0x0005, 0x0006, 0x0007] : List Word)) : ∃ e, decodeHost v = .error e := by
  cases hd : decodeHost v with
  | error e => exact ⟨e, rfl⟩
  | ok i => exact absurd (List.mem_map_of_mem (f := Prod.fst) ((hostCommandValuesDecode v i).1 hd)) hv

end Sys2Proof

namespace Sys2Proof.Machine

theorem illegalCommand_idle {s : State} (h : s.phase = .idle) :
    illegalCommand s = { s with done := true, err := .arg, pvalid := false, rxq := [] } :=
  (illegalCommand_cases s).elim (fun hc => absurd h hc.1) And.right

/-- Settles O24: what R88's table leaves out, and the decoder that rejects it. -/
theorem everyOtherCmdValueIsIllegal : Obligations.EveryOtherCmdValueIsIllegal := by
  unfold Obligations.EveryOtherCmdValueIsIllegal
  refine ⟨fun v => ?_, fun s v hv hp => ?_⟩
  · rw [mem_commandValues_iff]
    tauto
  · obtain ⟨e, he⟩ := decodeHost_of_not_mem hv
    calc memWrite 0x000 v s = .next (illegalCommand s) := commandWrite_of_reject he
      _ = .next { s with done := true, err := .arg, pvalid := false, rxq := [] } :=
        congrArg _ (illegalCommand_idle hp)

/-! ### The word of a table row -/

theorem exec_wire (op : Op) (s : State) : exec op.wire s = .next (wireInstruction op s) := by
  cases op <;> rfl

/-- The `BUILD` value of an operation runs its build-only command (R92). -/
theorem commandWrite_buildValue (op : Op) (s : State) : commandWrite (buildValue op) s = .next (command op true s) := by
  cases op <;> rfl

/-- A placed `CMD` write is what the very next step runs, at the state it was placed in. -/
theorem step_placeCommand {s : State} (hc : s.cfg.accepted = true) (v : Word) :
    step (placeCommand v s) = commandWrite v s :=
  calc step (placeCommand v s) = hostTurn { placeCommand v s with events := s.events } :=
        step_event (s := placeCommand v s) hc rfl
    _ = commandWrite v s := hostTurn_write_cmd rfl

theorem dataTooLong_clearOutcome (op : Op) (s : State) : dataTooLong op (clearOutcome s) = dataTooLong op s := rfl

/-- A build-only command has no acknowledgement to refuse (R132). -/
theorem illegalOperands_build (op : Op) (s : State) : illegalOperands op true s = dataTooLong op s := by
  simp [illegalOperands]

/-- A build-only command is its wire instruction run once the outcome is cleared, and `DONE` (R102, R131). -/
theorem command_build_eq_wireInstruction {s : State} (h : s.phase = .idle) (op : Op) :
    command op true s = { wireInstruction op (clearOutcome s) with done := true } := by
  rcases wireInstruction_cases op (clearOutcome s) with ⟨hp, -⟩ | ⟨-, hl, e⟩ | ⟨-, hl, e⟩
  · exact absurd h hp
  · rw [e, command_illegal h ((illegalOperands_build op s).trans hl)]
    rfl
  · rw [e, command_build h ((illegalOperands_build op s).trans hl)]
    rfl

theorem wireInstruction_busy {s : State} (h : s.phase ≠ .idle) (op : Op) : wireInstruction op s = s := by
  simp [wireInstruction, busy_of_not_idle h]

theorem opOfByte_congr {c d : Config} (hw : c.opWrite = d.opWrite) (ha : c.opAction = d.opAction) (b : Byte) :
    opOfByte c b = opOfByte d b := by
  simp only [opOfByte, hw, ha]

theorem decodeTableWord_eq_some {nbits w : Nat} {i : Instr} (h : decodeTableWord nbits w = some i) :
    ∃ cw, tableCodeWord nbits w = some cw ∧ decode Config.standard cw = .ok i := by
  unfold decodeTableWord at h
  split at h
  · cases h
  · next cw hcw =>
    split at h
    · next j hj =>
      cases h
      exact ⟨cw, hcw, hj⟩
    · cases h

/-- The word of a 16-bit row is the value written to `CMD`. -/
theorem step_withFetchWord_host {s : State} {w : Nat} {i : Instr} (hc : s.cfg.accepted = true)
    (h : decodeTableWord 16 w = some i) : step (s.withFetchWord 16 w) = exec i s := by
  obtain ⟨cw, hcw, hi⟩ := decodeTableWord_eq_some h
  cases hcw
  exact (step_placeCommand hc _).trans (commandWrite_of_decode hi)

/-- The word of an 8-bit row is a wire instruction, and the step is the `BUILD` of its operation. -/
theorem step_withFetchWord_wire {s : State} {w : Nat} {i : Instr} (hc : s.cfg.accepted = true)
    (hw : s.cfg.opWrite = 0x03) (ha : s.cfg.opAction = 0x05) (h : decodeTableWord 8 w = some i) :
    ∃ op, op.wire = i ∧ step (s.withFetchWord 8 w) = .next (command op true s) := by
  obtain ⟨cw, hcw, hi⟩ := decodeTableWord_eq_some h
  cases hcw
  obtain ⟨op, hop, rfl⟩ := decodeWire_eq_ok_iff.1 hi
  have hplace : s.withFetchWord 8 w = placeCommand (buildValue op) s := by
    show placeCodeWord (.wire (BitVec.ofNat 8 w)) s = _
    simp only [placeCodeWord, opOfByte_congr (d := Config.standard) hw ha, hop]
  exact ⟨op, rfl, by rw [hplace, step_placeCommand hc, commandWrite_buildValue]⟩

/-- Settles O7: a host row's word is the command itself; a wire row's word is its `BUILD`, which is the wire instruction
inside an acceptance, and nothing in flight. -/
theorem placedTableWordRunsNext : Obligations.PlacedTableWordRunsNext := by
  unfold Obligations.PlacedTableWordRunsNext
  intro s nbits w i hc hw ha hd
  refine ⟨?_, ?_, ?_⟩
  · rintro rfl
    exact step_withFetchWord_host hc hd
  · rintro rfl hp
    obtain ⟨op, rfl, hstep⟩ := step_withFetchWord_wire hc hw ha hd
    exact ⟨_, exec_wire op _, by rw [hstep, command_build_eq_wireInstruction hp]; rfl⟩
  · rintro rfl hp
    obtain ⟨op, rfl, hstep⟩ := step_withFetchWord_wire hc hw ha hd
    rw [hstep, exec_wire, command_busy hp, wireInstruction_busy hp]

end Sys2Proof.Machine
end

section
/-! PROOFS. Scope: the host side's reading of a register, and the accesses of a move (R92, R104, R131, R171 to R175,
R181, R184). -/

namespace Sys2Proof.Machine

/-! ### Reading a register -/

theorem littleEndian_two (b0 b1 : Byte) : littleEndian [b0, b1] = b0.toNat + 256 * b1.toNat := rfl

theorem littleEndian_two_le (b0 b1 : Byte) : littleEndian [b0, b1] ≤ 65535 := by
  rw [littleEndian_two]
  omega

/-- `raw == 1` of one byte (R175). -/
theorem littleEndian_one_beq_one (b : Byte) : (littleEndian [b] == 1) = decide (b = 1) := by
  have hb : littleEndian [b] = 1 ↔ b = 1 := BitVec.toNat_inj (y := 1)
  rw [Bool.eq_iff_iff, beq_iff_eq, decide_eq_true_iff, hb]

/-- The registers whose result is the raw value (R171, R174). -/
theorem scale_integer {r : DeviceReg} (hm : r ≠ .movingStatus) (hl : r ≠ .presentLoad) (hv : r ≠ .presentVoltage)
    (raw : Nat) : scale r raw = .integer raw := by
  cases r with
  | presentPosition => rfl
  | presentSpeed => rfl
  | presentLoad => exact absurd rfl hl
  | presentVoltage => exact absurd rfl hv
  | presentTemperature => rfl
  | movingStatus => exact absurd rfl hm
  | presentCurrent => rfl

theorem interpretRead_ok (r : DeviceReg) (p : List Byte) :
    interpretRead r .ok p = .value (scale r (littleEndian (p.take r.width))) := rfl

/-- R174's two examples: 255 and 120 tenths, rounded to binary64. -/
theorem round_tenths_examples :
    Binary64.round false 255 10 = Binary64.ofBits 0x4039800000000000 ∧
      Binary64.round false 120 10 = Binary64.ofBits 0x4028000000000000 := by decide +kernel

theorem width_cases (r : DeviceReg) : r.width = 1 ∨ r.width = 2 := by cases r <;> decide

/-- The host reads the payload from 0x400 on, one byte an address. -/
theorem payloadBytes_width (r : DeviceReg) (s : State) : payloadBytes s r.width =
    [(memRead 0x400 s).setWidth 8, (memRead 0x401 s).setWidth 8].take r.width := by
  rcases width_cases r with h | h <;> rw [h] <;> rfl

theorem readPayload_width (r : DeviceReg) : readPayload 0 r.width =
    ([.read 0x400, .read 0x401] : List HostOp).take r.width := by
  rcases width_cases r with h | h <;> rw [h] <;> rfl

/-- The address and the width of a row of R171, as `XREAD` writes them. -/
theorem address_width_of_row {r : DeviceReg} {a w : Word} (h : (r, a, w) ∈
    ([(.presentPosition, 56, 2), (.presentSpeed, 58, 2), (.presentLoad, 60, 2), (.presentVoltage, 62, 1),
      (.presentTemperature, 63, 1), (.movingStatus, 66, 1), (.presentCurrent, 69, 2)] :
      List (DeviceReg × Word × Word))) :
    r.address.setWidth 16 = a ∧ (BitVec.ofNat 8 r.width).setWidth 16 = w ∧ r.width = w.toNat := by
  simp only [List.mem_cons, Prod.mk.injEq, List.not_mem_nil, or_false] at h
  rcases h with ⟨rfl, rfl, rfl⟩ | ⟨rfl, rfl, rfl⟩ | ⟨rfl, rfl, rfl⟩ | ⟨rfl, rfl, rfl⟩ | ⟨rfl, rfl, rfl⟩ |
    ⟨rfl, rfl, rfl⟩ | ⟨rfl, rfl, rfl⟩ <;> decide

/-- Settles O53: the error kinds and the single registers by evaluation, the others by their lemmas. -/
theorem readResultFollowsTheOutcome : Obligations.ReadResultFollowsTheOutcome := by
  unfold Obligations.ReadResultFollowsTheOutcome
  refine ⟨fun b0 b1 => ⟨rfl, littleEndian_two b0 b1, littleEndian_two_le b0 b1⟩,
    fun r p => ⟨rfl, rfl, rfl, rfl, rfl⟩, fun b => ?_, fun r p hm hl hv => ?_,
    fun b0 b1 => ⟨rfl, rfl, rfl, rfl, rfl, rfl⟩, ?_, ?_, fun id r a w h => ?_, fun r s => ?_⟩
  · show CallResult.value (RegValue.boolean (littleEndian [b] == 1)) = _
    rw [littleEndian_one_beq_one]
  · rw [interpretRead_ok, scale_integer hm hl hv]
  · exact congrArg (fun x => CallResult.value (RegValue.float x)) round_tenths_examples.1
  · exact congrArg (fun x => CallResult.value (RegValue.float x)) round_tenths_examples.2
  · obtain ⟨rfl, rfl, hw⟩ := address_width_of_row h
    rw [readProgram, xread, readPayload_width, ← hw]
  · rw [readResult, payloadBytes_width]

/-! ### The accesses of `XWRITE` -/

/-- What a host operation leaves in the CSR map where it is a write to a location other than `CMD` (R63). -/
def storeOp (s : State) : HostOp → State
  | .write a v => storeCsr a v s
  | _          => s

/-- A write to a location other than `CMD`, which a host turn does as `storeOp` says. -/
def isStore : HostOp → Bool
  | .write a _ => a != 0
  | _          => false

theorem exists_write_of_isStore {op : HostOp} (h : isStore op = true) : ∃ a v, op = .write a v ∧ a ≠ 0 := by
  cases op with
  | write a v => exact ⟨a, v, rfl, by simpa [isStore] using h⟩
  | read a => cases h
  | waitDone => cases h

theorem storeCsr_cfg (a : HostAddr) (v : Word) (s : State) : (storeCsr a v s).cfg = s.cfg := by
  rw [storeCsr_eq]

/-- The CSR map does not look at what is still to come from outside. -/
theorem storeCsr_outside (a : HostAddr) (v : Word) (s : State) (host : List HostOp) (events : List Event) :
    storeCsr a v { s with host := host, events := events } =
      { storeCsr a v s with host := host, events := events } := by
  rw [storeCsr_eq, storeCsr_eq]

/-- One `host` event on a write to a location other than `CMD` is one step, which stores the value. -/
theorem step_write {s : State} (hc : s.cfg.accepted = true) {a : HostAddr} (ha : a ≠ 0) (v : Word)
    (ops : List HostOp) (es : List Event) :
    step { s with host := .write a v :: ops, events := .host :: es } =
      .next { storeCsr a v s with host := ops, events := es } :=
  calc step { s with host := .write a v :: ops, events := .host :: es }
    _ = memWrite a v { s with host := ops, events := es } :=
      step_event (s := { s with host := .write a v :: ops, events := .host :: es }) hc rfl
    _ = .next { storeCsr a v s with host := ops, events := es } := by rw [memWrite_of_ne ha, storeCsr_outside]

/-- The host's stores run one `host` event each, and `k` steps are left. -/
theorem run_stores {ws : List HostOp} (hws : ∀ op ∈ ws, isStore op = true) {s : State}
    (hc : s.cfg.accepted = true) (k : Nat) (ops : List HostOp) (es : List Event) :
    Host.Core.run core (ws.length + k)
        { s with host := ws ++ ops, events := List.replicate ws.length .host ++ es } =
      Host.Core.run core k { ws.foldl storeOp s with host := ops, events := es } := by
  induction ws generalizing s with
  | nil =>
    rw [List.length_nil, Nat.zero_add]
    rfl
  | cons op ws ih =>
    obtain ⟨hop, hrest⟩ := List.forall_mem_cons.1 hws
    obtain ⟨a, v, rfl, ha⟩ := exists_write_of_isStore hop
    rw [List.length_cons, Nat.succ_add]
    exact (run_succ (step_write hc ha v _ _) _).trans (ih hrest ((storeCsr_cfg a v s).symm ▸ hc))

/-- The accesses of `XWRITE` before its `CMD` (R92). -/
def writeOperands (id a : Byte) (ds : List Byte) (n : BitVec 9) : List HostOp :=
  [.write 0x002 (id.setWidth 16), .write 0x003 (a.setWidth 16)] ++ writeData 0 ds ++
    [.write 0x005 (BitVec.ofNat 16 ds.length), .write 0x006 (n.setWidth 16)]

theorem xwrite_eq_append (id a : Byte) (ds : List Byte) (n : BitVec 9) :
    xwrite id a ds n = writeOperands id a ds n ++ [.write 0x000 0x0002, .waitDone] := by
  simp [xwrite, writeOperands]

theorem length_writeData (i : Nat) (ds : List Byte) : (writeData i ds).length = ds.length := by
  induction ds generalizing i with
  | nil => rfl
  | cons d ds ih => simp [writeData, ih]

theorem length_writeOperands (id a : Byte) (ds : List Byte) (n : BitVec 9) :
    (writeOperands id a ds n).length = ds.length + 4 := by
  simp [writeOperands, length_writeData]

theorem hostAddr_txdata_ne_zero {i : Nat} (h : i ≤ 251) : BitVec.ofNat 11 (0x100 + i) ≠ 0 := fun h0 => by
  have hn := congrArg BitVec.toNat h0
  rw [toNat_hostAddr (by omega)] at hn
  simp at hn

theorem isStore_of_mem_writeData {i : Nat} {ds : List Byte} (hl : i + ds.length ≤ 252) {op : HostOp}
    (h : op ∈ writeData i ds) : isStore op = true := by
  induction ds generalizing i with
  | nil => cases h
  | cons d ds ih =>
    rw [List.length_cons] at hl
    rcases List.mem_cons.1 h with rfl | h
    · exact bne_iff_ne.2 (hostAddr_txdata_ne_zero (by omega))
    · exact ih (i := i + 1) (by omega) h

theorem isStore_of_mem_writeOperands {id a : Byte} {ds : List Byte} {n : BitVec 9} (hl : ds.length ≤ 252)
    {op : HostOp} (h : op ∈ writeOperands id a ds n) : isStore op = true := by
  simp only [writeOperands, List.mem_append, List.mem_cons, List.not_mem_nil, or_false] at h
  rcases h with ((rfl | rfl) | h) | (rfl | rfl)
  · rfl
  · rfl
  · exact isStore_of_mem_writeData (by omega) h
  · rfl
  · rfl

theorem foldl_storeOp_writeData {i : Nat} {ds : List Byte} (hl : i + ds.length ≤ 252) (s : State) :
    (writeData i ds).foldl storeOp s = { s with txdata := s.txdata.writeBytes i ds } := by
  induction ds generalizing i s with
  | nil => rfl
  | cons d ds ih =>
    rw [List.length_cons] at hl
    have hd : (d.setWidth 16).setWidth 8 = d := by simp
    rw [writeData, List.foldl_cons, storeOp, storeCsr_txdata (by omega), hd, ih (by omega)]
    rfl

/-- The operand registers once the accesses of `XWRITE` before its `CMD` have run. -/
def writeLoaded (id a : Byte) (ds : List Byte) (n : BitVec 9) (s : State) : State := { s with
  id := id, addr := a, dlen := BitVec.ofNat 8 ds.length, acklen := n, txdata := s.txdata.writeBytes 0 ds }

theorem foldl_storeOp_writeOperands (id a : Byte) {ds : List Byte} (hl : ds.length ≤ 252) (n : BitVec 9) (s : State) :
    (writeOperands id a ds n).foldl storeOp s = writeLoaded id a ds n s := by
  rw [writeOperands, List.foldl_append, List.foldl_append, foldl_storeOp_writeData (by omega)]
  show { s with
    id := (id.setWidth 16).setWidth 8, addr := (a.setWidth 16).setWidth 8
    dlen := (BitVec.ofNat 16 ds.length).setWidth 8, acklen := (n.setWidth 16).setWidth 9
    txdata := s.txdata.writeBytes 0 ds } = writeLoaded id a ds n s
  simp [writeLoaded]

/-- The bytes just written are the slice that the framer reads. -/
theorem Memory.slice_writeBytes {m : Memory} (h : m.wf = true) (a : Nat) (bs : List Byte) :
    (m.writeBytes a bs).slice a bs.length = bs := by
  refine List.ext_getElem (by simp) fun i h1 h2 => ?_
  rw [Memory.getElem_slice, Memory.read_writeBytes h, if_pos (by omega), Nat.add_sub_cancel_left,
    List.getD_eq_getElem _ _ h2]

theorem writeLoaded_dlen_toNat {ds : List Byte} (hl : ds.length ≤ 252) (id a : Byte) (n : BitVec 9) (s : State) :
    (writeLoaded id a ds n s).dlen.toNat = ds.length := by
  show (BitVec.ofNat 8 ds.length).toNat = ds.length
  rw [BitVec.toNat_ofNat]
  omega

theorem frameOf_writeLoaded {s : State} (hw : s.txdata.wf = true) {ds : List Byte} (hl : ds.length ≤ 252)
    (id a : Byte) (n : BitVec 9) : frameOf .write (writeLoaded id a ds n s) = ⟨id, .write a ds⟩ := by
  have hdata : (writeLoaded id a ds n s).txdata.slice 0 ds.length = ds := Memory.slice_writeBytes hw 0 ds
  simp only [frameOf, writeLoaded_dlen_toNat hl, hdata]
  rfl

theorem writeLoaded_legal {ds : List Byte} (hl : ds.length ≤ 252) {n : BitVec 9} (hn : n.toNat ≤ 261) (id a : Byte)
    (s : State) : illegalOperands .write false (writeLoaded id a ds n s) = false := by
  have hdata : dataTooLong .write (writeLoaded id a ds n s) = false := by
    simp only [dataTooLong, writeLoaded_dlen_toNat hl]
    exact decide_eq_false (Nat.not_lt.2 hl)
  have hack : ackTooLong .write (writeLoaded id a ds n s) = false := decide_eq_false (Nat.not_lt.2 hn)
  simp [illegalOperands, hdata, hack]

/-- All of `XWRITE` before its `CMD` runs one `host` event an access, and loads the operand registers. -/
theorem run_writeOperands {s : State} (hc : s.cfg.accepted = true) {id a : Byte} {ds : List Byte} {n : BitVec 9}
    (hl : ds.length ≤ 252) {es : List Event} (hhost : s.host = xwrite id a ds n)
    (hevents : s.events = List.replicate (ds.length + 5) .host ++ es) :
    Host.Core.run core (ds.length + 5) s = Host.Core.run core 1
      { writeLoaded id a ds n s with host := [.write 0x000 0x0002, .waitDone], events := .host :: es } := by
  have hcount : ds.length + 5 = (writeOperands id a ds n).length + 1 := by rw [length_writeOperands]
  have hs : s = { s with
      host := writeOperands id a ds n ++ [.write 0x000 0x0002, .waitDone]
      events := List.replicate (writeOperands id a ds n).length .host ++ .host :: es } := by
    rw [hcount, List.replicate_succ', List.append_assoc] at hevents
    rw [← xwrite_eq_append, ← hhost, ← List.singleton_append, ← hevents]
  conv_lhs => rw [hs, hcount]
  rw [run_stores (fun _ => isStore_of_mem_writeOperands hl) hc, foldl_storeOp_writeOperands id a hl]

/-- The accesses of `XWRITE` from `IDLE`, all but its `WAITDONE`, emit the frame and leave the block waiting (R131). -/
theorem run_xwrite {s : State} (hinv : StateInv s) (hp : s.phase = .idle) (hv : nextVerdict s = .ok) {id a : Byte}
    {ds : List Byte} {n : BitVec 9} (hl : ds.length ≤ 252) (hn : n.toNat ≤ 261) {es : List Event}
    (hhost : s.host = xwrite id a ds n) (hevents : s.events = List.replicate (ds.length + 5) .host ++ es) :
    ∃ t, Host.Core.run core (ds.length + 5) s = .next t ∧ t.phase = .wait ∧ t.lN = n ∧ t.lValidate = false ∧
      t.host = [.waitDone] ∧ t.events = es ∧ t.emitted = s.emitted ++ [encodeFrame s.cfg ⟨id, .write a ds⟩] := by
  have hw : s.txdata.wf = true := ((Memory.good_iff _ _).1 hinv.txdata).1
  have hstep : step { writeLoaded id a ds n s with host := [.write 0x000 0x0002, .waitDone], events := .host :: es } =
      .next (command .write false { writeLoaded id a ds n s with host := [.waitDone], events := es }) :=
    step_event (s := { writeLoaded id a ds n s with host := [.write 0x000 0x0002, .waitDone], events := .host :: es })
      hinv.config rfl
  refine ⟨_, (run_writeOperands hinv.config hl hhost hevents).trans (run_succ hstep 0), ?_⟩
  rw [command_send_ok (s := { writeLoaded id a ds n s with host := [.waitDone], events := es }) hp
    (writeLoaded_legal hl hn id a s) hv]
  refine ⟨rfl, rfl, rfl, rfl, rfl, ?_⟩
  exact congrArg (fun f => s.emitted ++ [encodeFrame s.cfg f]) (frameOf_writeLoaded hw hl id a n)

/-! ### The move -/

/-- The low and the high byte of a word, by arithmetic (R68). -/
theorem bytes_ofInt {n : Nat} (hn : n < 65536) :
    (BitVec.ofInt 16 (n : Int)).extractLsb' 0 8 = BitVec.ofNat 8 (n % 256) ∧
      (BitVec.ofInt 16 (n : Int)).extractLsb' 8 8 = BitVec.ofNat 8 (n / 256) := by
  rw [BitVec.ofInt_natCast]
  constructor <;> apply BitVec.eq_of_toNat_eq <;>
    simp only [BitVec.extractLsb'_toNat, BitVec.toNat_ofNat, Nat.shiftRight_eq_div_pow] <;> omega

theorem moveData_ofInt {p v : Nat} (hp : p < 65536) (hv : v < 65536) :
    moveData (BitVec.ofInt 16 p) (BitVec.ofInt 16 v) =
      [BitVec.ofNat 8 (p % 256), BitVec.ofNat 8 (p / 256), 0x00, 0x00, BitVec.ofNat 8 (v % 256),
        BitVec.ofNat 8 (v / 256)] := by
  obtain ⟨hplow, hphigh⟩ := bytes_ofInt hp
  obtain ⟨hvlow, hvhigh⟩ := bytes_ofInt hv
  rw [moveData, hplow, hphigh, hvlow, hvhigh]

/-- Settles O57: a move is the `XWRITE` of six data bytes, whose frame is written out. -/
theorem moveEmitsTheMoveFrame : Obligations.MoveEmitsTheMoveFrame := by
  unfold Obligations.MoveEmitsTheMoveFrame
  intro s id p v es hinv hidle hverdict hp hv hhost hevents
  obtain ⟨t, hrun, hphase, hlN, hval, hops, hes, hemit⟩ :=
    run_xwrite (ds := moveData (BitVec.ofInt 16 p) (BitVec.ofInt 16 v)) (n := 6) hinv hidle hverdict
      (show 6 ≤ 252 by decide) (by decide) hhost hevents
  refine ⟨t, hrun, hphase, hlN, hval, hops, hes, ?_⟩
  rw [hemit, moveData_ofInt (by omega) (by omega)]
  rfl

end Sys2Proof.Machine
end

section
/-! PROOFS. Scope: the checksum, the built frames byte by byte, the frame an accepted command stores, and the wire
instructions inside their commands (R81, R100 to R106, R110, R131, R138 to R140). -/

namespace Sys2Proof

open Machine

/-! ### The checksum -/

/-- The checksum is the complement of the sum modulo 256 (R100). -/
theorem ck_toNat_eq_sum (s : List Byte) : (ck s).toNat = 255 - (s.map BitVec.toNat).sum % 256 := by
  rw [ck_toNat, byteSum_eq_sum]

/-- The order of addition does not change the sum (R100). -/
theorem byteSum_perm {s t : List Byte} (h : s.Perm t) : byteSum s = byteSum t := by
  rw [byteSum_eq_sum, byteSum_eq_sum, (h.map BitVec.toNat).sum_eq]

/-- Settles O9: the residue of the sum fixes the checksum, and a permutation keeps the sum. -/
theorem checksumIsTheInvertedSumInAnyOrder : Obligations.ChecksumIsTheInvertedSumInAnyOrder := by
  unfold Obligations.ChecksumIsTheInvertedSumInAnyOrder
  refine ⟨ck_toNat_eq_sum, fun s t h => ck_congr (congrArg (· % 256) (byteSum_perm h)), fun s h => ?_, fun s h => ?_,
    rfl, rfl⟩
  · exact BitVec.eq_of_toNat_eq (by rw [ck_toNat_eq_sum, h]; rfl)
  · exact BitVec.eq_of_toNat_eq (by rw [ck_toNat_eq_sum, h]; rfl)

/-- A run of bytes followed by its checksum sums to 255 modulo 256, and no other last byte does that (R101). -/
theorem byteSum_concat_eq_iff (s : List Byte) (b : Byte) : byteSum (s ++ [b]) % 256 = 255 ↔ ck s = b := by
  rw [byteSum_append, byteSum_cons, byteSum_nil, Nat.add_zero, ← eq_ck_iff, eq_comm]

/-! ### The parts of an encoded frame -/

theorem drop_two_encodeFrame (c : Config) (f : CommandFrame) :
    (encodeFrame c f).drop 2 = frameBodyBytes c f ++ [ck (frameBodyBytes c f)] := rfl

/-- The bytes the checksum covers are all but the header and the last (R102). -/
theorem take_drop_two_encodeFrame (c : Config) (f : CommandFrame) :
    ((encodeFrame c f).drop 2).take ((encodeFrame c f).length - 3) = frameBodyBytes c f := by
  rw [drop_two_encodeFrame, length_encodeFrame]
  exact List.take_left' (length_frameBodyBytes c f)

/-- The last byte of a frame is the checksum of its body (R102). -/
theorem getD_last_encodeFrame (c : Config) (f : CommandFrame) :
    (encodeFrame c f).getD ((encodeFrame c f).length - 1) 0 = ck (frameBodyBytes c f) := by
  have hsplit : encodeFrame c f = (hdr :: hdr :: frameBodyBytes c f) ++ [ck (frameBodyBytes c f)] := rfl
  have hlast : (encodeFrame c f).length - 1 = (hdr :: hdr :: frameBodyBytes c f).length := by simp
  rw [hlast, hsplit, List.getD_append_right _ _ _ _ le_rfl, Nat.sub_self, List.getD_cons_zero]

namespace Machine

/-! ### The validator's comparison -/

/-- A slice one byte longer ends in the byte after it. -/
theorem Memory.slice_succ (m : Memory) (a n : Nat) : m.slice a (n + 1) = m.slice a n ++ [m.read (a + n)] := by
  induction n generalizing a with
  | zero => rfl
  | succ n ih =>
    have hrest := ih (a + 1)
    rw [Nat.add_right_comm, Nat.add_assoc] at hrest
    exact congrArg (m.read a :: ·) hrest

theorem validate_iff (s : State) :
    validate s = true ↔ ck (s.rxbuf.slice 2 (s.lN.toNat - 3)) = s.rxbuf.read (s.lN.toNat - 1) := beq_iff_eq

/-- The validator's comparison as one sum, over the covered bytes and the checksum byte (R101, R110). -/
theorem validate_iff_byteSum {s : State} (h : 6 ≤ s.lN.toNat) :
    validate s = true ↔ byteSum (s.rxbuf.slice 2 (s.lN.toNat - 2)) % 256 = 255 := by
  have hslice : s.rxbuf.slice 2 (s.lN.toNat - 2) =
      s.rxbuf.slice 2 (s.lN.toNat - 3) ++ [s.rxbuf.read (s.lN.toNat - 1)] := by
    rw [show s.lN.toNat - 2 = s.lN.toNat - 3 + 1 by omega, Memory.slice_succ,
      show 2 + (s.lN.toNat - 3) = s.lN.toNat - 1 by omega]
  rw [validate_iff, hslice, byteSum_concat_eq_iff]

/-- Settles O10: a frame's own parts, and the validator's comparison as a sum. -/
theorem builtFramesPassTheirOwnChecksum : Obligations.BuiltFramesPassTheirOwnChecksum := by
  unfold Obligations.BuiltFramesPassTheirOwnChecksum
  refine ⟨fun op s _ => ⟨?_, ?_⟩, fun s h => ?_⟩
  · rw [buildFrame, take_drop_two_encodeFrame, getD_last_encodeFrame]
  · rw [← byteSum_eq_sum, buildFrame, drop_two_encodeFrame, byteSum_concat_eq_iff]
  · rw [← byteSum_eq_sum]
    exact validate_iff_byteSum h

/-! ### The built frames byte by byte -/

theorem buildFrame_read (s : State) : buildFrame .read s =
    [0xFF, 0xFF, s.id, 0x04, 0x02, s.addr, s.count, ck [s.id, 0x04, 0x02, s.addr, s.count]] := rfl

theorem buildFrame_action (s : State) : buildFrame .action s =
    [0xFF, 0xFF, s.id, 0x02, s.cfg.opAction, ck [s.id, 0x02, s.cfg.opAction]] := rfl

/-- Settles O11. -/
theorem readFrameBytes : Obligations.ReadFrameBytes := by
  unfold Obligations.ReadFrameBytes
  refine ⟨fun s => ⟨buildFrame_read s, rfl, rfl, rfl⟩, fun s hid haddr hcount => ?_⟩
  rw [buildFrame_read, hid, haddr, hcount]
  rfl

/-- Settles O13. -/
theorem actionFrameBytes : Obligations.ActionFrameBytes := by
  unfold Obligations.ActionFrameBytes
  refine ⟨fun s => ⟨buildFrame_action s, rfl⟩, fun _ _ _ _ _ => rfl, fun s hop hid => ?_, fun s hop hid => ?_⟩
  · rw [buildFrame_action, hop, hid]
    rfl
  · rw [buildFrame_action, hop, hid]
    rfl

/-- What the checksum of a WRITE covers: `LEN` counts the address and the data (R82, R104). -/
theorem frameBodyBytes_write (s : State) : frameBodyBytes s.cfg (frameOf .write s) =
    [s.id, BitVec.ofNat 8 (3 + s.dlen.toNat), s.cfg.opWrite, s.addr] ++ s.txdata.slice 0 s.dlen.toNat := by
  have hlen : 2 + (s.addr :: s.txdata.slice 0 s.dlen.toNat).length = 3 + s.dlen.toNat := by
    rw [List.length_cons, Memory.length_slice]
    omega
  rw [← hlen]
  rfl

theorem buildFrame_write (s : State) : buildFrame .write s =
    [0xFF, 0xFF, s.id, BitVec.ofNat 8 (3 + s.dlen.toNat), s.cfg.opWrite, s.addr] ++
      s.txdata.slice 0 s.dlen.toNat ++
      [ck ([s.id, BitVec.ofNat 8 (3 + s.dlen.toNat), s.cfg.opWrite, s.addr] ++ s.txdata.slice 0 s.dlen.toNat)] := by
  show hdr :: hdr :: (frameBodyBytes s.cfg (frameOf .write s) ++ [ck (frameBodyBytes s.cfg (frameOf .write s))]) = _
  rw [frameBodyBytes_write]
  rfl

theorem length_buildFrame_write (s : State) : (buildFrame .write s).length = 7 + s.dlen.toNat := by
  simp [frameOf, FrameBody.params]
  omega

/-- The framer reads no data at or beyond `DLEN` (R104). -/
theorem buildFrame_write_congr {s : State} {m : Memory} (h : ∀ i < s.dlen.toNat, m.read i = s.txdata.read i) :
    buildFrame .write { s with txdata := m } = buildFrame .write s := by
  have hdata : m.slice 0 s.dlen.toNat = s.txdata.slice 0 s.dlen.toNat :=
    Memory.slice_congr fun i hi => by simpa using h i hi
  rw [buildFrame_write, buildFrame_write, ← hdata]

/-- The caller's guarantee on WRITE data, read off `DLEN` (R104, R132). -/
theorem dataTooLong_write_eq_false {s : State} (h : s.dlen.toNat ≤ 252) : dataTooLong .write s = false :=
  decide_eq_false (not_lt.2 h)

theorem dataTooLong_write_eq_true {s : State} (h : 252 < s.dlen.toNat) : dataTooLong .write s = true :=
  decide_eq_true h

/-- Settles O12. -/
theorem writeFrameBytes : Obligations.WriteFrameBytes := by
  unfold Obligations.WriteFrameBytes
  refine ⟨fun s _ => ⟨buildFrame_write s, length_buildFrame_write s⟩, fun s m => buildFrame_write_congr,
    fun s n h => ?_, fun s hop hid haddr hdlen hdata => ?_⟩
  · rw [illegalOperands, dataTooLong_write_eq_true h, Bool.true_or]
  · have hsix : (6 : Byte).toNat = 6 := rfl
    rw [buildFrame_write, hop, hid, haddr, hdlen, hsix, hdata]
    rfl

/-! ### The frame an accepted command stores -/

theorem buildFrame_length_lt {op : Op} {s : State} (h : dataTooLong op s = false) :
    (buildFrame op s).length < 2 ^ 9 :=
  (buildFrame_length_le h).2.trans_lt (by decide)

/-- `TXLEN` holds the length of every frame whose data fits (R31). -/
theorem txlen_toNat {op : Op} {s : State} (h : dataTooLong op s = false) :
    (BitVec.ofNat 9 (buildFrame op s).length).toNat = (buildFrame op s).length :=
  (BitVec.toNat_ofNat _ 9).trans (Nat.mod_eq_of_lt (buildFrame_length_lt h))

/-- Every legal command accepted in `IDLE`, sending or build-only, stores the frame built from the CSRs (R106, R131). -/
theorem command_stores {op : Op} {n : Bool} {s : State} (hp : s.phase = .idle)
    (hl : illegalOperands op n s = false) :
    (command op n s).txframe = Memory.ofBytes 0 (buildFrame op s) ∧
      (command op n s).txlen = BitVec.ofNat 9 (buildFrame op s).length := by
  rcases command_cases op n s with ⟨h, -⟩ | ⟨-, h, -⟩ | ⟨-, -, -, e⟩ | ⟨-, -, -, -, e⟩ | ⟨-, -, -, -, e⟩
  · exact absurd hp h
  · rw [hl] at h
    cases h
  all_goals
    rw [e]
    exact ⟨rfl, rfl⟩

/-- A legal sending command emits that frame, whatever the transport answers (R131, R133). -/
theorem command_emits {op : Op} {s : State} (hp : s.phase = .idle) (hl : illegalOperands op false s = false) :
    (command op false s).emitted = s.emitted ++ [buildFrame op s] := by
  cases hv : nextVerdict s with
  | ok => rw [command_send_ok hp hl hv]
  | ioError => rw [command_send_io hp hl hv]

/-- Settles O15: the stored frame reads byte by byte, and the port shows what is stored. -/
theorem acceptedCommandStoresItsFrame : Obligations.AcceptedCommandStoresItsFrame := by
  unfold Obligations.AcceptedCommandStoresItsFrame
  intro op n s hp hl
  obtain ⟨hframe, hlen⟩ := command_stores hp hl
  refine ⟨by rw [hlen, txlen_toNat (dataTooLong_of_legal hl)], fun i hi => ?_⟩
  have hread : (command op n s).txframe.read i = (buildFrame op s).getD i 0 := by
    rw [hframe, Memory.read_ofBytes_zero]
  exact ⟨hread, fun hle => by rw [hread, List.getD_eq_default _ _ hle], by rw [memRead_txframe _ hi, hread]⟩

/-! ### The wire instructions -/

/-- In `IDLE`, with data that fits, a wire instruction stores its frame and changes nothing else (R102, R106). -/
theorem wireInstruction_idle {op : Op} {s : State} (hp : s.phase = .idle) (hl : dataTooLong op s = false) :
    wireInstruction op s = { s with
      txframe := Memory.ofBytes 0 (buildFrame op s), txlen := BitVec.ofNat 9 (buildFrame op s).length } := by
  rcases wireInstruction_cases op s with ⟨h, -⟩ | ⟨-, h, -⟩ | ⟨-, -, e⟩
  · exact absurd hp h
  · rw [hl] at h
    cases h
  · exact e

/-- In `IDLE`, data longer than a frame holds ends `ARG` (log 5). -/
theorem wireInstruction_tooLong {op : Op} {s : State} (hp : s.phase = .idle) (hl : dataTooLong op s = true) :
    wireInstruction op s = { s with rxq := [], err := .arg, pvalid := false, done := true } := by
  rcases wireInstruction_cases op s with ⟨h, -⟩ | ⟨-, -, e⟩ | ⟨-, h, -⟩
  · exact absurd hp h
  · exact e
  · rw [hl] at h
    cases h

/-- Settles O16: the three cases of a wire instruction, for each operation. -/
theorem wireInstructionsStoreTheirFrame : Obligations.WireInstructionsStoreTheirFrame := by
  unfold Obligations.WireInstructionsStoreTheirFrame
  have hexec (op : Op) (s : State) (hp : s.phase = .idle) (hl : dataTooLong op s = false) :=
    (exec_wire op s).trans (congrArg _ (wireInstruction_idle hp hl))
  have hbusy (op : Op) (s : State) (hp : s.phase ≠ .idle) :=
    (exec_wire op s).trans (congrArg _ (wireInstruction_busy hp op))
  exact ⟨fun s hp => hexec .read s hp rfl, fun s hp hl => hexec .write s hp (dataTooLong_write_eq_false hl),
    fun s hp => hexec .action s hp rfl, fun s hp => ⟨hbusy .read s hp, hbusy .write s hp, hbusy .action s hp⟩,
    fun s hp hl =>
      (exec_wire .write s).trans (congrArg _ (wireInstruction_tooLong hp (dataTooLong_write_eq_true hl)))⟩

/-! ### Wire instructions inside their commands -/

/-- The store that holds a run of bytes gives the run back. -/
theorem Memory.slice_ofBytes (bs : List Byte) : (Memory.ofBytes 0 bs).slice 0 bs.length = bs := by
  rw [Memory.slice_eq_take_drop (bs := bs) (by omega) fun i _ => Memory.read_ofBytes_zero bs _, List.drop_zero,
    List.take_length]

/-- Each row of `CommandsRunTheirWireInstruction`: the wire instruction, the build-only and the sending command of one
operation. -/
theorem exec_of_row {wire build send : Instr} {op : Op} (h : (wire, build, send, op) ∈
    ([(.read, .cmdBuildRead, .cmdRead, .read), (.write, .cmdBuildWrite, .cmdWrite, .write),
      (.action, .cmdBuildAction, .cmdAction, .action)] : List (Instr × Instr × Instr × Op))) (s : State) :
    exec wire s = .next (wireInstruction op s) ∧ exec build s = .next (command op true s) ∧
      exec send s = .next (command op false s) := by
  simp only [List.mem_cons, Prod.mk.injEq, List.not_mem_nil, or_false] at h
  rcases h with ⟨rfl, rfl, rfl, rfl⟩ | ⟨rfl, rfl, rfl, rfl⟩ | ⟨rfl, rfl, rfl, rfl⟩ <;> exact ⟨rfl, rfl, rfl⟩

/-- Settles O58: the wire instruction at the cleared state and the sending command store one and the same frame, which
is the frame the command emits. -/
theorem commandsRunTheirWireInstruction : Obligations.CommandsRunTheirWireInstruction := by
  unfold Obligations.CommandsRunTheirWireInstruction
  intro s wire build send op hp hrow
  obtain ⟨hwire, -, -⟩ := exec_of_row hrow (clearOutcome s)
  obtain ⟨-, hbuild, hsend⟩ := exec_of_row hrow s
  refine ⟨wireInstruction op (clearOutcome s), hwire, ?_, fun hl => ?_⟩
  · rw [hbuild, command_build_eq_wireInstruction hp]
  · have hdata : dataTooLong op s = false := dataTooLong_of_legal hl
    obtain ⟨hframe, hlen⟩ := command_stores hp hl
    refine ⟨command op false s, hsend, ?_⟩
    rw [hframe, hlen, command_emits hp hl, wireInstruction_idle (s := clearOutcome s) hp hdata]
    refine ⟨rfl, rfl, ?_⟩
    rw [buildFrame_clearOutcome, txlen_toNat hdata, Memory.slice_ofBytes]

end Machine

end Sys2Proof
end

section
/-! PROOFS. Scope: what the validator judges, and how a READ's response in two parts ends (R35, R100, R110 to R114,
R141 to R145). -/

namespace Sys2Proof.Machine

/-! ### The validator -/

/-- A slice does not see a write outside it. -/
theorem Memory.slice_write_of_lt {m : Memory} (hw : m.wf = true) {a n k : Nat} (b : Byte)
    (hk : k < a ∨ a + n ≤ k) : (m.write k b).slice a n = m.slice a n :=
  Memory.slice_congr fun i hi => by rw [Memory.read_write hw, if_neg (by omega)]

/-- Writing one byte inside a slice exchanges that byte in its sum. -/
theorem byteSum_slice_write {m : Memory} (hw : m.wf = true) {a n k : Nat} (b : Byte) (ha : a ≤ k)
    (hk : k < a + n) :
    byteSum ((m.write k b).slice a n) + (m.read k).toNat = byteSum (m.slice a n) + b.toNat := by
  induction n with
  | zero => omega
  | succ n ih =>
    rw [Memory.slice_succ, Memory.slice_succ, byteSum_append, byteSum_append, Memory.read_write hw]
    simp only [byteSum_cons, byteSum_nil]
    by_cases hlast : k = a + n
    · rw [Memory.slice_write_of_lt hw b (.inr (by omega)), if_pos hlast, hlast]
      omega
    · have hrest := ih (by omega)
      rw [if_neg hlast]
      omega

/-- Settles O31: the comparison reads bytes 2 to `L_N-1`, and writing the last of them leaves the covered ones. -/
theorem validatorJudgesTheChecksumOnly : Obligations.ValidatorJudgesTheChecksumOnly := by
  unfold Obligations.ValidatorJudgesTheChecksumOnly
  refine ⟨fun s _ => validate_iff s, fun s t h hn hread => ?_, fun s hw h => ?_⟩
  · have hslice : t.rxbuf.slice 2 (s.lN.toNat - 3) = s.rxbuf.slice 2 (s.lN.toNat - 3) :=
      Memory.slice_congr fun i hi => hread (2 + i) (by omega) (by omega)
    rw [Bool.eq_iff_iff, validate_iff, validate_iff, hn, hslice, hread (s.lN.toNat - 1) (by omega) (by omega)]
  · rw [validate_iff]
    dsimp only
    rw [Memory.slice_write_of_lt hw _ (.inr (by omega)), Memory.read_write hw, if_pos rfl]

/-- One changed byte at an index the checksum covers, itself included, spoils a passing comparison (R100, R110). -/
theorem validate_write_eq_false {s : State} (hw : s.rxbuf.wf = true) (hn : 6 ≤ s.lN.toNat)
    (hpass : validate s = true) {k : Nat} (h2 : 2 ≤ k) (hk : k < s.lN.toNat) {b : Byte} (hb : b ≠ s.rxbuf.read k) :
    validate { s with rxbuf := s.rxbuf.write k b } = false := by
  by_contra hc
  rw [Bool.not_eq_false, validate_iff_byteSum (s := { s with rxbuf := s.rxbuf.write k b }) hn] at hc
  rw [validate_iff_byteSum hn] at hpass
  dsimp only at hc
  have hsum := byteSum_slice_write hw (a := 2) (n := s.lN.toNat - 2) b h2 (by omega)
  have hnew := b.isLt
  have hold := (s.rxbuf.read k).isLt
  exact hb (BitVec.eq_of_toNat_eq (by omega))

/-- A READ's check whose comparison fails (R112). -/
theorem check_of_validate_eq_false {s : State} (hv : s.lValidate = true) (h6 : 6 ≤ s.lN.toNat)
    (h261 : s.lN.toNat ≤ maxResp) (hc : validate s = false) : check s = .next (finish .checksum s) := by
  rcases check_cases s with ⟨h, -⟩ | ⟨-, h, -⟩ | ⟨-, -, e⟩ | ⟨-, h, -⟩
  · rw [hv] at h
    cases h
  · rw [hc] at h
    cases h
  · exact e
  · exact absurd ⟨h6, h261⟩ h

/-- Settles O32. -/
theorem oneChangedByteFailsTheCheck : Obligations.OneChangedByteFailsTheCheck := by
  unfold Obligations.OneChangedByteFailsTheCheck
  intro s k b hw hv h6 h261 hpass h2 hk hb
  exact check_of_validate_eq_false (s := { s with rxbuf := s.rxbuf.write k b }) hv h6 h261
    (validate_write_eq_false hw h6 hpass h2 hk hb)

/-! ### Bytes queued in `WAIT` -/

/-- In `WAIT` a byte below the capacity is queued (R141, R142). -/
theorem rxStep_wait {s : State} (hp : s.phase = .wait) (hq : s.rxq.length < s.cfg.rxqCap) (b : Byte) :
    rxStep b s = .next { s with rxq := s.rxq ++ [b] } := by
  simp only [rxStep, hp, enqueue, if_pos hq]

/-- In `WAIT`, bytes within the capacity are queued in order. -/
theorem rxAll_wait {s : State} (hp : s.phase = .wait) {bs : List Byte}
    (hq : s.rxq.length + bs.length ≤ s.cfg.rxqCap) : rxAll bs s = .next { s with rxq := s.rxq ++ bs } := by
  induction bs generalizing s with
  | nil =>
    rw [List.append_nil]
    rfl
  | cons b bs ih =>
    rw [List.length_cons] at hq
    calc rxAll (b :: bs) s
      _ = andThen (rxStep b s) (rxAll bs) := rfl
      _ = rxAll bs { s with rxq := s.rxq ++ [b] } := by
        rw [rxStep_wait hp (by omega)]
        rfl
      _ = .next { s with rxq := s.rxq ++ [b] ++ bs } :=
        ih (s := { s with rxq := s.rxq ++ [b] }) hp (by simp; omega)
      _ = .next { s with rxq := s.rxq ++ b :: bs } := by rw [List.append_assoc, List.singleton_append]

/-! ### Bytes collected in `COLLECT` -/

theorem collectByte_eq {s : State} (h : s.rxcnt.toNat < maxResp) (b : Byte) : collectByte b s =
    checkIfComplete { s with rxbuf := s.rxbuf.write s.rxcnt.toNat b, rxcnt := s.rxcnt + 1 } := if_pos h

theorem rxStep_collect {s : State} (hp : s.phase = .collect) (b : Byte) : rxStep b s = collectByte b s := by
  simp only [rxStep, hp]

/-- The state that has collected `bs` from index `RXCNT` on, as the last bytes of its response. -/
def filled (s : State) (bs : List Byte) : State :=
  { s with rxbuf := s.rxbuf.writeBytes s.rxcnt.toNat bs, rxcnt := s.lN }

/-- When exactly the bytes of the response that are missing come in `COLLECT`, the check runs once, at the end. -/
theorem checkIfComplete_rxAll {s : State} (hp : s.phase = .collect) (hn : s.lN.toNat ≤ maxResp) {bs : List Byte}
    (hl : s.rxcnt.toNat + bs.length = s.lN.toNat) :
    andThen (checkIfComplete s) (rxAll bs) = check (filled s bs) := by
  induction bs generalizing s with
  | nil =>
    have hfull : s.rxcnt = s.lN := BitVec.eq_of_toNat_eq hl
    have hsame : filled s [] = s := congrArg (fun n => { s with rxcnt := n }) hfull.symm
    rw [checkIfComplete_eq, if_pos hfull, hsame]
    cases check s <;> rfl
  | cons b bs ih =>
    rw [List.length_cons] at hl
    have hopen : s.rxcnt ≠ s.lN := fun h => by
      have := congrArg BitVec.toNat h
      omega
    have hmax : maxResp = 261 := rfl
    have hcount : (s.rxcnt + 1).toNat = s.rxcnt.toNat + 1 := rxcnt_succ_toNat (by omega)
    rw [checkIfComplete_eq, if_neg hopen]
    show andThen (rxStep b s) (rxAll bs) = _
    rw [rxStep_collect hp, collectByte_eq (by omega),
      ih (s := { s with rxbuf := s.rxbuf.write s.rxcnt.toNat b, rxcnt := s.rxcnt + 1 }) hp hn (by dsimp only; omega)]
    simp only [filled, hcount]
    rfl

/-! ### A response in two parts -/

theorem Memory.writeBytes_append (m : Memory) (a : Nat) (bs cs : List Byte) :
    m.writeBytes a (bs ++ cs) = (m.writeBytes a bs).writeBytes (a + bs.length) cs := by
  induction bs generalizing m a with
  | nil => rfl
  | cons b bs ih =>
    rw [List.length_cons, Nat.add_comm bs.length, ← Nat.add_assoc]
    exact ih (m.write a b) (a + 1)

/-- `COLLECT` with the whole response in `RXBUF`, as its check finds it. -/
def received (s : State) (resp : List Byte) : State :=
  { s with phase := .collect, elapsed := 0, rxbuf := s.rxbuf.writeBytes 0 resp, rxq := [], rxcnt := s.lN }

/-- A queue no longer than the response is collected whole (R144). -/
theorem collectLen_of_le {s : State} (h : s.rxq.length ≤ s.lN.toNat) : collectLen s = s.rxq.length := min_eq_left h

/-- What is queued when `COLLECT` is entered and what comes after it make up the response, in order. -/
theorem filled_collected {s : State} (hl : LatchLegal s) (hq : s.rxq.length ≤ s.lN.toNat) (bs : List Byte) :
    filled (collected s) bs = received s (s.rxq ++ bs) := by
  have hbuf : (collected s).rxbuf.writeBytes (collected s).rxcnt.toNat bs = s.rxbuf.writeBytes 0 (s.rxq ++ bs) := by
    rw [rxcnt_toNat hl, collectLen_of_le hq, Memory.writeBytes_append, Nat.zero_add, collected, collectLen_of_le hq,
      List.take_length]
  have hqueue : (collected s).rxq = [] := by rw [collected, collectLen_of_le hq, List.drop_length]
  rw [filled, hbuf]
  unfold received
  rw [← hqueue]
  rfl

/-- A tick in `WAIT` with a byte queued enters `COLLECT` (R143, R144). -/
theorem tickStep_wait_queued {s : State} (hp : s.phase = .wait) (hl : LatchLegal s) (hq : s.rxq ≠ []) :
    tickStep s = checkIfComplete (collected (countTick s)) := by
  have hone : 1 ≤ s.rxq.length := List.length_pos_iff.2 hq
  simp only [tickStep, hp, waitTick, if_pos hone]
  exact enterCollect_eq (s := countTick s) hl

/-- The tick that enters `COLLECT` and the bytes still missing after it end in the check of the whole response. -/
theorem tick_rxAll {s : State} (hp : s.phase = .wait) (hl : LatchLegal s) (hq : s.rxq ≠ []) {bs : List Byte}
    (hlen : s.rxq.length + bs.length = s.lN.toNat) :
    andThen (deliver .tick s) (rxAll bs) = check (received s (s.rxq ++ bs)) := by
  have hle : s.rxq.length ≤ s.lN.toNat := by omega
  have hcount : (collected (countTick s)).rxcnt.toNat = s.rxq.length :=
    (rxcnt_toNat (s := countTick s) hl).trans (collectLen_of_le (s := countTick s) hle)
  calc andThen (tickStep s) (rxAll bs)
    _ = andThen (checkIfComplete (collected (countTick s))) (rxAll bs) := by rw [tickStep_wait_queued hp hl hq]
    _ = check (filled (collected (countTick s)) bs) :=
      checkIfComplete_rxAll (s := collected (countTick s)) rfl hl.1 (by rw [hcount]; exact hlen)
    _ = check (received (countTick s) (s.rxq ++ bs)) := by rw [filled_collected (s := countTick s) hl hle]; rfl
    _ = check (received s (s.rxq ++ bs)) := rfl

/-- A whole response in two parts, around the tick that enters `COLLECT`, ends in the check of all of it. -/
theorem response_in_two_parts {s : State} (hp : s.phase = .wait) (hl : LatchLegal s) (hq : s.rxq = [])
    {first rest : List Byte} (hne : first ≠ []) (hcap : first.length ≤ s.cfg.rxqCap)
    (hlen : (first ++ rest).length = s.lN.toNat) :
    andThen (rxAll first s) (fun u => andThen (deliver .tick u) (rxAll rest)) =
      check (received s (first ++ rest)) := by
  have hqueue : rxAll first s = .next { s with rxq := first } := by
    rw [rxAll_wait hp (by simpa [hq] using hcap), hq, List.nil_append]
  rw [List.length_append] at hlen
  rw [hqueue]
  exact tick_rxAll (s := { s with rxq := first }) hp hl hne hlen

/-- The collected response reads back from `RXBUF`. -/
theorem received_read {s : State} (hw : s.rxbuf.wf = true) (resp : List Byte) {i : Nat} (hi : i < resp.length) :
    (received s resp).rxbuf.read i = resp.getD i 0 := by
  show (s.rxbuf.writeBytes 0 resp).read i = _
  rw [Memory.read_writeBytes hw, if_pos (by omega), Nat.sub_zero]

/-- The validator's comparison on the response's own bytes (R110). -/
theorem validate_received {s : State} (hw : s.rxbuf.wf = true) {resp : List Byte} (hlen : resp.length = s.lN.toNat)
    (h6 : 6 ≤ s.lN.toNat) : validate (received s resp) = true ↔
      ck ((resp.drop 2).take (s.lN.toNat - 3)) = resp.getD (s.lN.toNat - 1) 0 := by
  have hslice : (received s resp).rxbuf.slice 2 (s.lN.toNat - 3) = (resp.drop 2).take (s.lN.toNat - 3) :=
    Memory.slice_eq_take_drop (by omega) fun i _ => received_read hw resp (by omega)
  rw [validate_iff, ← hslice, ← received_read hw resp (by omega)]
  rfl

/-- Settles O52: both parts together are checked once, and the check's two answers are the two endings. -/
theorem readResponseIsDeliveredOrRefused : Obligations.ReadResponseIsDeliveredOrRefused := by
  unfold Obligations.ReadResponseIsDeliveredOrRefused
  intro s first rest hinv hp hq hv hne hcap hlen
  obtain ⟨hw, -⟩ := (Memory.good_iff _ _).1 hinv.rxbuf
  have hn : s.lN.toNat = 6 + s.lCount.toNat := hinv.latched.2.1 hv
  obtain ⟨t, hcheck, hphase, hdone, hrxq, hcnt, -, hbuf, hlN, hlC, -, hpass, hfail⟩ :=
    check_facts (s := received s (first ++ rest)) hinv.latched
  have hvalid : validate t = true ↔
      ck (((first ++ rest).drop 2).take (s.lN.toNat - 3)) = (first ++ rest).getD (s.lN.toNat - 1) 0 := by
    rw [validate_congr hlN hbuf]
    exact validate_received hw hlen (by omega)
  refine ⟨t, (response_in_two_parts hp hinv.latched hq hne hcap hlen).trans hcheck, hphase, hdone, hcnt, hrxq, hlC,
    fun hck => ?_, fun hck => ?_⟩
  · obtain ⟨herr, hpv⟩ := hpass hv (hvalid.2 hck)
    refine ⟨herr, hpv, fun i hi => ?_⟩
    rw [memRead_payload t hi, hpv, hlC, hbuf]
    simp only [true_and]
    exact ite_congr rfl (fun h => by rw [received_read hw _ (by omega)]) fun _ => rfl
  · obtain ⟨herr, hpv⟩ := hfail hv (Bool.eq_false_iff.2 fun h => hck (hvalid.1 h))
    refine ⟨herr, hpv, fun i hi => ?_⟩
    rw [memRead_payload t hi, hpv, if_neg (by simp)]

end Sys2Proof.Machine
end

section
/-! PROOFS. Scope: how a WRITE or an ACTION in flight ends, and what a move comes to (R115, R136, R137, R143 to R148,
R176, R179 to R184). -/

namespace Sys2Proof.Machine

/-! ### An acknowledgement in flight -/

/-- The check of an acknowledgement compares nothing (R112, R115). -/
theorem check_of_unvalidated {s : State} (h : s.lValidate = false) : check s = .next (finish .ok s) := by
  rcases check_cases s with ⟨-, e⟩ | ⟨hv, -⟩ | ⟨hv, -⟩ | ⟨hv, -⟩
  · exact e
  all_goals
    rw [h] at hv
    cases hv

/-- How an event that ends an acknowledgement in flight ends it (R115, R143, R146, R148). -/
def ackEnd (e : Event) (s : State) : ErrCode :=
  if e = .rxError then .io
  else if s.phase = .wait ∧ s.rxq = [] then .timeout
  else .ok

theorem ackEnd_ok {e : Event} {s : State} (he : e ≠ .rxError) (hs : ¬ (s.phase = .wait ∧ s.rxq = [])) :
    ackEnd e s = .ok := by rw [ackEnd, if_neg he, if_neg hs]

theorem ackEnd_timeout {e : Event} {s : State} (he : e ≠ .rxError) (hp : s.phase = .wait) (hq : s.rxq = []) :
    ackEnd e s = .timeout := by rw [ackEnd, if_neg he, if_pos ⟨hp, hq⟩]

/-- The outcomes an acknowledgement in flight can have (R136, R137). -/
theorem ackEnd_cases (e : Event) (s : State) :
    ackEnd e s = .io ∨ (ackEnd e s = .timeout ∧ s.phase = .wait ∧ s.rxq = []) ∨ ackEnd e s = .ok := by
  by_cases he : e = .rxError
  · exact .inl (if_pos he)
  · by_cases hs : s.phase = .wait ∧ s.rxq = []
    · exact .inr (.inl ⟨ackEnd_timeout he hs.1 hs.2, hs⟩)
    · exact .inr (.inr (ackEnd_ok he hs))

theorem not_wait_of_collect {s : State} (h : s.phase = .collect) : ¬ (s.phase = .wait ∧ s.rxq = []) := by simp [h]

theorem enqueue_phase (b : Byte) (s : State) : (enqueue b s).phase = s.phase := by
  unfold enqueue
  split_ifs <;> rfl

/-- A check that may be due ends an acknowledgement in flight `OK` or not at all (R115, R144, R145). -/
theorem checkIfComplete_ack {s t : State} (h : checkIfComplete s = .next t) (hv : s.lValidate = false)
    (hp : s.phase ≠ .idle) (ht : t.phase = .idle) : t = finish .ok s := by
  rw [checkIfComplete_eq, check_of_unvalidated hv] at h
  split_ifs at h <;> cases h
  · rfl
  · exact absurd ht hp

/-- A byte ends an acknowledgement only in `COLLECT`, and then `OK` (R142, R145). -/
theorem rxStep_ack {s t : State} {b : Byte} (hv : s.lValidate = false) (hp : s.phase ≠ .idle)
    (h : rxStep b s = .next t) (ht : t.phase = .idle) : s.phase = .collect ∧ t.err = .ok ∧ t.pvalid = false := by
  unfold rxStep at h
  split at h
  · next hq => exact absurd hq hp
  · cases h
    rw [enqueue_phase] at ht
    exact absurd ht hp
  · next hq =>
    unfold collectByte at h
    split_ifs at h
    rw [checkIfComplete_ack h hv hp ht]
    exact ⟨hq, rfl, rfl⟩

/-- A tick in `WAIT` ends an acknowledgement `TIMEOUT` with no byte in `RXQ`, `OK` with one (R143, R144). -/
theorem waitTick_ack {s t : State} (hv : s.lValidate = false) (hp : s.phase = .wait) (h : waitTick s = .next t)
    (ht : t.phase = .idle) : t.err = ackEnd .tick s ∧ t.pvalid = false := by
  unfold waitTick at h
  split_ifs at h with hq
  · have hne : s.rxq ≠ [] := List.length_pos_iff.1 hq
    unfold enterCollect at h
    split_ifs at h
    rw [checkIfComplete_ack h hv nofun ht, ackEnd_ok (e := .tick) nofun fun hs => hne hs.2]
    exact ⟨rfl, rfl⟩
  · have hnil : s.rxq = [] := by simpa using hq
    cases h
    exact ⟨(ackEnd_timeout (e := .tick) nofun hp hnil).symm, rfl⟩
  · cases h
    rw [countTick_phase, hp] at ht
    cases ht

/-- A tick in `COLLECT` ends an acknowledgement `OK`, however few bytes have come (R115, R146). -/
theorem collectTick_ack {s t : State} (hv : s.lValidate = false) (hp : s.phase = .collect)
    (h : collectTick s = .next t) (ht : t.phase = .idle) : t.err = .ok ∧ t.pvalid = false := by
  unfold collectTick at h
  split_ifs at h with _ hv'
  · rw [hv] at hv'
    cases hv'
  · rw [check_of_unvalidated (s := countTick s) hv] at h
    cases h
    exact ⟨rfl, rfl⟩
  · cases h
    rw [countTick_phase, hp] at ht
    cases ht

theorem tickStep_ack {s t : State} (hv : s.lValidate = false) (hp : s.phase ≠ .idle) (h : tickStep s = .next t)
    (ht : t.phase = .idle) : t.err = ackEnd .tick s ∧ t.pvalid = false := by
  unfold tickStep at h
  split at h
  · next hq => exact absurd hq hp
  · next hq => exact waitTick_ack hv hq h ht
  · next hq =>
    rw [ackEnd_ok (e := .tick) nofun (not_wait_of_collect hq)]
    exact collectTick_ack hv hq h ht

/-- A host turn in flight ends nothing (R71, R130). -/
theorem hostTurn_phase {s t : State} (hp : s.phase ≠ .idle) (h : hostTurn s = .next t) : t.phase = s.phase := by
  rcases hostTurn_cases s t h with ⟨-, e⟩ | ⟨-, rest, e | ⟨op, n, e⟩⟩
  · rw [e]
  · rw [e, illegalCommand_busy (s := { s with host := rest }) hp]
  · rw [e, command_busy (s := { s with host := rest }) hp]

/-- Every ending of an acknowledgement in flight but a reset, event by event. -/
theorem deliver_ack {s t : State} {e : Event} (hv : s.lValidate = false) (hp : s.phase ≠ .idle) (he : e ≠ .reset)
    (h : deliver e s = .next t) (ht : t.phase = .idle) : t.err = ackEnd e s ∧ t.pvalid = false := by
  cases e with
  | host => exact absurd ((hostTurn_phase hp h).symm.trans ht) hp
  | rx b =>
    obtain ⟨hq, hend⟩ := rxStep_ack hv hp h ht
    rwa [ackEnd_ok (e := .rx b) nofun (not_wait_of_collect hq)]
  | rxError =>
    cases h
    rw [rxErrorStep, if_pos (busy_of_not_idle hp)]
    exact ⟨rfl, rfl⟩
  | tick => exact tickStep_ack hv hp h ht
  | reset => exact absurd rfl he
  | verdict v =>
    cases h
    exact absurd ht hp

/-- Settles O47: an event leaves the acknowledgement in flight, with no outcome yet by the invariant, or ends it as
`ackEnd` says. -/
theorem acknowledgementsAreNotJudged : Obligations.AcknowledgementsAreNotJudged := by
  unfold Obligations.AcknowledgementsAreNotJudged
  intro s t e hinv hp hv he h
  by_cases ht : t.phase = .idle
  · obtain ⟨herr, hpv⟩ := deliver_ack hv hp he h ht
    rw [herr, hpv]
    rcases ackEnd_cases e s with hend | ⟨hend, hs⟩ | hend <;> rw [hend]
    · exact ⟨nofun, nofun, nofun, rfl, nofun⟩
    · exact ⟨nofun, nofun, nofun, rfl, fun _ => hs⟩
    · exact ⟨nofun, nofun, nofun, rfl, nofun⟩
  · obtain ⟨u, hu, huinv⟩ := inv_deliver hinv e
    cases hu.symm.trans h
    obtain ⟨-, herr, hpv⟩ := huinv.inFlight ht
    rw [herr]
    exact ⟨nofun, nofun, nofun, hpv, nofun⟩

/-! ### The range checks of a move -/

theorem validateSpeed_ok {v : Int} (h0 : 0 ≤ v) (h : v ≤ 2048) : validateSpeed v = .ok () := if_neg (by omega)

theorem validateSpeed_error {v : Int} (h : v < 0 ∨ 2048 < v) : validateSpeed v = .error .rangeError := if_pos h

/-- Inside both ranges the checked move is the move (R180). -/
theorem rotateToPosition_ok {p v : Int} (hp0 : 0 ≤ p) (hp : p ≤ 4095) (hv0 : 0 ≤ v) (hv : v ≤ 2048) (id : Byte) :
    rotateToPosition id p v = .ok (moveTo id p v) := by
  rw [rotateToPosition, if_neg (by omega), validateSpeed_ok hv0 hv]

theorem rotateToPosition_error {p v : Int} (h : p < 0 ∨ 4095 < p ∨ v < 0 ∨ 2048 < v) (id : Byte) :
    rotateToPosition id p v = .error .rangeError := by
  by_cases hp : p < 0 ∨ 4095 < p
  · rw [rotateToPosition, if_pos hp]
  · rw [rotateToPosition, if_neg hp, validateSpeed_error (by omega)]

/-- An angle beyond either end of the domain is refused (R176). -/
theorem angleToPosition_error {angle : Binary64}
    (h : angle.lt (Binary64.round true 90 1) = true ∨ (Binary64.round false 90 1).lt angle = true) :
    angleToPosition angle = .error .rangeError :=
  if_pos (Bool.or_eq_true_iff.2 h)

theorem angleToPosition_cases (angle : Binary64) :
    angleToPosition angle = .error .rangeError ∨ ∃ p, angleToPosition angle = .ok p := by
  unfold angleToPosition
  split_ifs
  · exact .inl rfl
  · exact .inr ⟨_, rfl⟩

/-- Inside both ranges the checked move is the move to the angle's position (R182). -/
theorem rotateToAngle_ok {angle : Binary64} {p : Nat} {v : Int} (hp : angleToPosition angle = .ok p) (hv0 : 0 ≤ v)
    (hv : v ≤ 2048) (id : Byte) : rotateToAngle id angle v = .ok (moveTo id p v) := by
  rw [rotateToAngle, hp, validateSpeed_ok hv0 hv]

theorem rotateToAngle_error {angle : Binary64} {v : Int}
    (h : (angle.lt (Binary64.round true 90 1) = true ∨ (Binary64.round false 90 1).lt angle = true) ∨
      v < 0 ∨ 2048 < v) (id : Byte) : rotateToAngle id angle v = .error .rangeError := by
  rcases h with ha | hv
  · rw [rotateToAngle, angleToPosition_error ha]
  · rcases angleToPosition_cases angle with ha | ⟨p, ha⟩ <;> rw [rotateToAngle, ha, validateSpeed_error hv]

/-! ### What a move comes to -/

theorem moveResult_eq (s : State) : moveResult s = callResult () s.err := rfl

/-- The move's result for each way an acknowledgement ends (R184). -/
theorem callResult_ackEnd (e : Event) (s : State) : callResult () (ackEnd e s) =
    if e = .rxError then .raised .ioError
    else if s.phase = .wait ∧ s.rxq = [] then .raised .timeoutError
    else .value () := by
  unfold ackEnd
  split_ifs <;> rfl

theorem cmdWrite_legal {s : State} (hd : s.dlen.toNat ≤ 252) (ha : s.acklen.toNat ≤ 261) :
    illegalOperands .write false s = false := by
  have hack : ackTooLong .write s = false := decide_eq_false (not_lt.2 ha)
  rw [illegalOperands, dataTooLong_write_eq_false hd, hack]
  rfl

/-- Settles O59: the outcome table by evaluation, the range checks and the endings by their lemmas. -/
theorem moveResultFollowsTheOutcome : Obligations.MoveResultFollowsTheOutcome := by
  unfold Obligations.MoveResultFollowsTheOutcome
  refine ⟨fun s => ?_, fun id p v s => ⟨fun hp0 hp hv0 hv => ?_, fun h => ?_⟩,
    fun id angle v s => ⟨fun p hp hv0 hv => ?_, fun h => ?_⟩, fun s t e _ hp hv he h ht => ?_,
    fun s hp hd ha hv => ?_⟩
  · rw [moveResult_eq]
    refine ⟨?_, ?_, ?_, ?_, ?_, ?_⟩ <;> intro herr <;> rw [herr] <;> rfl
  · rw [rotateToPositionResult, rotateToPosition_ok hp0 hp hv0 hv, checkedMoveResult]
  · rw [rotateToPositionResult, rotateToPosition_error h, checkedMoveResult]
  · rw [rotateToAngleResult, rotateToAngle_ok hp hv0 hv, checkedMoveResult]
  · rw [rotateToAngleResult, rotateToAngle_error h, checkedMoveResult]
  · obtain ⟨herr, -⟩ := deliver_ack hv hp he h ht
    rw [moveResult_eq, herr, callResult_ackEnd]
  · refine ⟨command .write false s, rfl, ?_⟩
    rw [moveResult_eq, command_send_io hp (cmdWrite_legal hd ha) hv]
    exact ⟨hp, rfl⟩

end Sys2Proof.Machine
end

section
/-! PROOFS. Scope: what a `CMD` write does: acceptance as the rule's pseudocode has it, which values end `ARG`, the
whole next state of each command, and that a busy block ignores them all (R88, R130 to R140, R235). -/

namespace Sys2Proof.Machine

/-! ### From the bits of a value to its command -/

/-- A value with the reserved bits 0 and a nonzero `OP` runs the command its bits name (R88, R130). -/
theorem commandWrite_of_bits {v : Word} (hr : v.extractLsb' 3 13 = 0) (ho : v.extractLsb' 0 2 ≠ 0) (s : State) :
    commandWrite v s = .next (command (opOfBits (v.extractLsb' 0 2)) (v.getLsbD 2) s) := by
  rcases eq_of_reservedBits_zero hr with rfl | rfl | rfl | rfl | rfl | rfl | rfl | rfl
  · exact absurd rfl ho
  · rfl
  · rfl
  · rfl
  · exact absurd rfl ho
  · rfl
  · rfl
  · rfl

/-- A value with a reserved bit set or `OP` = `00` is no command (R89). -/
theorem commandWrite_of_illegal_bits {v : Word} (h : v.extractLsb' 3 13 ≠ 0 ∨ v.extractLsb' 0 2 = 0) (s : State) :
    commandWrite v s = .next (illegalCommand s) := by
  have hv : v ∉ ([0x0001, 0x0002, 0x0003, 0x0005, 0x0006, 0x0007] : List Word) := by
    intro hv
    simp only [List.mem_cons, List.not_mem_nil, or_false] at hv
    rcases hv with rfl | rfl | rfl | rfl | rfl | rfl <;> revert h <;> decide
  obtain ⟨e, he⟩ := decodeHost_of_not_mem hv
  exact commandWrite_of_reject he

/-- The two bits of a nonzero `OP` and the operation they name are one another's code (R23). -/
theorem opOfBits_code {b : BitVec 2} (h : b ≠ 0) : (opOfBits b).code = b := by
  revert b
  decide

theorem illegalValue_of_illegal_bits {v : Word} (h : v.extractLsb' 3 13 ≠ 0 ∨ v.extractLsb' 0 2 = 0) (s : State) :
    illegalValue v s = true := by
  simp only [illegalValue, decide_eq_true h, Bool.true_or]

/-- Where the bits name a command, `illegal(v)` is conditions 2 and 3 of R132 on its operands. -/
theorem illegalValue_of_bits {v : Word} (hr : v.extractLsb' 3 13 = 0) (ho : v.extractLsb' 0 2 ≠ 0) (s : State) :
    illegalValue v s = illegalOperands (opOfBits (v.extractLsb' 0 2)) (v.getLsbD 2) s := by
  have hb : ∀ b : BitVec 2, b ≠ 0 → b = 1 ∨ b = 2 ∨ b = 3 := by decide
  rw [illegalValue, illegalOperands, decide_eq_false (not_or.2 ⟨not_not.2 hr, ho⟩)]
  rcases hb _ ho with h | h | h <;> simp [h, opOfBits, dataTooLong, ackTooLong]

/-! ### `accept(v)` of the rule -/

/-- `L_N` of a READ as R131 computes it. -/
theorem responseLen_read (s : State) : responseLen .read s = BitVec.ofNat 9 (6 + s.count.toNat) := by
  refine BitVec.eq_of_toNat_eq ?_
  rw [responseLen_read_toNat, BitVec.toNat_ofNat]
  omega

theorem responseLen_eq_ite (op : Op) (s : State) :
    responseLen op s = if op = .read then BitVec.ofNat 9 (6 + s.count.toNat) else s.acklen := by
  cases op with
  | read => exact responseLen_read s
  | write => rfl
  | action => rfl

theorem payloadLen_eq_ite (op : Op) (s : State) : payloadLen op s = if op = .read then s.count else 0 := by
  cases op <;> rfl

/-- The pseudocode's `finish(ARG)` (R131, R132). -/
theorem acceptFromRule_of_illegal {v : Word} {s : State} (hp : s.phase = .idle) (h : illegalValue v s = true) :
    acceptFromRule v s = { s with done := true, err := .arg, pvalid := false, rxq := [] } := by
  have hfinish : acceptFromRule v s = finish .arg (clearOutcome s) := if_pos h
  rw [hfinish, finish, ← hp]
  rfl

/-- The state of the rule's pseudocode up to its emit (R131). -/
def acceptedFrame (v : Word) (s : State) : State :=
  { sendFrame (opOfBits (v.extractLsb' 0 2)) (clearOutcome s) with
    lOp    := v.extractLsb' 0 2
    lN     := if opOfBits (v.extractLsb' 0 2) = .read then BitVec.ofNat 9 (6 + s.count.toNat) else s.acklen
    lCount := if opOfBits (v.extractLsb' 0 2) = .read then s.count else 0 }

/-- The fields that the pseudocode latches line by line are those of `latch` (R36, R131). -/
theorem acceptedFrame_eq {v : Word} (ho : v.extractLsb' 0 2 ≠ 0) (s : State) :
    acceptedFrame v s = sendFrame (opOfBits (v.extractLsb' 0 2)) (clearOutcome s) := by
  have hlatch : sendFrame (opOfBits (v.extractLsb' 0 2)) (clearOutcome s) =
      { sendFrame (opOfBits (v.extractLsb' 0 2)) (clearOutcome s) with
        lOp    := (opOfBits (v.extractLsb' 0 2)).code
        lN     := responseLen (opOfBits (v.extractLsb' 0 2)) s
        lCount := payloadLen (opOfBits (v.extractLsb' 0 2)) s } := rfl
  rw [hlatch, opOfBits_code ho, responseLen_eq_ite, payloadLen_eq_ite]
  rfl

/-- Where the bits name a command, the rule's pseudocode is its acceptance, line by line (R131). -/
theorem acceptFromRule_of_bits {v : Word} {s : State} (hp : s.phase = .idle) (hr : v.extractLsb' 3 13 = 0)
    (ho : v.extractLsb' 0 2 ≠ 0) :
    acceptFromRule v s = command (opOfBits (v.extractLsb' 0 2)) (v.getLsbD 2) s := by
  have hlines : acceptFromRule v s =
      if illegalValue v (clearOutcome s) then finish .arg (clearOutcome s)
      else if v.getLsbD 2 then acceptBuild (opOfBits (v.extractLsb' 0 2)) (clearOutcome s)
      else if nextVerdict s = .ioError then finish .io (acceptedFrame v s)
      else { acceptedFrame v s with elapsed := 0, phase := .wait } := rfl
  rw [hlines, illegalValue_of_bits hr ho, acceptedFrame_eq ho, command, busy_of_idle hp, acceptSend,
    nextVerdict_clearOutcome]
  cases nextVerdict s <;> rfl

/-- Settles O22: a value whose bits name no command is illegal either way, and any other is its command. -/
theorem commandWriteIsTheAcceptOfTheRule : Obligations.CommandWriteIsTheAcceptOfTheRule := by
  unfold Obligations.CommandWriteIsTheAcceptOfTheRule
  intro s v hp
  show commandWrite v s = _
  by_cases h : v.extractLsb' 3 13 ≠ 0 ∨ v.extractLsb' 0 2 = 0
  · rw [commandWrite_of_illegal_bits h, illegalCommand_idle hp,
      acceptFromRule_of_illegal hp (illegalValue_of_illegal_bits h s)]
  · push Not at h
    obtain ⟨hr, ho⟩ := h
    rw [commandWrite_of_bits hr ho, acceptFromRule_of_bits hp hr ho]

/-! ### The end `ARG` -/

/-- A command with legal operands never ends `ARG`: it ends a build `OK`, waits, or ends `IO`. -/
theorem command_err_ne_arg {op : Op} {n : Bool} {s : State} (hp : s.phase = .idle)
    (hl : illegalOperands op n s = false) : (command op n s).err ≠ .arg := by
  rcases command_cases op n s with ⟨h, -⟩ | ⟨-, h, -⟩ | ⟨-, -, -, e⟩ | ⟨-, -, -, -, e⟩ | ⟨-, -, -, -, e⟩
  · exact absurd hp h
  · rw [hl] at h
    cases h
  all_goals
    rw [e]
    exact nofun

/-- Settles O23: a value that is not illegal has the bits of a command, and that command's operands are legal. -/
theorem exactlyTheIllegalCommandsEndArg : Obligations.ExactlyTheIllegalCommandsEndArg := by
  unfold Obligations.ExactlyTheIllegalCommandsEndArg
  intro s v hp
  refine ⟨fun h => ?_, fun h => ?_⟩
  · rw [commandWriteIsTheAcceptOfTheRule s v hp, acceptFromRule_of_illegal hp h]
  · have hbits : ¬ (v.extractLsb' 3 13 ≠ 0 ∨ v.extractLsb' 0 2 = 0) := fun hb => by
      rw [illegalValue_of_illegal_bits hb] at h
      cases h
    push Not at hbits
    obtain ⟨hr, ho⟩ := hbits
    rw [illegalValue_of_bits hr ho] at h
    exact ⟨_, commandWrite_of_bits hr ho s, command_err_ne_arg hp h⟩

/-! ### The whole next state of each command -/

/-- The host command of an operation and `NOSEND` (R88). -/
def hostCommand : Op → Bool → Instr
  | .read,   false => .cmdRead
  | .write,  false => .cmdWrite
  | .action, false => .cmdAction
  | .read,   true  => .cmdBuildRead
  | .write,  true  => .cmdBuildWrite
  | .action, true  => .cmdBuildAction

theorem exec_hostCommand (op : Op) (n : Bool) (s : State) :
    exec (hostCommand op n) s = .next (command op n s) := by
  cases op <;> cases n <;> rfl

/-- Settles O17: a READ's operands are always legal, and the frame and what is latched are those of R103 and R36. -/
theorem cmdReadCompletes : Obligations.CmdReadCompletes := by
  unfold Obligations.CmdReadCompletes
  intro s f hp hf
  rw [← buildFrame_read] at hf
  subst hf
  refine ⟨fun hv => ?_, fun hv => ?_⟩
  · refine (exec_hostCommand .read false s).trans ?_
    rw [command_send_ok hp rfl hv, responseLen_read]
    rfl
  · refine (exec_hostCommand .read false s).trans ?_
    rw [command_send_io hp rfl hv, responseLen_read]
    rfl

theorem illegalOperands_write_send {s : State} (h : 252 < s.dlen.toNat ∨ 261 < s.acklen.toNat) :
    illegalOperands .write false s = true := by
  rcases h with hd | ha
  · rw [illegalOperands, dataTooLong_write_eq_true hd, Bool.true_or]
  · have hack : ackTooLong .write s = true := decide_eq_true ha
    rw [illegalOperands, hack, Bool.not_false, Bool.true_and, Bool.or_true]

/-- Settles O18. -/
theorem cmdWriteCompletes : Obligations.CmdWriteCompletes := by
  unfold Obligations.CmdWriteCompletes
  intro s f hp hf
  rw [← buildFrame_write] at hf
  subst hf
  refine ⟨fun hd ha hv => ?_, fun hd ha hv => ?_, fun h => ?_⟩
  · refine (exec_hostCommand .write false s).trans ?_
    rw [command_send_ok hp (cmdWrite_legal hd ha) hv, length_buildFrame_write]
    rfl
  · refine (exec_hostCommand .write false s).trans ?_
    rw [command_send_io hp (cmdWrite_legal hd ha) hv, length_buildFrame_write]
    rfl
  · refine (exec_hostCommand .write false s).trans ?_
    rw [command_illegal hp (illegalOperands_write_send h)]

/-- An ACTION's one condition is on `ACKLEN` (R132). -/
theorem illegalOperands_action (s : State) : illegalOperands .action false s = decide (261 < s.acklen.toNat) := rfl

/-- Settles O19. -/
theorem cmdActionCompletes : Obligations.CmdActionCompletes := by
  unfold Obligations.CmdActionCompletes
  intro s f hp hf
  rw [← buildFrame_action] at hf
  subst hf
  have hlegal (ha : s.acklen.toNat ≤ 261) : illegalOperands .action false s = false :=
    (illegalOperands_action s).trans (decide_eq_false (not_lt.2 ha))
  refine ⟨fun ha hv => ?_, fun ha hv => ?_, fun ha => ?_⟩
  · refine (exec_hostCommand .action false s).trans ?_
    rw [command_send_ok hp (hlegal ha) hv]
    rfl
  · refine (exec_hostCommand .action false s).trans ?_
    rw [command_send_io hp (hlegal ha) hv]
    rfl
  · refine (exec_hostCommand .action false s).trans ?_
    rw [command_illegal hp ((illegalOperands_action s).trans (decide_eq_true ha))]

/-- Settles O20: a build-only command has no acknowledgement to refuse, so only WRITE data can be too long. -/
theorem buildOnlyCommandsComplete : Obligations.BuildOnlyCommandsComplete := by
  unfold Obligations.BuildOnlyCommandsComplete
  refine ⟨fun s hp => ?_, fun s hp hd => ?_, fun s hp hd => ?_, fun s hp => ?_⟩
  · refine (exec_hostCommand .read true s).trans ?_
    rw [command_build hp rfl]
    rfl
  · refine (exec_hostCommand .write true s).trans ?_
    rw [command_build hp ((illegalOperands_build _ s).trans (dataTooLong_write_eq_false hd)),
      length_buildFrame_write, buildFrame_write]
  · refine (exec_hostCommand .write true s).trans ?_
    rw [command_illegal hp ((illegalOperands_build _ s).trans (dataTooLong_write_eq_true hd))]
  · refine (exec_hostCommand .action true s).trans ?_
    rw [command_build hp rfl]
    rfl

theorem exec_hostCommand_busy {s : State} (hp : s.phase ≠ .idle) (op : Op) (n : Bool) :
    exec (hostCommand op n) s = .next s :=
  (exec_hostCommand op n s).trans (congrArg _ (command_busy hp op n))

/-- Settles O21. -/
theorem busyIgnoresEveryCommand : Obligations.BusyIgnoresEveryCommand := by
  unfold Obligations.BusyIgnoresEveryCommand
  refine ⟨fun s v hp => ?_, fun s hp => ?_⟩
  · show commandWrite v s = .next s
    rcases commandWrite_cases v s with e | ⟨op, n, e⟩
    · rw [e, illegalCommand_busy hp]
    · rw [e, command_busy hp]
  · exact ⟨exec_hostCommand_busy hp .read false, exec_hostCommand_busy hp .write false,
      exec_hostCommand_busy hp .action false, exec_hostCommand_busy hp .read true,
      exec_hostCommand_busy hp .write true, exec_hostCommand_busy hp .action true⟩

end Sys2Proof.Machine
end

section
/-! PROOFS. Scope: what a received byte, a read failure and a tick do in each phase, and the tick at which the response
deadline is reached (R112, R141 to R148, R154). -/

namespace Sys2Proof.Machine

/-! ### A received byte in `IDLE` and `WAIT`, and a read failure -/

theorem enqueue_of_lt {s : State} (h : s.rxq.length < s.cfg.rxqCap) (b : Byte) :
    enqueue b s = { s with rxq := s.rxq ++ [b] } := if_pos h

theorem enqueue_of_full {s : State} (h : s.cfg.rxqCap ≤ s.rxq.length) (b : Byte) : enqueue b s = s :=
  if_neg (not_lt.2 h)

/-- Outside `COLLECT` a byte goes to the queue (R142). -/
theorem rxStep_enqueue {s : State} (h : s.phase = .idle ∨ s.phase = .wait) (b : Byte) :
    rxStep b s = .next (enqueue b s) := by
  rcases h with hp | hp <;> simp only [rxStep, hp]

/-- Settles O26. -/
theorem arrivingByteIsQueuedOrDropped : Obligations.ArrivingByteIsQueuedOrDropped := by
  unfold Obligations.ArrivingByteIsQueuedOrDropped
  intro b s hp
  refine ⟨fun hq => ?_, fun hq => ?_⟩
  · exact (rxStep_enqueue hp b).trans (congrArg _ (enqueue_of_lt hq b))
  · exact (rxStep_enqueue hp b).trans (congrArg _ (enqueue_of_full hq b))

theorem rxErrorStep_busy {s : State} (h : s.phase ≠ .idle) : rxErrorStep s = finish .io s :=
  if_pos (busy_of_not_idle h)

/-- Settles O30. -/
theorem idleTickAndReadFailure : Obligations.IdleTickAndReadFailure := by
  unfold Obligations.IdleTickAndReadFailure
  intro s
  refine ⟨fun hp => ⟨tickStep_idle hp, ?_⟩, fun hp => ?_⟩
  · exact congrArg _ (rxErrorStep_idle hp)
  · exact congrArg _ (rxErrorStep_busy hp)

/-! ### The end of a transaction -/

/-- With nothing queued the flush of `finish(code)` changes nothing (R134, R205). -/
theorem finish_of_no_bytes {s : State} (hq : s.rxq = []) (code : ErrCode) :
    finish code s = { s with err := code, pvalid := false, done := true, phase := .idle } := by
  rw [finish, flush, ← hq]

/-- The check of a legal latched transaction as one state: only a READ is compared (R112). -/
theorem check_eq {s : State} (hl : LatchLegal s) : check s = .next
    { finish (if s.lValidate && !validate s then .checksum else .ok) s with
      pvalid := s.lValidate && validate s } := by
  rcases check_cases s with ⟨hv, e⟩ | ⟨hv, hc, e⟩ | ⟨hv, hc, e⟩ | ⟨hv, hn, -⟩
  · rw [e, hv]
    rfl
  · rw [e, hv, hc]
    rfl
  · rw [e, hv, hc]
    rfl
  · obtain ⟨hmax, hread, -⟩ := hl
    have h6 := hread hv
    exact absurd ⟨by omega, hmax⟩ hn

/-- The check when no byte waits in `RXQ`: its flush changes nothing. -/
theorem check_of_no_bytes {s : State} (hl : LatchLegal s) (hq : s.rxq = []) : check s = .next { s with
    phase := .idle, done := true, err := if s.lValidate && !validate s then .checksum else .ok,
    pvalid := s.lValidate && validate s } := by
  rw [check_eq hl, finish_of_no_bytes hq]

/-! ### A tick in `WAIT` -/

theorem tickStep_wait {s : State} (hp : s.phase = .wait) : tickStep s = waitTick s := by simp only [tickStep, hp]

/-- With no byte a tick in `WAIT` below the deadline only counts (R143). -/
theorem tickStep_wait_below {s : State} (hp : s.phase = .wait) (hq : s.rxq = [])
    (ht : (s.elapsed + 1).toNat < s.cfg.respTicks) : tickStep s = .next { s with elapsed := s.elapsed + 1 } := by
  rw [tickStep_wait hp, waitTick, if_neg (by simp [hq]), countTick_elapsed, if_neg (not_le.2 ht)]
  rfl

/-- With no byte the tick that reaches the deadline ends `TIMEOUT` (R143). -/
theorem tickStep_wait_deadline {s : State} (hp : s.phase = .wait) (hq : s.rxq = [])
    (ht : s.cfg.respTicks ≤ (s.elapsed + 1).toNat) : tickStep s = .next { s with
      elapsed := s.elapsed + 1, err := .timeout, pvalid := false, done := true, phase := .idle } := by
  rw [tickStep_wait hp, waitTick, if_neg (by simp [hq]), countTick_elapsed, if_pos ht,
    finish_of_no_bytes (s := countTick s) hq]
  rfl

/-- A tick in `WAIT` with some bytes of the response, but not all, collects them (R143, R144). -/
theorem tickStep_wait_part {s : State} (hp : s.phase = .wait) (hl : LatchLegal s) (hq : s.rxq ≠ [])
    (hn : s.rxq.length < s.lN.toNat) : tickStep s = .next { s with
      phase := .collect, elapsed := 0, rxbuf := s.rxbuf.writeBytes 0 s.rxq, rxq := [],
      rxcnt := BitVec.ofNat 9 s.rxq.length } := by
  have hlen : collectLen (countTick s) = s.rxq.length := collectLen_of_le (s := countTick s) hn.le
  have hcnt : (collected (countTick s)).rxcnt.toNat = s.rxq.length := (rxcnt_toNat (s := countTick s) hl).trans hlen
  have hopen : (collected (countTick s)).rxcnt ≠ (collected (countTick s)).lN := fun h =>
    hn.ne (hcnt.symm.trans (congrArg BitVec.toNat h))
  rw [tickStep_wait_queued hp hl hq, checkIfComplete_eq, if_neg hopen, collected, hlen, countTick_rxq,
    List.take_length, List.drop_length]
  rfl

/-- A tick in `WAIT` with the whole response queued collects `L_N` bytes of it and checks them (R143, R144). -/
theorem tickStep_wait_whole {s : State} (hp : s.phase = .wait) (hl : LatchLegal s) (hq : s.rxq ≠ [])
    (hn : s.lN.toNat ≤ s.rxq.length) : tickStep s = check { s with
      phase := .collect, elapsed := 0, rxbuf := s.rxbuf.writeBytes 0 (s.rxq.take s.lN.toNat),
      rxq := s.rxq.drop s.lN.toNat, rxcnt := s.lN } := by
  have hlen : collectLen (countTick s) = s.lN.toNat := min_eq_right hn
  have hfull : BitVec.ofNat 9 s.lN.toNat = s.lN := by simp
  rw [tickStep_wait_queued hp hl hq, checkIfComplete_eq, collected, hlen, hfull]
  exact if_pos rfl

/-- In flight the deadline is still to come, so the next tick does not wrap `ELAPSED` (R32, R152). -/
theorem elapsed_succ_toNat_of_inv {s : State} (hinv : StateInv s) (hp : s.phase ≠ .idle) :
    (s.elapsed + 1).toNat = s.elapsed.toNat + 1 := by
  refine elapsed_succ_toNat hinv.config ?_
  cases hq : s.phase with
  | idle => exact absurd hq hp
  | wait =>
    obtain ⟨-, hlt⟩ := hinv.waiting hq
    exact lt_max_of_lt_left hlt
  | collect =>
    obtain ⟨-, -, -, hlt⟩ := hinv.collecting hq
    exact lt_max_of_lt_right hlt

/-- Settles O27. -/
theorem waitTickOutcomes : Obligations.WaitTickOutcomes := by
  unfold Obligations.WaitTickOutcomes
  intro s hinv hp
  have hsucc := elapsed_succ_toNat_of_inv hinv (s := s) (by simp [hp])
  refine ⟨fun hq ht => ?_, fun hq ht => ?_, fun hq hn => ?_, fun hq hn buf good hbuf hgood => ?_⟩
  · exact tickStep_wait_below hp hq (hsucc.trans_lt ht)
  · exact tickStep_wait_deadline hp hq (hsucc.trans ht).ge
  · exact tickStep_wait_part hp hinv.latched hq hn
  · subst hbuf hgood
    exact (tickStep_wait_whole hp hinv.latched hq hn).trans (check_eq hinv.latched)

/-! ### A byte and a tick in `COLLECT` -/

/-- A byte in `COLLECT` that is not the last of its response is stored (R145). -/
theorem rxStep_collect_part {s : State} (hp : s.phase = .collect) (hmax : s.lN.toNat ≤ maxResp)
    (hn : s.rxcnt.toNat + 1 < s.lN.toNat) (b : Byte) : rxStep b s = .next { s with
      rxbuf := s.rxbuf.write s.rxcnt.toNat b, rxcnt := s.rxcnt + 1 } := by
  have hfit : s.rxcnt.toNat < maxResp := by omega
  have hopen : s.rxcnt + 1 ≠ s.lN := fun h => hn.ne ((rxcnt_succ_toNat hfit).symm.trans (congrArg BitVec.toNat h))
  rw [rxStep_collect hp, collectByte_eq hfit, checkIfComplete_eq]
  exact if_neg hopen

/-- The last byte of a response is stored and the whole of it checked (R145). -/
theorem rxStep_collect_last {s : State} (hp : s.phase = .collect) (hmax : s.lN.toNat ≤ maxResp)
    (hn : s.rxcnt.toNat + 1 = s.lN.toNat) (b : Byte) : rxStep b s = check { s with
      rxbuf := s.rxbuf.write s.rxcnt.toNat b, rxcnt := s.lN } := by
  have hfit : s.rxcnt.toNat < maxResp := by omega
  have hfull : s.rxcnt + 1 = s.lN := BitVec.eq_of_toNat_eq ((rxcnt_succ_toNat hfit).trans hn)
  rw [rxStep_collect hp, collectByte_eq hfit, checkIfComplete_eq, hfull]
  exact if_pos rfl

/-- Settles O28: in `COLLECT` no byte waits in `RXQ`, so the check flushes nothing. -/
theorem collectedByteOutcomes : Obligations.CollectedByteOutcomes := by
  unfold Obligations.CollectedByteOutcomes
  intro s b hinv hp
  obtain ⟨hq, -⟩ := hinv.collecting hp
  have hl : LatchLegal s := hinv.latched
  refine ⟨fun hn => rxStep_collect_part hp hl.1 hn b, fun hn buf good hbuf hgood => ?_⟩
  subst hbuf hgood
  exact (rxStep_collect_last hp hl.1 hn b).trans (check_of_no_bytes hl hq)

theorem tickStep_collect {s : State} (hp : s.phase = .collect) : tickStep s = collectTick s := by
  simp only [tickStep, hp]

/-- Settles O29: the three branches of the tick, which flushes nothing for the same reason. -/
theorem collectTickOutcomes : Obligations.CollectTickOutcomes := by
  unfold Obligations.CollectTickOutcomes
  intro s hinv hp
  obtain ⟨hq, -⟩ := hinv.collecting hp
  have hsucc : (countTick s).elapsed.toNat = s.elapsed.toNat + 1 := elapsed_succ_toNat_of_inv hinv (by simp [hp])
  have htick : deliver .tick s = collectTick s := tickStep_collect hp
  refine ⟨fun ht => ?_, fun ht hv => ?_, fun ht hv => ?_⟩
  · rw [htick, collectTick, if_neg (by omega)]
    rfl
  · rw [htick, collectTick, if_pos (by omega), if_pos hv, finish_of_no_bytes (s := countTick s) hq]
    rfl
  · rw [htick, collectTick, if_pos (by omega), if_neg (by simp [hv]), check_of_unvalidated (s := countTick s) hv,
      finish_of_no_bytes (s := countTick s) hq]
    rfl

/-! ### The deadline in `WAIT`, tick by tick -/

/-- `s` with `k` ticks counted, `q` in `RXQ` and `es` to come. -/
def waited (s : State) (k : Nat) (q : List Byte) (es : List Event) : State :=
  { s with events := es, elapsed := BitVec.ofNat 16 k, rxq := q }

theorem waited_zero {s : State} (he : s.elapsed = 0) (hq : s.rxq = []) : waited s 0 [] s.events = s := by
  rw [waited, ← BitVec.ofNat_eq_ofNat, ← he, ← hq]

theorem waited_elapsed_succ (s : State) (k : Nat) (q : List Byte) (es : List Event) :
    (waited s k q es).elapsed + 1 = BitVec.ofNat 16 (k + 1) := (BitVec.ofNat_add k 1).symm

/-- The state in which the deadline has ended `s`, with `q` in `RXQ` and `es` to come. -/
def timedOut (s : State) (q : List Byte) (es : List Event) : State := { s with
  events := es, elapsed := BitVec.ofNat 16 s.cfg.respTicks, err := .timeout, pvalid := false, done := true,
  phase := .idle, rxq := q }

/-- In flight there was no payload on show before the deadline either (R24). -/
theorem timedOut_eq {s : State} (hpv : s.pvalid = false) (q : List Byte) (es : List Event) :
    timedOut s q es = { s with
      events := es, elapsed := BitVec.ofNat 16 s.cfg.respTicks, err := .timeout, done := true, phase := .idle,
      rxq := q } := by
  rw [timedOut, ← hpv]

/-- The state in which `COLLECT` has taken `b`, the one byte that has come to `s`. -/
def collectedOne (s : State) (b : Byte) (es : List Event) : State := { s with
  events := es, elapsed := 0, phase := .collect, rxbuf := s.rxbuf.write 0 b, rxcnt := 1, rxq := [] }

section
variable {s : State} (hc : s.cfg.accepted = true) (hp : s.phase = .wait)
include hc hp

theorem step_waited_tick {k : Nat} (hk : k + 1 < s.cfg.respTicks) (es : List Event) :
    step (waited s k [] (.tick :: es)) = .next (waited s (k + 1) [] es) := by
  obtain ⟨-, -, hmax, -⟩ := accepted_bounds hc
  have hbelow : ((waited s k [] es).elapsed + 1).toNat < s.cfg.respTicks := by
    rw [waited_elapsed_succ, BitVec.toNat_ofNat]
    omega
  calc step (waited s k [] (.tick :: es))
    _ = tickStep (waited s k [] es) := step_event (s := waited s k [] (.tick :: es)) hc rfl
    _ = .next { waited s k [] es with elapsed := (waited s k [] es).elapsed + 1 } :=
      tickStep_wait_below hp rfl hbelow
    _ = .next (waited s (k + 1) [] es) := by rw [waited_elapsed_succ]; rfl

theorem step_waited_deadline {k : Nat} (hk : k + 1 = s.cfg.respTicks) (es : List Event) :
    step (waited s k [] (.tick :: es)) = .next (timedOut s [] es) := by
  obtain ⟨-, -, hmax, -⟩ := accepted_bounds hc
  have hreached : s.cfg.respTicks ≤ ((waited s k [] es).elapsed + 1).toNat := by
    rw [waited_elapsed_succ, BitVec.toNat_ofNat]
    omega
  calc step (waited s k [] (.tick :: es))
    _ = tickStep (waited s k [] es) := step_event (s := waited s k [] (.tick :: es)) hc rfl
    _ = .next { waited s k [] es with
          elapsed := (waited s k [] es).elapsed + 1, err := .timeout, pvalid := false, done := true,
          phase := .idle } := tickStep_wait_deadline hp rfl hreached
    _ = .next (timedOut s [] es) := by rw [waited_elapsed_succ, hk]; rfl

/-- Ticks below the deadline run one step each and only count, and `n` steps are left (R143). -/
theorem run_waited {i k : Nat} (hk : i + k < s.cfg.respTicks) (n : Nat) (es : List Event) :
    Host.Core.run core (k + n) (waited s i [] (List.replicate k .tick ++ es)) =
      Host.Core.run core n (waited s (i + k) [] es) := by
  induction k generalizing i with
  | zero =>
    rw [Nat.zero_add]
    rfl
  | succ k ih =>
    rw [Nat.succ_add, List.replicate_succ, List.cons_append, run_succ (step_waited_tick hc hp (by omega) _),
      ih (by omega), Nat.add_right_comm, Nat.add_assoc]

/-- The last tick of the deadline ends the transaction, and `n` steps are left (R143, R154). -/
theorem run_timedOut (n : Nat) (es : List Event) :
    Host.Core.run core (s.cfg.respTicks + n) (waited s 0 [] (List.replicate s.cfg.respTicks .tick ++ es)) =
      Host.Core.run core n (timedOut s [] es) := by
  obtain ⟨hmin, -⟩ := accepted_bounds hc
  obtain ⟨k, hk⟩ := Nat.exists_eq_add_of_le' hmin
  rw [hk, List.replicate_succ', List.append_assoc, Nat.add_assoc, Nat.add_comm 1 n, run_waited hc hp (by omega),
    Nat.zero_add, List.singleton_append, run_succ (step_waited_deadline hc hp hk.symm es)]

/-- A byte in `WAIT` and the tick after it bring `COLLECT` with that byte, where more are to come (R144). -/
theorem run_byte_tick (hl : LatchLegal s) (hcap : 1 ≤ s.cfg.rxqCap) (hn : 2 ≤ s.lN.toNat) (k : Nat) (b : Byte)
    (es : List Event) :
    Host.Core.run core 2 (waited s k [] (.rx b :: .tick :: es)) = .next (collectedOne s b es) := by
  have hqueued : step (waited s k [] (.rx b :: .tick :: es)) = .next (waited s k [b] (.tick :: es)) :=
    (step_event (s := waited s k [] (.rx b :: .tick :: es)) hc rfl).trans
      (rxStep_wait (s := waited s k [] (.tick :: es)) hp hcap b)
  have hcollected : step (waited s k [b] (.tick :: es)) = .next (collectedOne s b es) :=
    (step_event (s := waited s k [b] (.tick :: es)) hc rfl).trans
      (tickStep_wait_part (s := waited s k [b] es) hp hl (List.cons_ne_nil b []) hn)
  exact (run_succ hqueued 1).trans (run_succ hcollected 0)

omit hp in
/-- A byte after the deadline stays in the queue of `IDLE` (R142). -/
theorem run_byte_after_timedOut (hcap : 1 ≤ s.cfg.rxqCap) (b : Byte) (es : List Event) :
    Host.Core.run core 1 (timedOut s [] (.rx b :: es)) = .next (timedOut s [b] es) := by
  have hqueued : rxStep b (timedOut s [] es) = .next (timedOut s [b] es) :=
    (rxStep_idle rfl b).trans (congrArg _ (enqueue_of_lt (s := timedOut s [] es) hcap b))
  exact run_succ ((step_event (s := timedOut s [] (.rx b :: es)) hc rfl).trans hqueued) 0

end

/-- Settles O51: `s` has waited for no tick yet, and each clause runs its events from there. -/
theorem timeoutComesAtExactlyTheDeadline : Obligations.TimeoutComesAtExactlyTheDeadline := by
  unfold Obligations.TimeoutComesAtExactlyTheDeadline
  intro s b hinv hp he hq
  have hc : s.cfg.accepted = true := hinv.config
  obtain ⟨-, -, hpv⟩ := hinv.inFlight (by simp [hp])
  have hstart {n : Nat} {es : List Event} (h : s.events = es) :
      Host.Core.run core n s = Host.Core.run core n (waited s 0 [] es) := by rw [← h, waited_zero he hq]
  refine ⟨fun k es hk h => ?_, fun es h => ?_, fun j es hj hle hcap hn h => ?_, fun es hcap h => ?_⟩
  · rw [hstart h]
    refine (run_waited hc hp (i := 0) (by omega) 0 es).trans ?_
    rw [Nat.zero_add, waited, ← hq]
    rfl
  · rw [hstart h]
    refine (run_timedOut hc hp 0 es).trans ?_
    rw [timedOut_eq hpv, ← hq]
    rfl
  · obtain ⟨k, rfl⟩ := Nat.exists_eq_add_of_le' hj
    rw [hstart h]
    refine (run_waited hc hp (i := 0) (by omega) 2 _).trans ?_
    rw [run_byte_tick hc hp hinv.latched hcap hn, collectedOne, ← hq]
  · rw [hstart h, run_timedOut hc hp 1, run_byte_after_timedOut hc hcap b es, timedOut_eq hpv]

end Sys2Proof.Machine
end

section
/-! PROOFS. Scope: how `phase` moves under each event, what hands a frame to the transport, and what a host turn leaves
alone in flight (R71, R130, R133, R149, R150, R152). -/

namespace Sys2Proof.Machine

/-! ### The host's turn in flight -/

/-- In flight a host turn reaches the operand registers, the host's list and its record of reads only (R71, R130). -/
theorem hostTurn_busy {s t : State} (hp : s.phase ≠ .idle) (h : hostTurn s = .next t) :
    t = { s with
      id := t.id, addr := t.addr, count := t.count, dlen := t.dlen, acklen := t.acklen, txdata := t.txdata,
      host := t.host, reads := t.reads } := by
  rcases hostTurn_cases s t h with ⟨-, e⟩ | ⟨-, rest, e | ⟨op, n, e⟩⟩
  · exact e
  · rw [e, illegalCommand_busy (s := { s with host := rest }) hp]
  · rw [e, command_busy (s := { s with host := rest }) hp]

/-- Settles O48. -/
theorem noHostAccessEndsATransaction : Obligations.NoHostAccessEndsATransaction := by
  unfold Obligations.NoHostAccessEndsATransaction
  intro s t hp h
  rw [hostTurn_busy hp h]
  exact ⟨rfl, rfl, rfl, rfl, rfl, rfl, rfl, rfl, rfl, rfl, rfl, rfl, rfl, rfl, rfl⟩

/-! ### Emitted frames -/

theorem illegalCommand_emitted (s : State) : (illegalCommand s).emitted = s.emitted := by
  rcases illegalCommand_cases s with ⟨-, e⟩ | ⟨-, e⟩ <;> rw [e]

/-- A command emits nothing, or it is accepted in `IDLE` and emits the one frame it stores (R131, R133). -/
theorem command_emitted_cases (op : Op) (n : Bool) (s : State) :
    (command op n s).emitted = s.emitted ∨
      (s.phase = .idle ∧ ∃ f, (command op n s).emitted = s.emitted ++ [f] ∧
        (command op n s).txframe = Memory.ofBytes 0 f ∧ (command op n s).txlen = BitVec.ofNat 9 f.length) := by
  rcases command_cases op n s with ⟨-, e⟩ | ⟨-, -, e⟩ | ⟨-, -, -, e⟩ | ⟨hp, -, -, -, e⟩ | ⟨hp, -, -, -, e⟩ <;> rw [e]
  · exact .inl rfl
  · exact .inl rfl
  · exact .inl rfl
  · exact .inr ⟨hp, _, rfl, rfl, rfl⟩
  · exact .inr ⟨hp, _, rfl, rfl, rfl⟩

/-- Settles O46: only a host turn that runs a command can emit. -/
theorem onlyAnAcceptedCommandEmits : Obligations.OnlyAnAcceptedCommandEmits := by
  unfold Obligations.OnlyAnAcceptedCommandEmits
  intro s t e h
  rcases deliver_cases h with hf | ⟨rfl, hh⟩ | ⟨-, rfl⟩ | ⟨v, -, rfl⟩
  · rw [hf]
    exact .inl rfl
  · rcases hostTurn_cases s t hh with ⟨-, e⟩ | ⟨hcmd, rest, rfl | ⟨op, n, rfl⟩⟩
    · rw [e]
      exact .inl rfl
    · exact .inl (illegalCommand_emitted { s with host := rest })
    · rcases command_emitted_cases op n { s with host := rest } with hnone | ⟨hp, hone⟩
      · exact .inl hnone
      · exact .inr ⟨rfl, hcmd, hp, hone⟩
  · exact .inl rfl
  · exact .inl rfl

/-! ### The transition table -/

/-- A command from `IDLE` ends in `IDLE` or `WAIT` (R131). -/
theorem command_phase_idle {s : State} (hp : s.phase = .idle) (op : Op) (n : Bool) :
    (command op n s).phase = .idle ∨ (command op n s).phase = .wait := by
  rcases command_cases op n s with ⟨h, -⟩ | ⟨-, -, e⟩ | ⟨-, -, -, e⟩ | ⟨-, -, -, -, e⟩ | ⟨-, -, -, -, e⟩
  · exact absurd hp h
  · exact .inl (e ▸ hp)
  · exact .inl (e ▸ hp)
  · exact .inr (e ▸ rfl)
  · exact .inl (e ▸ hp)

theorem hostTurn_phase_idle {s t : State} (hp : s.phase = .idle) (h : hostTurn s = .next t) :
    t.phase = .idle ∨ t.phase = .wait := by
  rcases hostTurn_cases s t h with ⟨-, e⟩ | ⟨-, rest, rfl | ⟨op, n, rfl⟩⟩
  · rw [e]
    exact .inl hp
  · rw [illegalCommand_idle (s := { s with host := rest }) hp]
    exact .inl hp
  · exact command_phase_idle (s := { s with host := rest }) hp op n

theorem checkIfComplete_phase {s t : State} (h : checkIfComplete s = .next t) : t.phase = .idle ∨ t.phase = s.phase :=
  (checkIfComplete_next h).imp_right (congrArg _)

/-- A byte moves the phase only from `COLLECT`, and then to `IDLE` (R142, R145). -/
theorem rxStep_phase {s t : State} {b : Byte} (h : rxStep b s = .next t) :
    t.phase = s.phase ∨ (s.phase = .collect ∧ t.phase = .idle) := by
  unfold rxStep at h
  split at h
  · cases h
    exact .inl (enqueue_phase b s)
  · cases h
    exact .inl (enqueue_phase b s)
  · next hp =>
    unfold collectByte at h
    split_ifs at h
    rcases checkIfComplete_phase h with hi | hs
    · exact .inr ⟨hp, hi⟩
    · exact .inl hs

/-- A tick in `COLLECT` leaves it for `IDLE` only (R146). -/
theorem collectTick_phase {s t : State} (h : collectTick s = .next t) : t.phase = .idle ∨ t.phase = s.phase := by
  unfold collectTick at h
  split_ifs at h
  · cases h
    exact .inl rfl
  · exact .inl (check_idle h)
  · cases h
    exact .inr rfl

/-- Outside `WAIT` a tick stays, or ends `COLLECT` (R146, R147). -/
theorem tickStep_phase {s t : State} (hw : s.phase ≠ .wait) (h : tickStep s = .next t) :
    t.phase = s.phase ∨ (s.phase = .collect ∧ t.phase = .idle) := by
  unfold tickStep at h
  split at h
  · cases h
    exact .inl rfl
  · next hp => exact absurd hp hw
  · next hp =>
    rcases collectTick_phase h with hi | hs
    · exact .inr ⟨hp, hi⟩
    · exact .inl hs

theorem rxErrorStep_phase (s : State) : (rxErrorStep s).phase = .idle := by
  by_cases hp : s.phase = .idle
  · rw [rxErrorStep_idle hp, hp]
  · rw [rxErrorStep_busy hp, finish_phase]

/-- Staying is an edge of every event but a read failure and a reset (R152). -/
theorem phaseEdge_self {e : Event} (herr : e ≠ .rxError) (hreset : e ≠ .reset) (p : Phase) :
    phaseEdge e p p = true := by
  cases e with
  | rxError => exact absurd rfl herr
  | reset => exact absurd rfl hreset
  | host => cases p <;> rfl
  | rx b => cases p <;> rfl
  | tick => cases p <;> rfl
  | verdict v => cases p <;> rfl

/-- Settles O44: a read failure and a reset end in `IDLE`; every other event stays or takes an edge of its own. -/
theorem phaseFollowsTheTransitionTable : Obligations.PhaseFollowsTheTransitionTable := by
  unfold Obligations.PhaseFollowsTheTransitionTable
  intro s t e h
  cases e with
  | host =>
    by_cases hp : s.phase = .idle
    · rcases hostTurn_phase_idle hp h with ht | ht <;> rw [hp, ht] <;> rfl
    · rw [hostTurn_phase hp h]
      exact phaseEdge_self (e := .host) nofun nofun s.phase
  | rx b =>
    rcases rxStep_phase h with hs | ⟨hp, ht⟩
    · rw [hs]
      exact phaseEdge_self (e := .rx b) nofun nofun s.phase
    · rw [hp, ht]
      rfl
  | rxError =>
    cases h
    rw [rxErrorStep_phase]
    cases s.phase <;> rfl
  | tick =>
    by_cases hw : s.phase = .wait
    · rw [hw]
      cases t.phase <;> rfl
    · rcases tickStep_phase hw h with hs | ⟨hp, ht⟩
      · rw [hs]
        exact phaseEdge_self (e := .tick) nofun nofun s.phase
      · rw [hp, ht]
        rfl
  | reset =>
    cases h
    cases s.phase <;> rfl
  | verdict v =>
    cases h
    exact phaseEdge_self (e := .verdict v) nofun nofun s.phase

end Sys2Proof.Machine
end

section
/-! PROOFS. Scope: the arithmetic of binary64: the value of a finite one, rounding to the nearest, and operations that
round their exact result and so keep the order (R174, R177, D22). -/

namespace Sys2Proof.Machine.Binary64

/-! ### The value of a binary64 -/

/-- The number a finite binary64 stands for; 0 for the others, of which no statement below speaks. -/
def value : Binary64 → ℚ
  | .finite neg m e => signed neg m * 2 ^ e
  | .inf _ => 0
  | .nan => 0

@[simp] theorem value_finite_false (m : Nat) (e : Int) : (finite false m e).value = m * 2 ^ e := by
  simp [value, signed]

/-- Aligning to a smaller exponent `k` counts the value in units of `2^k`. -/
theorem alignTo_mul {k e : Int} (h : k ≤ e) (neg : Bool) (m : Nat) :
    (alignTo k neg m e : ℚ) * 2 ^ k = (finite neg m e).value := by
  have he : ((2 : ℚ) ^ (e - k).toNat) = 2 ^ (e - k) := by
    rw [← zpow_natCast, Int.toNat_of_nonneg (by omega)]
  rw [alignTo, value, Int.cast_mul, Int.cast_pow, Int.cast_ofNat, he, mul_assoc, ← zpow_add₀ (by norm_num),
    sub_add_cancel]

/-- Neither an infinity nor NaN. -/
def IsFinite (b : Binary64) : Prop := ∃ (neg : Bool) (m : Nat) (e : Int), b = .finite neg m e

/-- `lt` compares the values. -/
theorem lt_iff_value_lt {u v : Binary64} (hu : u.IsFinite) (hv : v.IsFinite) :
    u.lt v = true ↔ u.value < v.value := by
  obtain ⟨a, m, e, rfl⟩ := hu
  obtain ⟨b, n, f, rfl⟩ := hv
  rw [← alignTo_mul (min_le_left e f) a m, ← alignTo_mul (min_le_right e f) b n,
    mul_lt_mul_iff_left₀ (two_zpow_pos _), Int.cast_lt]
  exact decide_eq_true_iff

/-- A finite value without a sign. -/
def Unsigned (b : Binary64) : Prop := ∃ (m : Nat) (e : Int), b = .finite false m e

theorem Unsigned.isFinite {u : Binary64} (hu : u.Unsigned) : u.IsFinite :=
  have ⟨m, e, h⟩ := hu
  ⟨false, m, e, h⟩

theorem Unsigned.value_nonneg {u : Binary64} (hu : u.Unsigned) : 0 ≤ u.value := by
  obtain ⟨m, e, rfl⟩ := hu
  rw [value_finite_false]
  positivity

/-- Of a value that is not negative, `trunc` is the floor. -/
theorem Unsigned.trunc_eq {u : Binary64} (hu : u.Unsigned) : u.trunc = ⌊u.value⌋ := by
  obtain ⟨m, e, rfl⟩ := hu
  obtain ⟨-, hr⟩ := scaleDown_ratio m 1 one_pos (-e)
  have hv : (finite false m e).value = (scaleDown m 1 (-e)).1 / (scaleDown m 1 (-e)).2 := by
    rw [hr, value_finite_false, zpow_neg]
    simp
  rw [hv, Rat.floor_natCast_div_natCast]
  rfl

/-! ### Rounding a quotient -/

/-- A quotient far from overflow has an exponent far from the largest. -/
theorem exponentOf_lt {p q : Nat} (hp : 0 < p) (hq : 0 < q) (hb : (p : ℚ) / q < 2 ^ (900 : Int)) :
    exponentOf p q < 971 := by
  obtain ⟨-, -, h | h⟩ := exponentOf_spec p q hp hq
  · omega
  · have hlt : 52 + exponentOf p q < 900 := (zpow_lt_zpow_iff_right₀ (by norm_num)).1 (lt_of_le_of_lt h hb)
    omega

/-- The quotient counted in units of its exponent. -/
def mantissaOf (p q : Nat) : Nat :=
  nearestEven (scaleDown p q (exponentOf p q)).1 (scaleDown p q (exponentOf p q)).2

/-- No multiple of the unit lies nearer to the quotient. -/
theorem mantissaOf_nearest {p q : Nat} (hq : 0 < q) (k : Int) :
    |(mantissaOf p q : ℚ) * 2 ^ exponentOf p q - p / q| ≤ |(k : ℚ) * 2 ^ exponentOf p q - p / q| := by
  obtain ⟨h2, hr⟩ := scaleDown_ratio p q hq (exponentOf p q)
  have hu := two_zpow_pos (exponentOf p q)
  have hunits (y : ℚ) : |y * 2 ^ exponentOf p q - p / q| =
      |y - (scaleDown p q (exponentOf p q)).1 / (scaleDown p q (exponentOf p q)).2| * 2 ^ exponentOf p q := by
    rw [hr, ← abs_of_pos hu, ← abs_mul, abs_of_pos hu, sub_mul, div_mul_cancel₀ _ hu.ne']
  rw [hunits, hunits]
  exact mul_le_mul_of_nonneg_right (nearestEven_nearest h2 k) hu.le

/-- No canonical value lies nearer to the quotient: one of the quotient's exponent or above is a multiple of the unit,
and one of a smaller exponent lies below `2^52` units, which the quotient is not. -/
theorem mantissaOf_nearest_canonical {p q n : Nat} {f : Int} (hp : 0 < p) (hq : 0 < q)
    (hc : (finite false n f).canonical = true) :
    |(mantissaOf p q : ℚ) * 2 ^ exponentOf p q - p / q| ≤ |(n : ℚ) * 2 ^ f - p / q| := by
  obtain ⟨-, -, hlow⟩ := exponentOf_spec p q hp hq
  simp only [canonical, Bool.and_eq_true, decide_eq_true_eq] at hc
  obtain ⟨⟨⟨hn, hf⟩, -⟩, -⟩ := hc
  rcases le_or_gt (exponentOf p q) f with h | h
  · have hmul : (n : ℚ) * 2 ^ f = ((n * 2 ^ (f - exponentOf p q).toNat : Int) : ℚ) * 2 ^ exponentOf p q := by
      rw [← value_finite_false, ← alignTo_mul h]
      rfl
    rw [hmul]
    exact mantissaOf_nearest hq _
  · have hx := hlow.resolve_left (by omega)
    have hbelow : (n : ℚ) * 2 ^ f ≤ 2 ^ (52 + exponentOf p q) :=
      calc (n : ℚ) * 2 ^ f ≤ 2 ^ (53 : Int) * 2 ^ f := by gcongr; exact_mod_cast hn.le
        _ = 2 ^ (53 + f) := (zpow_add₀ (by norm_num) _ _).symm
        _ ≤ 2 ^ (52 + exponentOf p q) := two_zpow_le (by omega)
    have hunit : ((2 ^ 52 : Int) : ℚ) * 2 ^ exponentOf p q = 2 ^ (52 + exponentOf p q) := by
      rw [zpow_add₀ (by norm_num)]
      norm_num
    refine (mantissaOf_nearest hq (2 ^ 52)).trans ?_
    rw [hunit, abs_of_nonpos (by linarith), abs_of_nonpos (by linarith)]
    linarith

/-- A quotient far from overflow rounds to a canonical value, and no canonical value lies nearer (R174, D22). -/
theorem round_nearest {p q : Nat} (hq : 0 < q) (hb : (p : ℚ) / q < 2 ^ (900 : Int)) :
    ∃ (m : Nat) (e : Int), round false p q = .finite false m e ∧ (finite false m e).canonical = true ∧
      ∀ (n : Nat) (f : Int), (finite false n f).canonical = true →
        |(m : ℚ) * 2 ^ e - p / q| ≤ |(n : ℚ) * 2 ^ f - p / q| := by
  rcases Nat.eq_zero_or_pos p with rfl | hp
  · refine ⟨0, -1074, rfl, rfl, fun n f _ => ?_⟩
    rw [Nat.cast_zero, zero_mul, zero_div, sub_zero, abs_zero]
    exact abs_nonneg _
  · rcases round_spec false p q hp hq with h | ⟨m, e, hr, hc, hv⟩
    · exact absurd (exponentOf_lt hp hq hb) h.not_gt
    · refine ⟨m, e, hr, hc, fun n f hn => ?_⟩
      rw [hv]
      exact mantissaOf_nearest_canonical hp hq hn

/-- A natural number below `2^53` is far from overflow. -/
theorem cast_lt_of_lt_two_pow {n : Nat} (h : n < 2 ^ 53) : (n : ℚ) < 2 ^ (900 : Int) :=
  calc (n : ℚ) < 2 ^ (53 : Int) := by exact_mod_cast h
    _ ≤ 2 ^ (900 : Int) := two_zpow_le (by norm_num)

/-! ### What an operation rounds -/

/-- `b` is what a quotient equal to `x` rounds to. -/
def Rounds (x : ℚ) (b : Binary64) : Prop := ∃ p q : Nat, 0 < q ∧ (p : ℚ) / q = x ∧ b = round false p q

theorem rounds_ofNat (n : Nat) : Rounds n (ofNat n) := ⟨n, 1, one_pos, by simp, rfl⟩

theorem rounds_scaleDown (m : Nat) (e : Int) {n : Nat} (hn : 0 < n) :
    Rounds ((m : ℚ) / n / 2 ^ e) (round false (scaleDown m n e).1 (scaleDown m n e).2) :=
  have ⟨hpos, hratio⟩ := scaleDown_ratio m n hn e
  ⟨_, _, hpos, hratio, rfl⟩

theorem rounds_div {u v : Binary64} (hu : u.Unsigned) (hv : v.Unsigned) (h0 : v.value ≠ 0) :
    Rounds (u.value / v.value) (u.div v) := by
  obtain ⟨m, e, rfl⟩ := hu
  obtain ⟨n, f, rfl⟩ := hv
  have hn : n ≠ 0 := fun hz => h0 (by simp [hz])
  have hx : (finite false m e).value / (finite false n f).value = m / n / 2 ^ (f - e) := by
    rw [value_finite_false, value_finite_false, zpow_sub₀ (by norm_num)]
    field_simp
  rw [hx, div, if_neg hn]
  exact rounds_scaleDown m (f - e) (Nat.pos_of_ne_zero hn)

theorem rounds_mul {u v : Binary64} (hu : u.Unsigned) (hv : v.Unsigned) :
    Rounds (u.value * v.value) (u.mul v) := by
  obtain ⟨m, e, rfl⟩ := hu
  obtain ⟨n, f, rfl⟩ := hv
  have hx : (finite false m e).value * (finite false n f).value = (m * n : Nat) / (1 : Nat) / 2 ^ (-(e + f)) := by
    rw [value_finite_false, value_finite_false, zpow_neg, zpow_add₀ (by norm_num)]
    push_cast
    field_simp
  rw [hx]
  exact rounds_scaleDown (m * n) (-(e + f)) one_pos

theorem rounds_roundInt {n : Int} (hn : 0 ≤ n) (k : Int) : Rounds ((n : ℚ) * 2 ^ k) (roundInt n k) := by
  obtain ⟨i, rfl⟩ := Int.eq_ofNat_of_zero_le hn
  have hsign : decide ((i : Int) < 0) = false := decide_eq_false (by omega)
  rw [roundInt, hsign]
  split_ifs with hk
  · obtain ⟨j, rfl⟩ := Int.eq_ofNat_of_zero_le hk
    exact ⟨_, _, one_pos, by simp, rfl⟩
  · obtain ⟨j, rfl⟩ : ∃ j : Nat, k = -j := ⟨(-k).toNat, by omega⟩
    exact ⟨_, _, by positivity, by simp [div_eq_mul_inv], rfl⟩

/-- A sum that is not negative is rounded from the exact sum, where one of the two is not 0. -/
theorem rounds_add {u v : Binary64} (hu : u.IsFinite) (hv : v.Unsigned) (h0 : v.value ≠ 0)
    (h : 0 ≤ u.value + v.value) : Rounds (u.value + v.value) (u.add v) := by
  obtain ⟨a, m, e, rfl⟩ := hu
  obtain ⟨n, f, rfl⟩ := hv
  rw [add, if_neg (fun hz => h0 (by simp [hz.2]))]
  rw [← alignTo_mul (min_le_left e f) a m, ← alignTo_mul (min_le_right e f) false n, ← add_mul, ← Int.cast_add] at h ⊢
  exact rounds_roundInt (by exact_mod_cast nonneg_of_mul_nonneg_left h (two_zpow_pos _)) _

theorem Rounds.unsigned {x : ℚ} {u : Binary64} (hu : Rounds x u) (hx : x < 2 ^ (900 : Int)) : u.Unsigned := by
  obtain ⟨p, q, hq, rfl, rfl⟩ := hu
  obtain ⟨m, e, hr, -⟩ := round_nearest hq hx
  exact ⟨m, e, hr⟩

/-- Rounding keeps the order. -/
theorem Rounds.value_le {x y : ℚ} {u v : Binary64} (hu : Rounds x u) (hv : Rounds y v) (hxy : x ≤ y)
    (hy : y < 2 ^ (900 : Int)) : u.value ≤ v.value := by
  have hv0 := (hv.unsigned hy).value_nonneg
  obtain ⟨p, q, hq, rfl, rfl⟩ := hu
  obtain ⟨p', q', hq', rfl, rfl⟩ := hv
  rcases Nat.eq_zero_or_pos p with rfl | hp
  · calc (round false 0 q).value = 0 := by simp [round]
      _ ≤ _ := hv0
  · have hp' : 0 < p' := by
      by_contra h
      rw [Nat.eq_zero_of_not_pos h, Nat.cast_zero, zero_div] at hxy
      exact absurd hxy (not_le.2 (by positivity))
    obtain ⟨m, n, e, f, hr, hr', hle⟩ := round_mono p q p' q' hp hq hp' hq' hxy hy
    rwa [hr, hr', value_finite_false, value_finite_false]

/-- A natural number whose shift by `k` fills the mantissa is kept by rounding. -/
theorem value_ofNat {n : Nat} (k : Nat) (hk : k ≤ 1074) (h1 : 2 ^ 52 ≤ n * 2 ^ k) (h2 : n * 2 ^ k < 2 ^ 53) :
    (ofNat n).value = n := by
  have hn : n < 2 ^ 53 := lt_of_le_of_lt (Nat.le_mul_of_pos_right n (by positivity)) h2
  have hb : (n : ℚ) / (1 : Nat) < 2 ^ (900 : Int) := by
    rw [Nat.cast_one, div_one]
    exact cast_lt_of_lt_two_pow hn
  have hc : (finite false (n * 2 ^ k) (-k)).canonical = true := by
    simp only [canonical, Bool.and_eq_true, Bool.or_eq_true, decide_eq_true_eq]
    omega
  obtain ⟨m, e, hr, -, hnear⟩ := round_nearest one_pos hb
  have hself : ((n * 2 ^ k : Nat) : ℚ) * 2 ^ (-k : Int) - n / (1 : Nat) = 0 := by
    simp
  have h0 := hnear _ _ hc
  rw [hself, abs_zero, Nat.cast_one, div_one] at h0
  rw [ofNat, hr, value_finite_false]
  exact sub_eq_zero.1 (abs_nonpos_iff.1 h0)

/-! ### Rounded steps that keep the order -/

/-- Two finite values without a sign, in order, and not above `c`. -/
structure InOrder (c : Nat) (u v : Binary64) : Prop where
  left : u.Unsigned
  right : v.Unsigned
  le : u.value ≤ v.value
  le_top : v.value ≤ c

/-- Rounding keeps two numbers in order, and below a natural number that rounding keeps. -/
theorem inOrder_of_rounds {x y : ℚ} {c : Nat} {u v : Binary64} (hu : Rounds x u) (hv : Rounds y v) (hxy : x ≤ y)
    (hyc : y ≤ c) (hc : c < 2 ^ 53) (hkept : (ofNat c).value = c) : InOrder c u v := by
  have hbig := cast_lt_of_lt_two_pow hc
  exact {
    left := hu.unsigned (by linarith)
    right := hv.unsigned (by linarith)
    le := hu.value_le hv hxy (by linarith)
    le_top := hkept ▸ hv.value_le (rounds_ofNat c) hyc hbig }

end Sys2Proof.Machine.Binary64
end

section
/-! PROOFS. Scope: the scaled readings, the angle mapping and the range checks of a move (R174, R176 to R180, R182). -/

namespace Sys2Proof.Machine

open Binary64

/-! ### The scaled readings -/

/-- Settles O54: both readings round `raw / 10`, which is far from overflow. -/
theorem scaledReadingIsTheNearestQuotient : Obligations.ScaledReadingIsTheNearestQuotient := by
  unfold Obligations.ScaledReadingIsTheNearestQuotient
  intro raw hraw
  have hbig : (raw : ℚ) / (10 : Nat) < 2 ^ (900 : Int) :=
    calc (raw : ℚ) / (10 : Nat) ≤ raw := div_le_self (by positivity) (by norm_num)
      _ < 2 ^ (900 : Int) := cast_lt_of_lt_two_pow (by omega)
  obtain ⟨m, e, hround, hcan, hnear⟩ := round_nearest (by norm_num) hbig
  exact ⟨m, e, congrArg RegValue.float hround, congrArg RegValue.float hround, hcan, hnear⟩

/-! ### The numbers of the formula -/

theorem ofNat_unsigned {n : Nat} (h : n < 2 ^ 53) : (ofNat n).Unsigned :=
  (rounds_ofNat n).unsigned (cast_lt_of_lt_two_pow h)

theorem value_ofNat_1 : (ofNat 1).value = (1 : Nat) := value_ofNat 52 (by norm_num) (by norm_num) (by norm_num)

theorem value_ofNat_90 : (ofNat 90).value = 90 := value_ofNat 46 (by norm_num) (by norm_num) (by norm_num)

theorem value_ofNat_180 : (ofNat 180).value = 180 := value_ofNat 45 (by norm_num) (by norm_num) (by norm_num)

theorem value_ofNat_4096 : (ofNat 4096).value = 4096 := value_ofNat 40 (by norm_num) (by norm_num) (by norm_num)

theorem minus90_eq : minus90 = .finite true (90 * 2 ^ 46) (-46) := by decide +kernel

/-! ### The angle mapping -/

/-- The domain of the mapping, which is refused outside it (R176). -/
theorem angleToPosition_ok {x : Binary64} (hx : x.IsFinite) {p : Nat} (h : angleToPosition x = .ok p) :
    -90 ≤ x.value ∧ x.value ≤ 90 ∧ p = clampPosition (scaledAngle x).trunc := by
  have hfin : minus90.IsFinite := ⟨_, _, _, minus90_eq⟩
  have hvalue : minus90.value = -90 := by
    rw [minus90_eq]
    norm_num [value, signed]
  have h90 : (ofNat 90).IsFinite := (ofNat_unsigned (by norm_num)).isFinite
  unfold angleToPosition at h
  split_ifs at h with hdom
  rw [Bool.or_eq_true, lt_iff_value_lt hx hfin, lt_iff_value_lt h90 hx, hvalue, value_ofNat_90, not_or, not_lt,
    not_lt] at hdom
  exact ⟨hdom.1, hdom.2, (Except.ok.inj h).symm⟩

/-- The sums of two angles of the domain lie in [0, 180], so they are rounded without a sign. -/
theorem inOrder_add_90 {x y : Binary64} (hx : x.IsFinite) (hy : y.IsFinite) (hlow : -90 ≤ x.value)
    (hle : x.value ≤ y.value) (hhigh : y.value ≤ 90) : InOrder 180 (x.add (ofNat 90)) (y.add (ofNat 90)) := by
  have h90 : (ofNat 90).Unsigned := ofNat_unsigned (by norm_num)
  have hne : (ofNat 90).value ≠ 0 := by norm_num [value_ofNat_90]
  have hsum {z : Binary64} (hz : z.IsFinite) (h : -90 ≤ z.value) : Rounds (z.value + 90) (z.add (ofNat 90)) := by
    have h := rounds_add hz h90 hne (by rw [value_ofNat_90]; linarith)
    rwa [value_ofNat_90] at h
  exact inOrder_of_rounds (hsum hx hlow) (hsum hy (hlow.trans hle)) (by gcongr) (by norm_num; linarith)
    (by norm_num) value_ofNat_180

theorem inOrder_div_180 {u v : Binary64} (h : InOrder 180 u v) :
    InOrder 1 (u.div (ofNat 180)) (v.div (ofNat 180)) := by
  have h180 : (ofNat 180).Unsigned := ofNat_unsigned (by norm_num)
  have hquot {w : Binary64} (hw : w.Unsigned) : Rounds (w.value / 180) (w.div (ofNat 180)) := by
    have h := rounds_div hw h180 (by norm_num [value_ofNat_180])
    rwa [value_ofNat_180] at h
  exact inOrder_of_rounds (hquot h.left) (hquot h.right) (div_le_div_of_nonneg_right h.le (by norm_num))
    ((div_le_div_of_nonneg_right h.le_top (by norm_num)).trans (by norm_num)) (by norm_num) value_ofNat_1

theorem inOrder_mul_4096 {u v : Binary64} (h : InOrder 1 u v) :
    InOrder 4096 (u.mul (ofNat 4096)) (v.mul (ofNat 4096)) := by
  have h4096 : (ofNat 4096).Unsigned := ofNat_unsigned (by norm_num)
  have hprod {w : Binary64} (hw : w.Unsigned) : Rounds (w.value * 4096) (w.mul (ofNat 4096)) := by
    have h := rounds_mul hw h4096
    rwa [value_ofNat_4096] at h
  exact inOrder_of_rounds (hprod h.left) (hprod h.right) (mul_le_mul_of_nonneg_right h.le (by norm_num))
    ((mul_le_mul_of_nonneg_right h.le_top (by norm_num)).trans (by norm_num)) (by norm_num) value_ofNat_4096

/-- The formula keeps two angles of the domain in order, as each of its three operations does (R176, R177). -/
theorem scaledAngle_inOrder {x y : Binary64} (hx : x.IsFinite) (hy : y.IsFinite) (hlow : -90 ≤ x.value)
    (hle : x.value ≤ y.value) (hhigh : y.value ≤ 90) : InOrder 4096 (scaledAngle x) (scaledAngle y) :=
  inOrder_mul_4096 (inOrder_div_180 (inOrder_add_90 hx hy hlow hle hhigh))

theorem clampPosition_mono {x y : Int} (h : x ≤ y) : clampPosition x ≤ clampPosition y := by
  unfold clampPosition
  omega

theorem clampPosition_le (x : Int) : clampPosition x ≤ 4095 := by
  unfold clampPosition
  omega

/-- R178: the ends of the domain and its middle. -/
theorem angleToPosition_examples :
    angleToPosition (Binary64.round true 90 1) = .ok 0 ∧ angleToPosition (Binary64.round false 90 1) = .ok 4095 ∧
      angleToPosition (Binary64.round false 0 1) = .ok 2048 := by decide +kernel

theorem angleToPosition_mono {x y : Binary64} {p q : Nat} (hx : x.IsFinite) (hy : y.IsFinite)
    (hle : x.value ≤ y.value) (hp : angleToPosition x = .ok p) (hq : angleToPosition y = .ok q) : p ≤ q := by
  obtain ⟨hlow, -, rfl⟩ := angleToPosition_ok hx hp
  obtain ⟨-, hhigh, rfl⟩ := angleToPosition_ok hy hq
  have h := scaledAngle_inOrder hx hy hlow hle hhigh
  rw [h.left.trunc_eq, h.right.trunc_eq]
  exact clampPosition_mono (Int.floor_le_floor h.le)

/-- Settles O55: the formula keeps the order, and so do truncation and the clamp, which ends at 4095. -/
theorem angleMappingIsMonotonic : Obligations.AngleMappingIsMonotonic := by
  unfold Obligations.AngleMappingIsMonotonic
  obtain ⟨hmin, hmax, hmid⟩ := angleToPosition_examples
  refine ⟨hmin, hmax, hmid, fun a b m n e f p q _ _ hlt hp hq => ?_⟩
  have hx : (finite a m e).IsFinite := ⟨a, m, e, rfl⟩
  have hy : (finite b n f).IsFinite := ⟨b, n, f, rfl⟩
  have hle : (finite a m e).value ≤ (finite b n f).value := by
    rw [← not_lt, ← lt_iff_value_lt hy hx, hlt]
    exact Bool.false_ne_true
  obtain ⟨-, -, hq'⟩ := angleToPosition_ok hy hq
  exact ⟨angleToPosition_mono hx hy hle hp hq, hq' ▸ clampPosition_le _⟩

/-! ### The range checks -/

theorem validateSpeed_ok_iff (v : Int) : validateSpeed v = .ok () ↔ 0 ≤ v ∧ v ≤ 2048 := by
  refine ⟨fun h => ?_, fun ⟨h0, h1⟩ => validateSpeed_ok h0 h1⟩
  by_contra hv
  rw [validateSpeed_error (by omega)] at h
  cases h

theorem validateSpeed_error_iff (v : Int) : validateSpeed v = .error .rangeError ↔ v < 0 ∨ 2048 < v := by
  refine ⟨fun h => ?_, validateSpeed_error⟩
  by_contra hv
  rw [validateSpeed_ok (by omega) (by omega)] at h
  cases h

/-- Settles O56: each check's two answers by their lemmas. -/
theorem rangeChecksComeFirst : Obligations.RangeChecksComeFirst := by
  unfold Obligations.RangeChecksComeFirst
  exact ⟨fun v => ⟨validateSpeed_ok_iff v, validateSpeed_error_iff v⟩,
    fun id p v => ⟨fun hp0 hp hv0 hv => rotateToPosition_ok hp0 hp hv0 hv id, fun h => rotateToPosition_error h id⟩,
    fun id angle v => ⟨fun p hp hv0 hv => rotateToAngle_ok hp hv0 hv id, fun h => rotateToAngle_error h id⟩⟩

end Sys2Proof.Machine
end

section
/-! PROOFS. Scope: what `finish` writes and the `STATUS` it leaves (R205, R24, R201). -/

namespace Sys2Proof.Machine

theorem busy_finish (code : ErrCode) (s : State) : (finish code s).busy = false :=
  busy_of_idle (finish_phase code s)

/-- Settles O25: the fields of `STATUS` (O38), read at the state that `finish` leaves. -/
theorem finishWritesTheOutcome : Obligations.FinishWritesTheOutcome := by
  unfold Obligations.FinishWritesTheOutcome
  intro code s
  obtain ⟨-, hdone, herr, hpvalid, -⟩ := statusWordFields (finish code s)
  rw [finish_done] at hdone
  rw [finish_err] at herr
  rw [finish_pvalid] at hpvalid
  exact ⟨rfl, (statusWord_busy _).trans (busy_finish code s), hdone, herr, hpvalid⟩

end Sys2Proof.Machine
end

section
/-! PROOFS. Scope: what the reset event writes and what it leaves (R230, R231, R234, R45). -/

namespace Sys2Proof.Machine

/-- Settles O33: the event runs `resetStep`, which takes the block's fields from the reset state and every other one
from `s`, with no case on the phase. -/
theorem resetEventRestoresTheResetValues : Obligations.ResetEventRestoresTheResetValues := by
  unfold Obligations.ResetEventRestoresTheResetValues
  intro s
  calc deliver .reset s = .next (resetStep s) := rfl
    _ = _ := rfl

end Sys2Proof.Machine
end
